-- ==== Sys2Proof/Word.lean ====
section
/-! DEFINITION. The word types of the engine and the records that cross its ports: bytes, identifier
words, frames, messages, and the ten values of the state register (00_scope.md R10 to R13,
10_state.md R21, R40, R41, 30_encoding.md R80). Types only: everything computed from them stands in
Decode.lean and under Machine/. -/

namespace Sys2Proof

/-- A byte (00_scope.md R11: bit 0 is the least significant). -/
abbrev Byte := BitVec 8

/-- A 32-bit identifier word: bit 31 EXT, bit 30 RTR, bit 29 unnamed, bits 28:0 ADDR
(10_state.md R41). The engine never splits it. -/
abbrev Ident := BitVec 32

/-- A frame as the engine holds or builds it (10_state.md R40): only `data[0..len-1]` hold a value, so
`data` lists exactly those bytes and no others (00_scope.md R19). `len` is 4 bits wide, so that an
adapter's 9 to 15 is representable; such a frame has eight data bytes. -/
structure Frame where
  id   : Ident
  len  : BitVec 4
  data : List Byte
  deriving DecidableEq, Repr

/-- A frame as the bus adapter presents it: eight byte lanes, of which the ones at index `len` and above
are indeterminate (30_encoding.md R80). `BusRead` keeps none of those (Machine/Ops.lean). -/
structure BusFrame where
  id    : Ident
  len   : BitVec 4
  lanes : Vector Byte 8
  deriving DecidableEq, Repr

/-- A message handed to the sink: `Deliver(address, bytes, len)` (60_exceptions.md R276). -/
structure Message where
  address : Ident
  bytes   : List Byte
  len     : Nat
  deriving DecidableEq, Repr

/-- The ten values of the `state` register (10_state.md R21). -/
inductive SeqState where
  | disabled
  | idle
  | checkRead
  | read
  | parseWhich
  | checkSend
  | sendSingle
  | sendFirst
  | sendConsecutive
  | checkCollision
  deriving DecidableEq, Repr

end Sys2Proof
end

