-- ==== Sys2Proof/Config.lean ====
section
/-! DEFINITION. The implementation parameters P0 to P6 of one engine instance (00_scope.md R5,
10_state.md R42, R43). They are constants that no operation writes. `State` holds one `Params` value
read-only, so that a claim over all states is a claim over all parameters. -/

namespace Sys2Proof

/-- The parameters of 00_scope.md R5. Times are in milliseconds. -/
structure Params where
  /-- P0: size in bytes of each payload buffer. -/
  maxBuffer    : Nat
  /-- P1: longest time in one non-idle state. OPEN in the spec (92_eei_decisions.md D3). -/
  stateTimeout : Nat
  /-- P2: used only by the host's blocking send (47_host_commands.md R247). -/
  sendTimeout  : Nat
  /-- P3: delay between two frames of one transfer. -/
  waitTime     : Nat
  /-- P4: delay before a yielded transfer restarts. -/
  holdoffDelay : Nat
  /-- P5: right-hand side of the collision comparison. -/
  ownAddress   : Ident
  /-- P6: width W in bits of the millisecond clock and of `timer`. -/
  clockWidth   : Nat
  deriving DecidableEq, Repr

/-- The constraints of 00_scope.md R5 and 70_reset_and_hazards.md R301 (1). Outside them the rules are
not claimed to hold (93_implementation_defined.md I9). -/
abbrev Params.Wf (p : Params) : Prop :=
  (64 ≤ p.maxBuffer ∧ p.maxBuffer ≤ 4095) ∧
  (1 ≤ p.stateTimeout ∧ p.stateTimeout < 2 ^ p.clockWidth) ∧
  p.waitTime ≤ p.stateTimeout ∧
  p.holdoffDelay < 2 ^ p.clockWidth ∧
  8 ≤ p.clockWidth

/-- The values the spec's own vectors use (95_test_vectors.md, opening; SEND_TIMEOUT from R5).
DESIGN CHOICE, unsafe if a claim leans on one of them: log entry 2. -/
def Params.vectors : Params where
  maxBuffer    := 64
  stateTimeout := 100
  sendTimeout  := 5000
  waitTime     := 20
  holdoffDelay := 20
  ownAddress   := 0x300
  clockWidth   := 32

end Sys2Proof
end

