-- ==== Sys2Proof/Syntax.lean ====
section
/-! DEFINITION. The operations of the engine, one constructor per row of spec/opcode_table.json
(30_encoding.md R94, 00_scope.md R9): the six PCI rows (what the receive path does with one frame of a
class), the three CMD rows (host commands), the ten STATE rows (the work one TICK does in a state). -/

namespace Sys2Proof

/-- The instruction set. A PCI constructor holds the frame's identifier word, the bits of the PCI byte
that the row leaves free, and the bytes that follow the PCI byte (`data[1..len-1]`). -/
inductive Instr where
  /-- Single frame: tag 0, `size` in the low nibble (30_encoding.md R82). -/
  | sf (id : Ident) (size : BitVec 4) (body : List Byte)
  /-- First frame: tag 1, `size[11:8]` in the low nibble, `size[7:0]` the first body byte (R83). -/
  | ff (id : Ident) (sizeHi : BitVec 4) (body : List Byte)
  /-- Consecutive frame: tag 2, sequence index in the low nibble (R84). -/
  | cf (id : Ident) (index : BitVec 4) (body : List Byte)
  /-- Flow-control frame: tag 3, flag in the low nibble; nothing of it is interpreted (R85). -/
  | fc (id : Ident) (flag : BitVec 4) (body : List Byte)
  /-- Unknown tags 4 to 7: bits 7:6 of the PCI byte are 01 (R88). -/
  | unk47 (id : Ident) (low : BitVec 6) (body : List Byte)
  /-- Unknown tags 8 to 15: bit 7 of the PCI byte is 1 (R88). -/
  | unk815 (id : Ident) (low : BitVec 7) (body : List Byte)
  /-- Host command 0 (47_host_commands.md R241). -/
  | begin
  /-- Host command 1 with its clock sample (R242). -/
  | tick (now : Nat)
  /-- Host command 2 (R243 to R245); `bytes = none` is the spec's *null*. -/
  | send (now : Nat) (addr : Ident) (len : Nat) (bytes : Option (List Byte))
  /-- The steps of the ten states (44_state_machine.md R180). -/
  | disabled
  | idle
  | checkRead
  | read
  | parseWhich
  | checkSend
  | sendSingle
  | sendFirst
  | sendConsecutive
  | checkCollision
  deriving DecidableEq, Repr

end Sys2Proof
end

