-- ==== Sys2Proof/WellFormed.lean ====
section
/-! DEFINITION. Which instruction terms an encoding exists for: a frame has at most eight data bytes, so
at most seven follow the PCI byte (30_encoding.md R80), and the bytes of a SEND number exactly `len`
(47_host_commands.md R243). -/

namespace Sys2Proof

/-- At most seven bytes follow the PCI byte of a frame (00_scope.md R6, 30_encoding.md R80). -/
def bodyFits (body : List Byte) : Bool := decide (body.length ≤ 7)

/-- `bytes` is "a sequence of `len` bytes, or null" (47_host_commands.md R243). -/
def bytesMatch (len : Nat) : Option (List Byte) → Bool
  | none    => true
  | some bs => decide (bs.length = len)

/-- The instruction is one an encoding exists for. -/
def Instr.wellFormed : Instr → Bool
  | .sf _ _ body          => bodyFits body
  | .ff _ _ body          => bodyFits body
  | .cf _ _ body          => bodyFits body
  | .fc _ _ body          => bodyFits body
  | .unk47 _ _ body       => bodyFits body
  | .unk815 _ _ body      => bodyFits body
  | .begin                => true
  | .tick _               => true
  | .send _ _ len bytes   => bytesMatch len bytes
  | .disabled             => true
  | .idle                 => true
  | .checkRead            => true
  | .read                 => true
  | .parseWhich           => true
  | .checkSend            => true
  | .sendSingle           => true
  | .sendFirst            => true
  | .sendConsecutive      => true
  | .checkCollision       => true

end Sys2Proof
end

