-- ==== Sys2Proof/Decode.lean ====
section
/-! DEFINITION. The decoder, total on any code and rejecting by name, and after it the encoder
(30_encoding.md R80 to R91, R94; 41_frame_codec.md R120, R121). Three formats, each a place of its own:
the bytes of a received frame (PCI), the host's command port (CMD), the `state` register (STATE). The
spec gives a byte layout to frames only; the command port stays a record of number and operands (DESIGN
CHOICE, safe: log entry 8). -/

namespace Sys2Proof

/-- One transfer on the command port: the 2-bit command number and the operands of 30_encoding.md R91. A
command that has no such operand ignores it. `bytes = none` is *null*. -/
structure CmdWord where
  number : BitVec 2
  now    : Nat
  addr   : Ident
  len    : Nat
  bytes  : Option (List Byte)
  deriving DecidableEq, Repr

/-- What a decoder reads: one code of one of the three formats of spec/opcode_table.json. -/
inductive Code where
  | pci (f : Frame)
  | cmd (w : CmdWord)
  | stateReg (n : BitVec 4)
  deriving DecidableEq, Repr

/-- Why a code is no instruction. -/
inductive Reject where
  /-- A frame with `len` 0 or above 8: no byte of it is looked at (41_frame_codec.md R121). -/
  | inadmissibleLength
  /-- A frame record that does not list exactly the bytes `len` says hold a value (00_scope.md R19). -/
  | bytesWithoutValue
  /-- Command number 3, never issued (30_encoding.md R91). -/
  | reservedCommand
  /-- A SEND whose byte sequence is not `len` bytes long (47_host_commands.md R243). -/
  | lengthMismatch
  /-- State values 10 to 15, never written (10_state.md R21). -/
  | reservedState
  deriving DecidableEq, Repr

/-! ## Fields -/

/-- The class tag, bits 7:4 of the PCI byte: `classify` (41_frame_codec.md R120, 30_encoding.md R81). -/
def classify (b : Byte) : BitVec 4 := b.extractLsb' 4 4

/-- Bits 3:0 of the PCI byte (30_encoding.md R81). -/
def lowNibble (b : Byte) : BitVec 4 := b.extractLsb' 0 4

/-- The PCI byte from its tag and its class-specific field (30_encoding.md R81, R86). -/
def pciByte (tag lo : BitVec 4) : Byte := tag ++ lo

/-- `admissible(f)`: `1 <= len <= 8` (41_frame_codec.md R121). -/
def Frame.admissible (f : Frame) : Bool := decide (1 ≤ f.len.toNat) && decide (f.len.toNat ≤ 8)

/-- The record lists exactly the bytes that hold a value (10_state.md R40, 00_scope.md R19): `len` of
them, and eight for the out-of-range lengths 9 to 15. -/
def Frame.wf (f : Frame) : Bool := decide (f.data.length = min f.len.toNat 8)

/-- The number of a state in the 4-bit register (10_state.md R21). -/
def SeqState.number : SeqState → BitVec 4
  | .disabled        => 0
  | .idle            => 1
  | .checkRead       => 2
  | .read            => 3
  | .parseWhich      => 4
  | .checkSend       => 5
  | .sendSingle      => 6
  | .sendFirst       => 7
  | .sendConsecutive => 8
  | .checkCollision  => 9

/-- The STATE row that a TICK executes in a state (44_state_machine.md R180). -/
def SeqState.instr : SeqState → Instr
  | .disabled        => .disabled
  | .idle            => .idle
  | .checkRead       => .checkRead
  | .read            => .read
  | .parseWhich      => .parseWhich
  | .checkSend       => .checkSend
  | .sendSingle      => .sendSingle
  | .sendFirst       => .sendFirst
  | .sendConsecutive => .sendConsecutive
  | .checkCollision  => .checkCollision

/-! ## The three decoders -/

/-- The class of a frame, from the PCI byte and the bytes after it (30_encoding.md R87). -/
def decodeClass (id : Ident) (b : Byte) (body : List Byte) : Instr :=
  match (classify b).toNat with
  | 0 => .sf id (lowNibble b) body
  | 1 => .ff id (lowNibble b) body
  | 2 => .cf id (lowNibble b) body
  | 3 => .fc id (lowNibble b) body
  | t => if t < 8 then .unk47 id (b.extractLsb' 0 6) body else .unk815 id (b.extractLsb' 0 7) body

/-- The PCI rows: a received frame (30_encoding.md R87, R90; 41_frame_codec.md R121). The length is the
`len` field the adapter returned; it is never computed from the contents. -/
def decodeFrame (f : Frame) : Except Reject Instr :=
  if !f.admissible then .error .inadmissibleLength
  else if !f.wf then .error .bytesWithoutValue
  else match f.data with
    | []        => .error .bytesWithoutValue
    | b :: body => .ok (decodeClass f.id b body)

/-- The CMD rows: the command port (30_encoding.md R91). -/
def decodeCmd (w : CmdWord) : Except Reject Instr :=
  match w.number.toNat with
  | 0 => .ok .begin
  | 1 => .ok (.tick w.now)
  | 2 => if bytesMatch w.len w.bytes then .ok (.send w.now w.addr w.len w.bytes) else .error .lengthMismatch
  | _ => .error .reservedCommand

/-- The ten legal values of the state register (10_state.md R21). -/
def SeqState.ofNumber (n : BitVec 4) : Option SeqState :=
  match n.toNat with
  | 0 => some .disabled
  | 1 => some .idle
  | 2 => some .checkRead
  | 3 => some .read
  | 4 => some .parseWhich
  | 5 => some .checkSend
  | 6 => some .sendSingle
  | 7 => some .sendFirst
  | 8 => some .sendConsecutive
  | 9 => some .checkCollision
  | _ => none

/-- The STATE rows: the `state` register (10_state.md R21, 30_encoding.md R94). -/
def decodeState (n : BitVec 4) : Except Reject Instr :=
  match SeqState.ofNumber n with
  | some st => .ok st.instr
  | none    => .error .reservedState

/-- The decoder, total on any code. -/
def decode : Code → Except Reject Instr
  | .pci f      => decodeFrame f
  | .cmd w      => decodeCmd w
  | .stateReg n => decodeState n

/-! ## The encoder -/

/-- A frame from its PCI byte and the bytes after it; `len` counts them (30_encoding.md R90). -/
def frameOf (id : Ident) (b : Byte) (body : List Byte) : Frame :=
  { id := id, len := BitVec.ofNat 4 (1 + body.length), data := b :: body }

/-- The code of an instruction: frames from 30_encoding.md R82 to R88, command numbers from R91, state
numbers from 10_state.md R21. -/
def encode : Instr → Code
  | .sf id size body        => .pci (frameOf id (pciByte 0x0 size) body)
  | .ff id sizeHi body      => .pci (frameOf id (pciByte 0x1 sizeHi) body)
  | .cf id index body       => .pci (frameOf id (pciByte 0x2 index) body)
  | .fc id flag body        => .pci (frameOf id (pciByte 0x3 flag) body)
  | .unk47 id low body      => .pci (frameOf id ((0b01#2 ++ low : Byte)) body)
  | .unk815 id low body     => .pci (frameOf id ((0b1#1 ++ low : Byte)) body)
  | .begin                  => .cmd { number := 0, now := 0, addr := 0, len := 0, bytes := none }
  | .tick now               => .cmd { number := 1, now := now, addr := 0, len := 0, bytes := none }
  | .send now addr len bs   => .cmd { number := 2, now := now, addr := addr, len := len, bytes := bs }
  | .disabled               => .stateReg SeqState.disabled.number
  | .idle                   => .stateReg SeqState.idle.number
  | .checkRead              => .stateReg SeqState.checkRead.number
  | .read                   => .stateReg SeqState.read.number
  | .parseWhich             => .stateReg SeqState.parseWhich.number
  | .checkSend              => .stateReg SeqState.checkSend.number
  | .sendSingle             => .stateReg SeqState.sendSingle.number
  | .sendFirst              => .stateReg SeqState.sendFirst.number
  | .sendConsecutive        => .stateReg SeqState.sendConsecutive.number
  | .checkCollision         => .stateReg SeqState.checkCollision.number

/-! ## Words of the opcode table -/

/-- Byte `i` of a word whose bits are numbered from the first byte's least significant bit. -/
def wordByte (w i : Nat) : Byte := BitVec.ofNat 8 (w >>> (8 * i))

/-- The frame whose eight data bytes are the word, the longest a frame can be (30_encoding.md R80). -/
def wordFrame (w : Nat) : Frame :=
  { id := 0, len := 8, data := [wordByte w 0, wordByte w 1, wordByte w 2, wordByte w 3,
                                wordByte w 4, wordByte w 5, wordByte w 6, wordByte w 7] }

/-- The command of a table word: every operand is zero, a SEND has no bytes. -/
def wordCmd (w : Nat) : CmdWord :=
  { number := BitVec.ofNat 2 w, now := 0, addr := 0, len := 0, bytes := some [] }

/-- The code a table word stands for. The table numbers its three formats separately and the word does
not say which one it is of: a word of at most 2 bits is a command, of 3 or 4 bits a state; a byte-sized
word whose high nibble is set can only be a PCI byte, and below that 0 to 2 are read as the command
numbers and 3 to 9 as the state numbers. DESIGN CHOICE, log entry 8. -/
def tableCode (nbits w : Nat) : Code :=
  if nbits ≤ 2 then .cmd (wordCmd w)
  else if nbits ≤ 4 then .stateReg (BitVec.ofNat 4 w)
  else if nbits ≤ 8 ∧ w ≤ 2 then .cmd (wordCmd w)
  else if nbits ≤ 8 ∧ w ≤ 9 then .stateReg (BitVec.ofNat 4 w)
  else .pci (wordFrame w)

/-- The instruction the decoder reads from a table word, if it accepts it. -/
def decodeTableWord (nbits w : Nat) : Option Instr :=
  match decode (tableCode nbits w) with
  | .ok i    => some i
  | .error _ => none

end Sys2Proof
end

