-- ==== Sys2Proof/Machine/State.lean ====
section
/-! DEFINITION. The state of one engine instance (10_state.md R20), the environment's inputs and the
command outputs that the model carries beside it (00_scope.md R8), the reasons a step can stop, and the
state after reset (10_state.md R46). -/

namespace Sys2Proof.Machine

/-- A payload buffer: offset and byte pairs with strictly rising offsets; an offset that is not listed
holds no value (20_memory.md R60, 10_state.md R46; log entry 5). -/
abbrev Memory := List Host.Cell

/-- What an unlisted offset reads as: no value (10_state.md R46, 93_implementation_defined.md I8). -/
def Memory.unlisted : Option Byte := none

/-- The canonical form: strictly rising offsets. (No entry can equal what an unlisted offset reads as,
since an unlisted offset has no value.) -/
def Memory.wf : Memory → Bool
  | []          => true
  | (a, _) :: m => m.all (fun c => decide (a < c.1)) && Memory.wf m

/-- One transfer: the RX group S2 to S5 and M0, or the TX group S6 to S9 and M1 (10_state.md R23 to R32). -/
structure Transfer where
  address  : Ident
  size     : BitVec 12
  position : BitVec 12
  counter  : BitVec 4
  payload  : Memory
  deriving DecidableEq, Repr

/-- The holdoff pair S13, S14 (10_state.md R33). -/
structure Holdoff where
  active : Bool
  start  : Nat
  deriving DecidableEq, Repr

/-- The thirteen event codes (60_exceptions.md R260). -/
inductive Event where
  | none
  | invalidArgument
  | busy
  | busSendFail
  | busReadFail
  | timeout
  | frameDropped
  | msgDelivered
  | txComplete
  | collisionWin
  | collisionYield
  | readRetry
  | sendAccepted
  deriving DecidableEq, Repr

/-- The six error kinds (60_exceptions.md R261 to R266). -/
inductive ErrorKind where
  | invalidArgument
  | busy
  | busSendFail
  | busReadFail
  | timeout
  | malformedFrame
  deriving DecidableEq, Repr

/-- The environment's answers to the three hooks for one command (00_scope.md R8, R17): `read = none` is
`err`. An answer to a hook the command does not call is never looked at. -/
structure Answers where
  avail  : Bool
  read   : Option BusFrame
  sendOk : Bool
  deriving DecidableEq, Repr

/-- The inputs of the current command: its clock sample and the hook answers (log entry 1). -/
structure Inputs where
  now     : Nat
  answers : Answers
  deriving DecidableEq, Repr

/-- A host command that waits to be issued, with the environment's answers for it (log entry 1). -/
structure HostRequest where
  word    : CmdWord
  answers : Answers
  deriving DecidableEq, Repr

/-- What one command puts out (00_scope.md R8): its event code, the frames handed to `BusSend`, the
messages handed to the sink, and how often `BusAvailable` and `BusRead` were called (log entry 6). -/
structure Outputs where
  event      : Event
  sent       : List Frame
  delivered  : List Message
  availCalls : Nat
  readCalls  : Nat
  deriving DecidableEq, Repr

/-- No output: `EV_NONE`, no frame, no message, no hook called. -/
def Outputs.quiet : Outputs :=
  { event := .none, sent := [], delivered := [], availCalls := 0, readCalls := 0 }

/-- The complete state. `cfg` to `hold` are the spec's (10_state.md R20, R43); `inp`, `host` and `out`
are the model's own (inputs, environment and outputs by 10_state.md R44 and 60_exceptions.md R260). -/
structure State where
  /-- P0 to P6, read-only. -/
  cfg   : Params
  /-- S0, the engine's program counter (00_scope.md R9). -/
  state : SeqState
  /-- S1, a CLOCK_WIDTH-bit value (log entry 3). -/
  timer : Nat
  /-- S2 to S5 and M0. -/
  rx    : Transfer
  /-- S6 to S9 and M1. -/
  tx    : Transfer
  /-- S10 to S12. -/
  rxf   : Frame
  /-- S13, S14. -/
  hold  : Holdoff
  /-- The current command's inputs. -/
  inp   : Inputs
  /-- The host's commands still to be issued, first one next. -/
  host  : List HostRequest
  /-- What the last command put out. -/
  out   : Outputs
  deriving DecidableEq, Repr

/-- Why the machine stops. Every one is a case the spec gives no meaning and says does not occur; each is
SAFE: where the model stops, no claim about a next state holds of it. -/
inductive Fault where
  /-- A payload byte that no rule has written is read, by a frame builder or by a delivery
  (10_state.md R46, 93_implementation_defined.md I8: "`fault` if a model ever reads one before it is
  written"). Raised by SendSingle, SendFirst, SendConsecutive, CF. Safe. -/
  | unwrittenByte
  /-- `MemRead` or `MemWrite` outside `0..MAX_BUFFER-1` (20_memory.md R66: "A model need not give an
  out-of-bounds access a meaning; none occurs"). Raised by FF, CF, SEND and the three send states. Safe. -/
  | bufferBounds
  /-- A consecutive frame with a reassembly whose position is not below its size: the caller of
  `decode_consecutive` guarantees that a byte remains (41_frame_codec.md R124). Raised by CF. Safe. -/
  | nothingRemains
  /-- `rxf` does not list the bytes its `len` says hold a value, and one of them is looked at
  (00_scope.md R19). Raised by ParseWhich. Safe. -/
  | byteWithoutValue
  deriving DecidableEq, Repr

/-- Why the machine does not run a command. -/
inductive Refusal where
  /-- An instruction that has no meaning yet: raised by exec's refused arms only. Safe. -/
  | notModelled (mnemonic : String)
  /-- Command number 3, never issued (30_encoding.md R91; 93_implementation_defined.md I7: `refuse`).
  Raised by step when the command decoder rejects the word. Safe. -/
  | reservedCommand
  /-- A SEND whose byte sequence is not `len` bytes long, which no host command is (47_host_commands.md
  R243). Raised by step when the command decoder rejects the word. Safe. -/
  | lengthMismatch
  deriving DecidableEq, Repr

/-- An idle transfer with no address and an unwritten buffer (10_state.md R46; the address is 0 by log
entry 4). -/
def Transfer.atReset : Transfer :=
  { address := 0, size := 0, position := 0, counter := 0, payload := [] }

/-- Hook answers before any command: nothing available, a failed read, a failed send (log entry 1). -/
def Answers.none : Answers := { avail := false, read := Option.none, sendOk := false }

/-- The state after reset of an instance with parameters `p` (10_state.md R46, 70_reset_and_hazards.md
R300). The registers the spec leaves unspecified are 0 (log entry 4, unsafe); the buffers hold no byte. -/
def State.resetWith (p : Params) : State :=
  { cfg   := p
    state := .disabled
    timer := 0
    rx    := Transfer.atReset
    tx    := Transfer.atReset
    rxf   := { id := 0, len := 0, data := [] }
    hold  := { active := false, start := 0 }
    inp   := { now := 0, answers := Answers.none }
    host  := []
    out   := Outputs.quiet }

/-- The machine right after reset, with the parameters of the spec's vectors (log entry 2). -/
def State.reset : State := State.resetWith Params.vectors

end Sys2Proof.Machine
end

