-- ==== Sys2Proof/Machine/Ops.lean ====
section
/-! DEFINITION. The named operations over registers, buffers and ports that the meanings share:
`MemRead` and `MemWrite` (00_scope.md R15), `Enter` (40_clock_timer.md R103), `ClearRX`, `ClearTX`,
`RewindTX`, the hooks and the sink (00_scope.md R17), and taking an error, the engine's exception entry
(60_exceptions.md R260, R270). There is no return from an exception to model (60_exceptions.md R271:
"There is no return operation and nothing to restore"). -/

namespace Sys2Proof.Machine

/-! ## Payload buffers -/

/-- One byte of a buffer, or what an unlisted offset reads as. -/
def Memory.read : Memory → Nat → Option Byte
  | [], _          => Memory.unlisted
  | (k, b) :: m, a => if k = a then some b else Memory.read m a

/-- Write one byte, keeping the offsets strictly rising. -/
def Memory.write : Memory → Nat → Byte → Memory
  | [], a, b          => [(a, b)]
  | (k, c) :: m, a, b =>
    if a < k then (a, b) :: (k, c) :: m
    else if a = k then (a, b) :: m
    else (k, c) :: Memory.write m a b

/-- The `n` bytes from offset `off`, lowest first; none if one of them holds no value. -/
def Memory.readN (m : Memory) (off : Nat) : Nat → Option (List Byte)
  | 0     => some []
  | n + 1 =>
    match Memory.read m off with
    | none   => none
    | some b =>
      match Memory.readN m (off + 1) n with
      | none    => none
      | some bs => some (b :: bs)

/-- Write a byte sequence from offset `off`, first byte first. -/
def Memory.writeN (m : Memory) (off : Nat) : List Byte → Memory
  | []      => m
  | b :: bs => Memory.writeN (Memory.write m off b) (off + 1) bs

/-- `MemRead(B, off, n)` (00_scope.md R15); the bound is R66's of 20_memory.md. -/
def memRead (maxBuffer : Nat) (m : Memory) (off n : Nat) : Except Fault (List Byte) :=
  if off + n ≤ maxBuffer then
    match Memory.readN m off n with
    | some bs => .ok bs
    | none    => .error .unwrittenByte
  else .error .bufferBounds

/-- `MemWrite(B, off, n, v)` with `n` the length of `v` (00_scope.md R15, 20_memory.md R66). -/
def memWrite (maxBuffer : Nat) (m : Memory) (off : Nat) (v : List Byte) : Except Fault Memory :=
  if off + v.length ≤ maxBuffer then .ok (Memory.writeN m off v) else .error .bufferBounds

/-! ## Clock -/

/-- A clock sample: the low CLOCK_WIDTH bits of what the clock port carries (40_clock_timer.md R100,
R101; log entry 3). -/
def Params.sample (p : Params) (t : Nat) : Nat := t % 2 ^ p.clockWidth

/-- `(now - t) mod 2^CLOCK_WIDTH` for a CLOCK_WIDTH-bit `t` (40_clock_timer.md R102). -/
def Params.elapsed (p : Params) (now t : Nat) : Nat :=
  (now + 2 ^ p.clockWidth - t % 2 ^ p.clockWidth) % 2 ^ p.clockWidth

/-- The clock sample of the current command. -/
def State.now (s : State) : Nat := s.inp.now

/-- Take the command's clock sample; every later use of `now` in it sees this value (R101). -/
def State.sampleClock (s : State) (t : Nat) : State :=
  { s with inp := { s.inp with now := Params.sample s.cfg t } }

/-! ## Outputs -/

/-- A command starts with nothing put out: its event is `EV_NONE` unless it raises another
(44_state_machine.md R180, 60_exceptions.md R260). -/
def State.fresh (s : State) : State := { s with out := Outputs.quiet }

/-- `raise E` (00_scope.md R16): the event output, and no register. -/
def State.raise (s : State) (e : Event) : State := { s with out := { s.out with event := e } }

/-- `Deliver(address, bytes, len)` (42_rx_reassembly.md R150). -/
def State.deliver (s : State) (address : Ident) (bytes : List Byte) (len : Nat) : State :=
  { s with out := { s.out with
      delivered := s.out.delivered ++ [{ address := address, bytes := bytes, len := len }] } }

/-! ## The state register and its timer -/

/-- `Enter(S)` (40_clock_timer.md R103): the timer is 0 in `Idle` and the sample elsewhere. -/
def State.enter (s : State) (t : SeqState) : State :=
  { s with state := t, timer := if t = .idle then 0 else s.now }

/-! ## Transfers -/

/-- `size`, `position`, `counter <- 0`; address and payload stay (92_eei_decisions.md D12). -/
def Transfer.clear (t : Transfer) : Transfer := { t with size := 0, position := 0, counter := 0 }

/-- `position <- 0`, `counter <- 1` (43_tx_segmentation.md R166). -/
def Transfer.rewind (t : Transfer) : Transfer := { t with position := 0, counter := 1 }

/-- Write the registers of the inbound transfer (10_state.md R23 to R27). -/
def State.setRx (s : State) (t : Transfer) : State := { s with rx := t }

/-- Write the registers of the outbound transfer (10_state.md R28 to R32). -/
def State.setTx (s : State) (t : Transfer) : State := { s with tx := t }

/-- `ClearRX` (42_rx_reassembly.md R147). -/
def State.clearRx (s : State) : State := s.setRx s.rx.clear

/-- `ClearTX` (43_tx_segmentation.md R167). -/
def State.clearTx (s : State) : State := s.setTx s.tx.clear

/-- `RewindTX` (43_tx_segmentation.md R166). -/
def State.rewindTx (s : State) : State := s.setTx s.tx.rewind

/-! ## The bus port -/

/-- `BusAvailable()`: the environment's answer (60_exceptions.md R275). -/
def State.busAvailable (s : State) : Bool := s.inp.answers.avail

/-- The state after one call of `BusAvailable`: it consumes nothing (20_memory.md R67). -/
def State.askedAvailable (s : State) : State :=
  { s with out := { s.out with availCalls := s.out.availCalls + 1 } }

/-- What a successful read puts into a frame register: `id`, `len` and the lanes below `len`; the other
lanes have no value and are dropped (20_memory.md R71, 00_scope.md R19; log entry 7). -/
def BusFrame.captured (f : BusFrame) : Frame :=
  { id := f.id, len := f.len, data := f.lanes.toList.take f.len.toNat }

/-- `BusRead()`: the environment's answer, none for `err` (60_exceptions.md R275). -/
def State.busRead (s : State) : Option Frame :=
  match s.inp.answers.read with
  | some f => some (BusFrame.captured f)
  | none   => none

/-- The state after one call of `BusRead`; the frame it consumes is the environment's. -/
def State.askedRead (s : State) : State :=
  { s with out := { s.out with readCalls := s.out.readCalls + 1 } }

/-- A successful read writes all of `rxf`, and `rx.address` (10_state.md R23, R40). -/
def State.capture (s : State) (f : Frame) : State :=
  { s with rxf := f, rx := { s.rx with address := f.id } }

/-- Hand a frame to `BusSend`, whatever the answer (43_tx_segmentation.md R161). -/
def State.busSend (s : State) (f : Frame) : State :=
  { s with out := { s.out with sent := s.out.sent ++ [f] } }

/-- The answer of `BusSend`: true for `ok` (60_exceptions.md R275). -/
def State.busSendOk (s : State) : Bool := s.inp.answers.sendOk

/-! ## Holdoff -/

/-- `hold.active <- 1; hold.start <- now` (10_state.md R33, 45_collision.md R212). -/
def State.armHold (s : State) : State := { s with hold := { active := true, start := s.now } }

/-- `hold.active <- 0` (10_state.md R33). -/
def State.disarmHold (s : State) : State := { s with hold := { s.hold with active := false } }

/-! ## Events and errors -/

/-- The number of an event (60_exceptions.md R260). -/
def Event.code : Event → Nat
  | .none            => 0
  | .invalidArgument => 1
  | .busy            => 2
  | .busSendFail     => 3
  | .busReadFail     => 4
  | .timeout         => 5
  | .frameDropped    => 6
  | .msgDelivered    => 7
  | .txComplete      => 8
  | .collisionWin    => 9
  | .collisionYield  => 10
  | .readRetry       => 11
  | .sendAccepted    => 12

/-- The event that reports an error kind (60_exceptions.md R260). -/
def ErrorKind.event : ErrorKind → Event
  | .invalidArgument => .invalidArgument
  | .busy            => .busy
  | .busSendFail     => .busSendFail
  | .busReadFail     => .busReadFail
  | .timeout         => .timeout
  | .malformedFrame  => .frameDropped

/-- The error kinds that discard the inbound transfer (60_exceptions.md R260, R267). -/
def ErrorKind.endsRx : ErrorKind → Bool
  | .busReadFail | .timeout => true
  | .invalidArgument | .busy | .busSendFail | .malformedFrame => false

/-- The error kinds that discard the outbound transfer (60_exceptions.md R260, R267). -/
def ErrorKind.endsTx : ErrorKind → Bool
  | .busSendFail | .busReadFail | .timeout => true
  | .invalidArgument | .busy | .malformedFrame => false

/-- Where an error sends the machine: the abort to `Idle`, `CheckRead` for a dropped frame, nowhere for a
refused SEND (60_exceptions.md R260, R270). -/
def ErrorKind.target : ErrorKind → Option SeqState
  | .busSendFail | .busReadFail | .timeout => some .idle
  | .malformedFrame                        => some .checkRead
  | .invalidArgument | .busy               => none

/-- Taking an error, the engine's exception entry: clear what the kind ends, report it once, enter its
state. Nothing is saved (60_exceptions.md R260, R270). -/
def State.takeError (s : State) (k : ErrorKind) : State :=
  let s1 := if k.endsRx then s.clearRx else s
  let s2 := if k.endsTx then s1.clearTx else s1
  let s3 := s2.raise k.event
  match k.target with
  | some t => s3.enter t
  | none   => s3

end Sys2Proof.Machine
end

