-- ==== Sys2Proof/Machine/Flags.lean ====
section
/-! DEFINITION. The predicates over the state (10_state.md R34), the two pacing gates (40_clock_timer.md
R108, R109), the two prologue tests (R104, R105) and the collision comparator (45_collision.md R210). The
block has no condition-code register: each is a pure function of registers and parameters. -/

namespace Sys2Proof.Machine

/-- `rx_active`: a multi-frame reassembly is in progress (10_state.md R34). -/
def State.rxActive (s : State) : Bool := decide (0 < s.rx.size.toNat)

/-- `tx_pending` (10_state.md R34). -/
def State.txPending (s : State) : Bool := decide (0 < s.tx.size.toNat)

/-- `tx_in_flight`: something of the pending transfer was already sent (10_state.md R34). -/
def State.txInFlight (s : State) : Bool :=
  decide (0 < s.tx.size.toNat) && decide (0 < s.tx.position.toNat)

/-- `hold_ok`, the holdoff gate (40_clock_timer.md R108). -/
def State.holdOk (s : State) : Bool :=
  !s.hold.active || decide (s.cfg.holdoffDelay ≤ Params.elapsed s.cfg s.now s.hold.start)

/-- `wait_ok`, the inter-frame gate (40_clock_timer.md R109). -/
def State.waitOk (s : State) : Bool :=
  decide (s.cfg.waitTime ≤ Params.elapsed s.cfg s.now s.timer)

/-- `we_win`: the whole 32-bit words, unsigned (45_collision.md R210, R211). -/
def State.weWin (s : State) : Bool := decide (s.cfg.ownAddress.toNat < s.rx.address.toNat)

/-- The clock has wrapped: `timer > now` (40_clock_timer.md R104). -/
def State.clockWrapped (s : State) : Bool := decide (s.now < s.timer)

/-- The wraparound handler: `timer <- now` (40_clock_timer.md R104). -/
def State.wrapHandler (s : State) : State :=
  if s.clockWrapped then { s with timer := s.now } else s

/-- The state timeout is due; the sum is not truncated (40_clock_timer.md R105, R106). -/
def State.timedOut (s : State) : Bool :=
  decide (0 < s.timer) && decide (s.timer + s.cfg.stateTimeout < s.now)

/-- A frame counts as a collision in `CheckCollision`: admissible, and tag 1 or 2 whatever its size and
length fields (45_collision.md R214). -/
def Frame.collides (f : Frame) : Bool :=
  f.admissible &&
    match f.data with
    | []     => false
    | b :: _ => decide ((classify b).toNat = 1) || decide ((classify b).toNat = 2)

/-- The 4-bit sequence counter counts modulo 16 (40_clock_timer.md R111). -/
def nextCounter (c : BitVec 4) : BitVec 4 := c + 1

end Sys2Proof.Machine
end

