-- ==== Sys2Proof/Machine/Operands.lean ====
section
/-! DEFINITION. The frame codec: the checks a decoder makes on the fields of a class, the decoders on
whole frames, and the three encoders (41_frame_codec.md R122 to R128, 30_encoding.md R82 to R86). Pure
functions: none touches the state (R130). -/

namespace Sys2Proof.Machine

/-! ## Decoders, on the fields of a class

`body` is `data[1..len-1]`, so `body.length` is the spec's `f.len - 1`. -/

/-- `decode_single`: valid iff `1 <= size <= 7` and `size = len - 1`; the message is the body
(41_frame_codec.md R122). -/
def singleFields (size : BitVec 4) (body : List Byte) : Option (List Byte) :=
  if 1 ≤ size.toNat ∧ size.toNat ≤ 7 ∧ size.toNat = body.length then some (body.take size.toNat) else none

/-- The 12-bit size of a first frame, big-endian over the low nibble and the next byte
(20_memory.md R63, 30_encoding.md R86). -/
def firstSize (sizeHi : BitVec 4) (sizeLo : Byte) : BitVec 12 := sizeHi ++ sizeLo

/-- `decode_first`: `len` is 8 and the size is 8 to 4095 and fits the buffer; exactly six bytes
(41_frame_codec.md R123). -/
def firstFields (maxBuffer : Nat) (sizeHi : BitVec 4) (body : List Byte) :
    Option (BitVec 12 × List Byte) :=
  if body.length = 7 then
    match body with
    | []             => none
    | sizeLo :: rest =>
      let size := firstSize sizeHi sizeLo
      if 8 ≤ size.toNat ∧ size.toNat ≤ 4095 ∧ size.toNat ≤ maxBuffer then some (size, rest) else none
  else none

/-- The bytes a consecutive frame must carry: `min(7, remaining)` (41_frame_codec.md R124). -/
def chunkLength (remaining : Nat) : Nat := min 7 remaining

/-- `decode_consecutive`: at least `n` bytes follow the PCI byte, the first `n` count, a surplus is
ignored; the index is returned and used by nobody (41_frame_codec.md R124). -/
def consecutiveFields (remaining : Nat) (index : BitVec 4) (body : List Byte) :
    Option (BitVec 4 × List Byte) :=
  if body.length < chunkLength remaining then none
  else some (index, body.take (chunkLength remaining))

/-! ## Decoders, on frames -/

/-- The class-specific field and the body of a frame. -/
def Frame.fields (f : Frame) : Option (BitVec 4 × List Byte) :=
  match f.data with
  | []        => none
  | b :: body => some (lowNibble b, body)

/-- `decode_single(f)` (41_frame_codec.md R122). -/
def decodeSingle (f : Frame) : Option (List Byte) :=
  match Frame.fields f with
  | none           => none
  | some (lo, body) => singleFields lo body

/-- `decode_first(f)` (41_frame_codec.md R123). -/
def decodeFirst (maxBuffer : Nat) (f : Frame) : Option (BitVec 12 × List Byte) :=
  match Frame.fields f with
  | none           => none
  | some (lo, body) => firstFields maxBuffer lo body

/-- `decode_consecutive(f, remaining)` (41_frame_codec.md R124). -/
def decodeConsecutive (f : Frame) (remaining : Nat) : Option (BitVec 4 × List Byte) :=
  match Frame.fields f with
  | none           => none
  | some (lo, body) => consecutiveFields remaining lo body

/-! ## Encoders

A built frame lists exactly its `len` bytes; the others have no value (41_frame_codec.md R132). -/

/-- `encode_single(addr, size, p)`, for `1 <= size <= 7` (41_frame_codec.md R126). -/
def encodeSingle (addr : Ident) (size : Nat) (p : List Byte) : Frame :=
  { id   := addr
    len  := BitVec.ofNat 4 (1 + size)
    data := pciByte 0x0 (BitVec.ofNat 4 size) :: p.take size }

/-- `encode_first(addr, size, p)`, for `8 <= size <= 4095` (41_frame_codec.md R127). -/
def encodeFirst (addr : Ident) (size : BitVec 12) (p : List Byte) : Frame :=
  { id   := addr
    len  := 8
    data := pciByte 0x1 (size.extractLsb' 8 4) :: size.extractLsb' 0 8 :: p.take 6 }

/-- `encode_consecutive(addr, counter, c, k)`, for `1 <= k <= 7` (41_frame_codec.md R128). -/
def encodeConsecutive (addr : Ident) (counter : BitVec 4) (c : List Byte) (k : Nat) : Frame :=
  { id   := addr
    len  := BitVec.ofNat 4 (1 + k)
    data := pciByte 0x2 counter :: c.take k }

/-- How many frames a message of `L` bytes takes (41_frame_codec.md R133): one up to 7 bytes, otherwise
`1 + ceil((L - 6) / 7)`. -/
def frameCount (L : Nat) : Nat := if L ≤ 7 then 1 else 1 + (L - 6 + 6) / 7

end Sys2Proof.Machine
end

