-- ==== Sys2Proof/Machine/Receive.lean ====
section
/-! DEFINITION. The PCI rows: what the receive path does with one frame of each class, and the state it
then enters (42_rx_reassembly.md R141 to R146; the `Enter` is the ParseWhich step's, 44_state_machine.md
R185). Each meaning starts with nothing put out (60_exceptions.md R260). -/

namespace Sys2Proof.Machine

/-- Drop a frame: no transfer register changes, `EV_FRAME_DROPPED`, to `CheckRead` (41_frame_codec.md
R129, 60_exceptions.md R266). -/
def dropFrame (s : State) : Host.Outcome State Fault Refusal := .next (s.takeError .malformedFrame)

/-- SF: `RxSingle` (42_rx_reassembly.md R142). The multi-frame buffer is not touched. -/
def execSf (id : Ident) (size : BitVec 4) (body : List Byte) (s : State) :
    Host.Outcome State Fault Refusal :=
  match singleFields size body with
  | none       => dropFrame s.fresh
  | some bytes => .next (((s.fresh.deliver id bytes size.toNat).raise .msgDelivered).enter .idle)

/-- The stash of a valid first frame: six bytes at offset 0, over whatever reassembly there was
(42_rx_reassembly.md R143). -/
def stashFirst (size : BitVec 12) (chunk : List Byte) (s : State) : Host.Outcome State Fault Refusal :=
  match memWrite s.cfg.maxBuffer s.rx.payload 0 chunk with
  | .error e => .fault e
  | .ok m    =>
    .next ((s.setRx { s.rx with size := size, payload := m, position := 6, counter := 1 }).enter .checkRead)

/-- FF: `RxFirst` (42_rx_reassembly.md R143). `rx.address` already holds the frame's `id`, since the read
wrote it (10_state.md R23). -/
def execFf (_id : Ident) (sizeHi : BitVec 4) (body : List Byte) (s : State) :
    Host.Outcome State Fault Refusal :=
  match firstFields s.cfg.maxBuffer sizeHi body with
  | none               => dropFrame s.fresh
  | some (size, chunk) => stashFirst size chunk s.fresh

/-- After an append: deliver and clear when the position has reached the size, else wait for the next
frame (42_rx_reassembly.md R145). -/
def finishAppend (s : State) : Host.Outcome State Fault Refusal :=
  if s.rx.position = s.rx.size then
    match memRead s.cfg.maxBuffer s.rx.payload 0 s.rx.size.toNat with
    | .error e  => .fault e
    | .ok bytes =>
      .next ((((s.deliver s.rx.address bytes s.rx.size.toNat).clearRx).raise .msgDelivered).enter .idle)
  else .next (s.enter .checkRead)

/-- The append of a valid consecutive frame at `rx.position` (42_rx_reassembly.md R145). -/
def appendChunk (chunk : List Byte) (s : State) : Host.Outcome State Fault Refusal :=
  match memWrite s.cfg.maxBuffer s.rx.payload s.rx.position.toNat chunk with
  | .error e => .fault e
  | .ok m    =>
    finishAppend (s.setRx { s.rx with
      payload  := m
      position := s.rx.position + BitVec.ofNat 12 chunk.length
      counter  := nextCounter s.rx.counter })

/-- CF: `RxConsecutive` (42_rx_reassembly.md R144, R145). The index and the sender are not checked (R148,
R149). -/
def execCf (_id : Ident) (index : BitVec 4) (body : List Byte) (s : State) :
    Host.Outcome State Fault Refusal :=
  if s.rxActive then
    if s.rx.position.toNat < s.rx.size.toNat then
      match consecutiveFields (s.rx.size.toNat - s.rx.position.toNat) index body with
      | none            => dropFrame s.fresh
      | some (_, chunk) => appendChunk chunk s.fresh
    else .fault .nothingRemains
  else dropFrame s.fresh

/-- FC: recognised by its tag and not acted upon (42_rx_reassembly.md R146). -/
def execFc (_id : Ident) (_flag : BitVec 4) (_body : List Byte) (s : State) :
    Host.Outcome State Fault Refusal :=
  .next (s.fresh.enter .checkRead)

/-- UNK_4_7: an unknown class tag is malformed (41_frame_codec.md R129, 30_encoding.md R88). -/
def execUnk47 (_id : Ident) (_low : BitVec 6) (_body : List Byte) (s : State) :
    Host.Outcome State Fault Refusal :=
  dropFrame s.fresh

/-- UNK_8_15: an unknown class tag is malformed (41_frame_codec.md R129, 30_encoding.md R88). -/
def execUnk815 (_id : Ident) (_low : BitVec 7) (_body : List Byte) (s : State) :
    Host.Outcome State Fault Refusal :=
  dropFrame s.fresh

/-- `RxParse` on an admissible frame, by class (42_rx_reassembly.md R141). -/
def parseByClass (id : Ident) (b : Byte) (body : List Byte) (s : State) :
    Host.Outcome State Fault Refusal :=
  match (classify b).toNat with
  | 0 => execSf id (lowNibble b) body s
  | 1 => execFf id (lowNibble b) body s
  | 2 => execCf id (lowNibble b) body s
  | 3 => execFc id (lowNibble b) body s
  | t => if t < 8 then execUnk47 id (b.extractLsb' 0 6) body s else execUnk815 id (b.extractLsb' 0 7) body s

end Sys2Proof.Machine
end

