-- ==== Sys2Proof/Machine/Steps.lean ====
section
/-! DEFINITION. The STATE rows: the work one TICK does in each of the ten states, after the prologue
(44_state_machine.md R181 to R191, 45_collision.md R212 to R214, 43_tx_segmentation.md R161 to R163).
`stay` writes neither `state` nor `timer` (00_scope.md R16). Each step starts with nothing put out. -/

namespace Sys2Proof.Machine

/-- Disabled: nothing (44_state_machine.md R191). -/
def execDisabled (s : State) : Host.Outcome State Fault Refusal := .next s.fresh

/-- Idle: a waiting frame first, then a pending transfer if no reassembly runs and the holdoff gate is
open (44_state_machine.md R181). -/
def execIdle (s : State) : Host.Outcome State Fault Refusal :=
  let s1 := s.fresh.askedAvailable
  if s1.busAvailable then .next (s1.enter .read)
  else if !s1.rxActive && s1.txPending && s1.holdOk then .next (s1.disarmHold.enter .checkSend)
  else .next s1

/-- CheckRead: poll (44_state_machine.md R182). -/
def execCheckRead (s : State) : Host.Outcome State Fault Refusal :=
  let s1 := s.fresh.askedAvailable
  if s1.busAvailable then .next (s1.enter .read) else .next s1

/-- `ReadCollision`: rewind, then win (discard RX, drop the frame) or yield (arm the holdoff, parse the
frame) (45_collision.md R212). -/
def readCollision (s : State) : State :=
  let s1 := s.rewindTx
  if s1.weWin then ((s1.clearRx).raise .collisionWin).enter .checkRead
  else ((s1.armHold).raise .collisionYield).enter .parseWhich

/-- Read (44_state_machine.md R184). -/
def execRead (s : State) : Host.Outcome State Fault Refusal :=
  let s1 := s.fresh.askedRead
  match s1.busRead with
  | none   => .next ((s1.raise .readRetry).enter .checkRead)
  | some f =>
    let s2 := s1.capture f
    if s2.txInFlight then .next (readCollision s2) else .next (s2.enter .parseWhich)

/-- ParseWhich: `RxParse` on `rxf` (44_state_machine.md R185, 42_rx_reassembly.md R141). -/
def execParseWhich (s : State) : Host.Outcome State Fault Refusal :=
  if s.rxf.admissible then
    if s.rxf.wf then
      match s.rxf.data with
      | []        => .fault .byteWithoutValue
      | b :: body => parseByClass s.rxf.id b body s
    else .fault .byteWithoutValue
  else dropFrame s.fresh

/-- CheckSend: choose the path (44_state_machine.md R186). The last branch cannot occur (R193). -/
def execCheckSend (s : State) : Host.Outcome State Fault Refusal :=
  let s1 := s.fresh
  if s1.tx.size.toNat = 0 then .next (s1.enter .idle)
  else if s1.tx.size.toNat ≤ 7 then .next (s1.enter .sendSingle)
  else if s1.tx.position.toNat = 0 then .next (s1.enter .sendFirst)
  else if s1.tx.position.toNat < s1.tx.size.toNat then .next (s1.enter .sendConsecutive)
  else .next (s1.clearTx.enter .idle)

/-- The branch of a send state that cannot occur: clear TX, send nothing, to `Idle`
(44_state_machine.md R187 to R189, R193). -/
def deadSend (s : State) : Host.Outcome State Fault Refusal := .next (s.clearTx.enter .idle)

/-- The transfer's last frame was sent (43_tx_segmentation.md R161, R163). -/
def completeTx (s : State) : State := ((s.clearTx).raise .txComplete).enter .idle

/-- `TxSingle` (43_tx_segmentation.md R161). -/
def txSingle (s : State) : Host.Outcome State Fault Refusal :=
  match memRead s.cfg.maxBuffer s.tx.payload 0 s.tx.size.toNat with
  | .error e => .fault e
  | .ok p    =>
    let s1 := s.busSend (encodeSingle s.tx.address s.tx.size.toNat p)
    if s1.busSendOk then .next (completeTx s1) else .next (s1.takeError .busSendFail)

/-- SendSingle (44_state_machine.md R187). -/
def execSendSingle (s : State) : Host.Outcome State Fault Refusal :=
  if 1 ≤ s.tx.size.toNat ∧ s.tx.size.toNat ≤ 7 then txSingle s.fresh else deadSend s.fresh

/-- `TxFirst` (43_tx_segmentation.md R162). -/
def txFirst (s : State) : Host.Outcome State Fault Refusal :=
  match memRead s.cfg.maxBuffer s.tx.payload 0 6 with
  | .error e => .fault e
  | .ok p    =>
    let s1 := s.busSend (encodeFirst s.tx.address s.tx.size p)
    if s1.busSendOk then
      .next ((s1.setTx { s1.tx with position := 6, counter := 1 }).enter .checkCollision)
    else .next (s1.takeError .busSendFail)

/-- SendFirst (44_state_machine.md R188). -/
def execSendFirst (s : State) : Host.Outcome State Fault Refusal :=
  if 8 ≤ s.tx.size.toNat then txFirst s.fresh else deadSend s.fresh

/-- After a consecutive frame of `k` bytes was sent: advance, and end the transfer when the position has
reached the size (43_tx_segmentation.md R163). -/
def advanceTx (k : Nat) (s : State) : State :=
  let s1 := s.setTx { s.tx with
    position := s.tx.position + BitVec.ofNat 12 k
    counter  := nextCounter s.tx.counter }
  if s1.tx.size.toNat ≤ s1.tx.position.toNat then completeTx s1 else s1.enter .checkCollision

/-- `TxConsecutive` (43_tx_segmentation.md R163). -/
def txConsecutive (s : State) : Host.Outcome State Fault Refusal :=
  let k := chunkLength (s.tx.size.toNat - s.tx.position.toNat)
  match memRead s.cfg.maxBuffer s.tx.payload s.tx.position.toNat k with
  | .error e => .fault e
  | .ok c    =>
    let s1 := s.busSend (encodeConsecutive s.tx.address s.tx.counter c k)
    if s1.busSendOk then .next (advanceTx k s1) else .next (s1.takeError .busSendFail)

/-- SendConsecutive (44_state_machine.md R189). -/
def execSendConsecutive (s : State) : Host.Outcome State Fault Refusal :=
  if 8 ≤ s.tx.size.toNat ∧ 0 < s.tx.position.toNat ∧ s.tx.position.toNat < s.tx.size.toNat then
    txConsecutive s.fresh
  else deadSend s.fresh

/-- No collision: go on when the inter-frame gate is open, else stay (45_collision.md R214,
40_clock_timer.md R109). -/
def paceConsecutive (s : State) : State := if s.waitOk then s.enter .sendConsecutive else s

/-- A collision between two of our frames: win (rewind, send the first frame again) or yield (serve the
peer; TX partway, holdoff not armed) (45_collision.md R214). -/
def resolveCollision (s : State) : State :=
  if s.weWin then ((s.rewindTx).raise .collisionWin).enter .sendFirst
  else (s.raise .collisionYield).enter .checkRead

/-- CheckCollision (44_state_machine.md R190, 45_collision.md R214). The frame read is never parsed
(R215). -/
def execCheckCollision (s : State) : Host.Outcome State Fault Refusal :=
  let s1 := s.fresh.askedAvailable
  if s1.busAvailable then
    let s2 := s1.askedRead
    match s2.busRead with
    | none   => .next (s2.takeError .busReadFail)
    | some f =>
      let s3 := s2.capture f
      if Frame.collides f then .next (resolveCollision s3) else .next (paceConsecutive s3)
  else .next (paceConsecutive s1)

/-- The step of the current state (44_state_machine.md R180). -/
def stateStep (s : State) : Host.Outcome State Fault Refusal :=
  match s.state with
  | .disabled        => execDisabled s
  | .idle            => execIdle s
  | .checkRead       => execCheckRead s
  | .read            => execRead s
  | .parseWhich      => execParseWhich s
  | .checkSend       => execCheckSend s
  | .sendSingle      => execSendSingle s
  | .sendFirst       => execSendFirst s
  | .sendConsecutive => execSendConsecutive s
  | .checkCollision  => execCheckCollision s

end Sys2Proof.Machine
end

