-- ==== Sys2Proof/Machine/Commands.lean ====
section
/-! DEFINITION. The CMD rows: the three host commands (47_host_commands.md R241 to R246). Each is one
atomic transaction (20_memory.md R68) and starts with nothing put out. -/

namespace Sys2Proof.Machine

/-- BEGIN: enable a disabled engine, nothing otherwise (47_host_commands.md R241). -/
def execBegin (s : State) : Host.Outcome State Fault Refusal :=
  if s.state = .disabled then .next ((((s.fresh.clearRx).clearTx).disarmHold).enter .idle)
  else .next s.fresh

/-- The TICK prologue and the step it lets through (40_clock_timer.md R104, R105, R107). -/
def tickEnabled (s : State) : Host.Outcome State Fault Refusal :=
  let s1 := s.wrapHandler
  if s1.timedOut then .next (s1.takeError .timeout) else stateStep s1

/-- TICK (47_host_commands.md R242). -/
def execTick (now : Nat) (s : State) : Host.Outcome State Fault Refusal :=
  let s1 := s.fresh.sampleClock now
  if s1.state = .disabled then .next s1 else tickEnabled s1

/-- SEND's argument check: null, empty, above 4095 or above the buffer (47_host_commands.md R243). The
length is compared as given, before it is narrowed. -/
def sendInvalid (maxBuffer len : Nat) (bytes : Option (List Byte)) : Bool :=
  bytes.isNone || decide (len = 0) || decide (4095 < len) || decide (maxBuffer < len)

/-- SEND accepted: the message is copied into TX, which enters `CheckSend` (47_host_commands.md R245,
R246). -/
def loadTx (addr : Ident) (len : Nat) (bytes : List Byte) (s : State) :
    Host.Outcome State Fault Refusal :=
  match memWrite s.cfg.maxBuffer s.tx.payload 0 bytes with
  | .error e => .fault e
  | .ok m    =>
    let t : Transfer :=
      { address := addr, size := BitVec.ofNat 12 len, position := 0, counter := 0, payload := m }
    .next (((s.setTx t).raise .sendAccepted).enter .checkSend)

/-- SEND (47_host_commands.md R243 to R245): the argument check comes before the state check. -/
def execSend (now : Nat) (addr : Ident) (len : Nat) (bytes : Option (List Byte)) (s : State) :
    Host.Outcome State Fault Refusal :=
  let s1 := s.fresh.sampleClock now
  if sendInvalid s1.cfg.maxBuffer len bytes then .next (s1.takeError .invalidArgument)
  else if s1.state = .idle then loadTx addr len (bytes.getD []) s1
  else .next (s1.takeError .busy)

end Sys2Proof.Machine
end

