-- ==== Sys2Proof/Machine/Dispatch.lean ====
section
/-! DEFINITION. One arm per constructor of Instr: the meaning of every row of spec/opcode_table.json. -/

namespace Sys2Proof.Machine

def exec (i : Instr) (s : State) : Host.Outcome State Fault Refusal :=
  match i with
  -- PCI
  | .sf id size body => Sys2Proof.Machine.execSf id size body s
  | .ff id sizeHi body => Sys2Proof.Machine.execFf id sizeHi body s
  | .cf id index body => Sys2Proof.Machine.execCf id index body s
  | .fc id flag body => Sys2Proof.Machine.execFc id flag body s
  | .unk47 id low body => Sys2Proof.Machine.execUnk47 id low body s
  | .unk815 id low body => Sys2Proof.Machine.execUnk815 id low body s
  -- CMD
  | .begin => Sys2Proof.Machine.execBegin s
  | .tick now => Sys2Proof.Machine.execTick now s
  | .send now addr len bytes => Sys2Proof.Machine.execSend now addr len bytes s
  -- STATE
  | .disabled => Sys2Proof.Machine.execDisabled s
  | .idle => Sys2Proof.Machine.execIdle s
  | .checkRead => Sys2Proof.Machine.execCheckRead s
  | .read => Sys2Proof.Machine.execRead s
  | .parseWhich => Sys2Proof.Machine.execParseWhich s
  | .checkSend => Sys2Proof.Machine.execCheckSend s
  | .sendSingle => Sys2Proof.Machine.execSendSingle s
  | .sendFirst => Sys2Proof.Machine.execSendFirst s
  | .sendConsecutive => Sys2Proof.Machine.execSendConsecutive s
  | .checkCollision => Sys2Proof.Machine.execCheckCollision s

end Sys2Proof.Machine
end

