-- ==== Sys2Proof/Machine/Step.lean ====
section
/-! DEFINITION. One step of the machine: the next host command of the queue, decoded and run whole
(20_memory.md R68; log entries 1 and 9). -/

namespace Sys2Proof.Machine

/-- The refusal a rejected command word ends in. -/
def refusalOf : Reject → Refusal
  | .lengthMismatch     => .lengthMismatch
  | .reservedCommand    => .reservedCommand
  | .inadmissibleLength => .reservedCommand
  | .bytesWithoutValue  => .reservedCommand
  | .reservedState      => .reservedCommand

/-- Issue a queued command: it leaves the queue and its hook answers become the current ones. -/
def State.issue (s : State) (r : HostRequest) (rest : List HostRequest) : State :=
  { s with host := rest, inp := { s.inp with answers := r.answers } }

/-- One step: run the next host command; with none waiting the engine does nothing and keeps all its
state (60_exceptions.md R279, 00_scope.md R7). -/
def step (s : State) : Host.Outcome State Fault Refusal :=
  match s.host with
  | []        => .next s
  | r :: rest =>
    match decodeCmd r.word with
    | .error e => .refused (refusalOf e)
    | .ok i    => exec i (s.issue r rest)

/-- A TICK whose clock sample is `now` and whose hooks answer `Answers.none`. -/
def tickRequest (now : Nat) : HostRequest :=
  { word := { number := 1, now := now, addr := 0, len := 0, bytes := none }, answers := Answers.none }

/-- The state whose next step runs the instruction of a code (log entry 9). A command is the next one
issued. A state or a frame is run by a TICK: the state register, or `ParseWhich` and `rxf`, hold it, and
the sample equals the timer, so that the prologue neither wraps nor times out. -/
def State.withCode (s : State) : Code → State
  | .cmd w      => { s with host := { word := w, answers := Answers.none } :: s.host }
  | .stateReg n =>
    match SeqState.ofNumber n with
    | some st => { s with state := st, host := tickRequest s.timer :: s.host }
    | none    => s
  | .pci f      => { s with state := .parseWhich, rxf := f, host := tickRequest s.timer :: s.host }

/-- The state with a table word stored where the next step fetches its instruction. -/
def State.withFetchWord (s : State) (nbits w : Nat) : State := s.withCode (tableCode nbits w)

end Sys2Proof.Machine
end

