-- ==== Sys2Proof/Machine/Bus.lean ====
section
/-! DEFINITION. Two engines on one bus, joined by an environment (60_exceptions.md R278, 20_memory.md R70,
R71). What R70, R71 and R278 leave to the environment stays free: who is ticked and when, whether a read or
a send fails, what the byte lanes at index `len` and above carry. The rest is the environment of the spec's
own traces (92_eei_decisions.md D35, D37), DESIGN CHOICE, log entry 13: an unbounded queue of inbound frames
per engine, `BusAvailable` true exactly when it holds one, a sent frame in the other's queue at once, a
failed read consumes nothing, an engine does not see its own frames. -/

namespace Sys2Proof.Machine

/-- Two engines and the frames on their way to each. A queued frame lists only the bytes that have a value
(00_scope.md R19). -/
structure Pair where
  a   : State
  b   : State
  toA : List Frame
  toB : List Frame
  deriving DecidableEq, Repr

/-- What the environment supplies to one TICK: whether `BusRead` fails, even with a frame waiting
(20_memory.md R71), whether `BusSend` answers `ok` (R70), and what the lanes of the frame at its `len` and
above carry (00_scope.md R19: no value, so whatever the environment puts there). -/
structure BusInputs where
  readFails : Bool
  sendOk    : Bool
  lanes     : Vector Byte 8
  deriving DecidableEq, Repr

/-- A frame as an adapter presents it: its bytes, and above them whatever the lanes carry. -/
def Frame.onBus (f : Frame) (lanes : Vector Byte 8) : BusFrame :=
  { id := f.id, len := f.len, lanes := Vector.ofFn (fun i => f.data.getD i.val lanes[i]) }

/-- The hooks' answers of an adapter that holds `inbox`. -/
def adapterAnswers (inbox : List Frame) (env : BusInputs) : Answers :=
  { avail  := !inbox.isEmpty
    read   := if env.readFails then none else inbox.head?.map (fun f => Frame.onBus f env.lanes)
    sendOk := env.sendOk }

/-- One TICK of an engine whose adapter holds `inbox`. -/
def tickWith (now : Nat) (inbox : List Frame) (env : BusInputs) (s : State) :
    Host.Outcome State Fault Refusal :=
  exec (.tick now) { s with inp := { s.inp with answers := adapterAnswers inbox env } }

/-- The queue after a TICK that left `s`: a read that succeeded took its first frame. -/
def inboxAfter (inbox : List Frame) (env : BusInputs) (s : State) : List Frame :=
  if s.out.readCalls = 0 ∨ env.readFails = true then inbox else inbox.tail

/-- The frames a TICK that left `s` put on the bus: those whose send was answered `ok`. -/
def carried (env : BusInputs) (s : State) : List Frame := if env.sendOk then s.out.sent else []

/-- Tick engine A. -/
def Pair.tickA (p : Pair) (now : Nat) (env : BusInputs) : Host.Outcome Pair Fault Refusal :=
  match tickWith now p.toA env p.a with
  | .fault e   => .fault e
  | .refused r => .refused r
  | .next s    => .next { p with a := s, toA := inboxAfter p.toA env s, toB := p.toB ++ carried env s }

/-- Tick engine B. -/
def Pair.tickB (p : Pair) (now : Nat) (env : BusInputs) : Host.Outcome Pair Fault Refusal :=
  match tickWith now p.toB env p.b with
  | .fault e   => .fault e
  | .refused r => .refused r
  | .next s    => .next { p with b := s, toB := inboxAfter p.toB env s, toA := p.toA ++ carried env s }

end Sys2Proof.Machine
end

