-- ==== Sys2Proof/Machine/HostProcedures.lean ====
section
/-! DEFINITION. The host procedures above the block: the publish message (46_pubsub_layer.md R230, R231),
the blocking `send` and `publish` (47_host_commands.md R247 to R249, the pseudo-operations of
30_encoding.md R93). 00_scope.md R4 puts them outside the block: they hold no state of it and no instruction uses them (log entry 15). -/

namespace Sys2Proof.Machine

/-- An unsigned 16-bit length, little-endian (46_pubsub_layer.md R230). -/
def littleEndian16 (n : Nat) : List Byte := [BitVec.ofNat 8 n, BitVec.ofNat 8 (n / 256)]

/-- The publish message: kind 0x03, topic and payload each after its length (46_pubsub_layer.md R230). -/
def publishMessage (topic payload : List Byte) : List Byte :=
  0x03 :: (littleEndian16 topic.length ++ topic ++ littleEndian16 payload.length ++ payload)

/-- What `publish` hands to `send`, or none for *InvalidArgument* (47_host_commands.md R248). -/
def publishBytes (maxBuffer : Nat) (topic payload : List Byte) : Option (List Byte) :=
  if 65535 < topic.length ∨ 65535 < payload.length ∨ maxBuffer < 5 + topic.length + payload.length then none
  else some (publishMessage topic payload)

/-- The address a host that may leave it out supplies (47_host_commands.md R249). -/
def sendAddress (p : Params) (addr : Option Ident) : Ident := addr.getD p.ownAddress

/-- How the blocking `send` returns; `waiting` when the inputs given end before it does. -/
inductive SendStatus where
  | ok
  | invalidArgument
  | busy
  | waiting
  deriving DecidableEq, Repr

/-- What the environment supplies to one turn of the host's loop: the three `clock()` values in the order
they are read, and the hook answers of the TICK. -/
structure SpinInputs where
  sendClock : Nat
  testClock : Nat
  tickClock : Nat
  answers   : Answers
  deriving DecidableEq, Repr

/-- What a host procedure returns, the engine it leaves, and what each command it issued put out, in order:
the messages delivered in the TICKs of the spin are among these (47_host_commands.md R247). -/
structure SendReturn where
  status  : SendStatus
  state   : State
  outputs : List Outputs
  deriving DecidableEq, Repr

/-- The messages the sink got during a host procedure. -/
def SendReturn.delivered (r : SendReturn) : List Message := r.outputs.flatMap (fun o => o.delivered)

/-- The frames handed to the bus during a host procedure. -/
def SendReturn.sent (r : SendReturn) : List Frame := r.outputs.flatMap (fun o => o.sent)

/-- One SEND and one TICK of the spin came before what `o` returns. -/
def SendReturn.after (send tick : Outputs) : Host.Outcome SendReturn Fault Refusal →
    Host.Outcome SendReturn Fault Refusal
  | .fault e   => .fault e
  | .refused r => .refused r
  | .next r    => .next { r with outputs := send :: tick :: r.outputs }

/-- The TICK of the spin, with the hook answers of its turn. -/
def spinTick (turn : SpinInputs) (s : State) : Host.Outcome State Fault Refusal :=
  execTick turn.tickClock { s with inp := { s.inp with answers := turn.answers } }

/-- `SEND_TIMEOUT` has passed since `t0` at the clock `t` (47_host_commands.md R247). -/
def sendExpired (p : Params) (t0 t : Nat) : Bool :=
  decide (p.sendTimeout ≤ Params.elapsed p (Params.sample p t) (Params.sample p t0))

/-- The blocking `send` over SEND and TICK, started at `t0`, on the turns the environment supplies
(47_host_commands.md R247). -/
def blockingSend (t0 : Nat) (addr : Ident) (len : Nat) (bytes : Option (List Byte)) :
    List SpinInputs → State → Host.Outcome SendReturn Fault Refusal
  | [], s         => .next { status := .waiting, state := s, outputs := [] }
  | turn :: turns, s =>
    match execSend turn.sendClock addr len bytes s with
    | .fault e   => .fault e
    | .refused r => .refused r
    | .next s1   =>
      if s1.out.event = .sendAccepted then .next { status := .ok, state := s1, outputs := [s1.out] }
      else if s1.out.event = .invalidArgument then
        .next { status := .invalidArgument, state := s1, outputs := [s1.out] }
      else if sendExpired s1.cfg t0 turn.testClock then
        .next { status := .busy, state := s1, outputs := [s1.out] }
      else
        match spinTick turn s1 with
        | .fault e   => .fault e
        | .refused r => .refused r
        | .next s2   => SendReturn.after s1.out s2.out (blockingSend t0 addr len bytes turns s2)

/-- `send(addr?, bytes)`: the blocking send with an address that may be left out (47_host_commands.md R247,
R249). -/
def sendProcedure (t0 : Nat) (addr : Option Ident) (len : Nat) (bytes : Option (List Byte))
    (turns : List SpinInputs) (s : State) : Host.Outcome SendReturn Fault Refusal :=
  blockingSend t0 (sendAddress s.cfg addr) len bytes turns s

/-- `publish(addr?, topic, payload)`: refuse an oversized message without issuing SEND, else encode and
invoke `send` (47_host_commands.md R248, 46_pubsub_layer.md R231, R232). -/
def publish (t0 : Nat) (addr : Option Ident) (topic payload : List Byte) (turns : List SpinInputs)
    (s : State) : Host.Outcome SendReturn Fault Refusal :=
  match publishBytes s.cfg.maxBuffer topic payload with
  | none   => .next { status := .invalidArgument, state := s, outputs := [] }
  | some m => sendProcedure t0 addr m.length (some m) turns s

end Sys2Proof.Machine
end

