-- ==== Sys2Proof/Safety.lean ====
section
/-! DEFINITION. What a good state and a safe step are, in the terms the statements use: the transfer
invariants (10_state.md R35, R36), the timer invariant (R37), the facts that make the dead branches dead
(44_state_machine.md R193), the canonical form of the buffers, the transition table (R192), and the frames
of a whole message (43_tx_segmentation.md R168). -/

namespace Sys2Proof.Machine

/-- The buffer holds a byte at every offset below `n`. -/
abbrev Memory.holds (m : Memory) (n : Nat) : Prop := ∀ a, a < n → (Memory.read m a).isSome = true

/-- RX invariant (10_state.md R35), and the bytes received so far hold a value (R27). -/
structure Transfer.RxInv (p : Params) (t : Transfer) : Prop where
  idle    : t.size.toNat = 0 → t.position.toNat = 0
  active  : 0 < t.size.toNat →
    8 ≤ t.size.toNat ∧ t.size.toNat ≤ p.maxBuffer ∧ 6 ≤ t.position.toNat ∧ t.position.toNat < t.size.toNat
  written : Memory.holds t.payload t.position.toNat
  wf      : Memory.wf t.payload = true

/-- TX invariant (10_state.md R36), and the message holds a value at every byte (R32). -/
structure Transfer.TxInv (p : Params) (t : Transfer) : Prop where
  fits    : t.size.toNat ≤ p.maxBuffer
  short   : t.size.toNat ≤ 7 → t.position.toNat = 0
  long    : 7 < t.size.toNat →
    t.position.toNat = 0 ∨ (6 ≤ t.position.toNat ∧ t.position.toNat < t.size.toNat)
  written : Memory.holds t.payload t.size.toNat
  wf      : Memory.wf t.payload = true

/-- What each send state may rely on (44_state_machine.md R193: `CheckSend` and a successful send test the
transfer before them). -/
def sendReady (st : SeqState) (t : Transfer) : Prop :=
  match st with
  | .sendSingle      => 1 ≤ t.size.toNat ∧ t.size.toNat ≤ 7
  | .sendFirst       => 8 ≤ t.size.toNat
  | .sendConsecutive => 8 ≤ t.size.toNat ∧ 6 ≤ t.position.toNat ∧ t.position.toNat < t.size.toNat
  | .checkCollision  => 8 ≤ t.size.toNat ∧ 6 ≤ t.position.toNat ∧ t.position.toNat < t.size.toNat
  | .disabled        => t.size.toNat = 0
  | .idle            => True
  | .checkRead       => True
  | .read            => True
  | .parseWhich      => True
  | .checkSend       => True

/-- A state between two commands of an instance whose parameters meet 00_scope.md R5. -/
structure State.Inv (s : State) : Prop where
  cfg     : s.cfg.Wf
  rx      : s.rx.RxInv s.cfg
  tx      : s.tx.TxInv s.cfg
  ready   : sendReady s.state s.tx
  quiet   : s.state = .disabled → s.rx.size.toNat = 0
  stopped : s.state = .idle ∨ s.state = .disabled → s.timer = 0
  timer   : s.timer < 2 ^ s.cfg.clockWidth
  now     : s.inp.now < 2 ^ s.cfg.clockWidth
  hold    : s.hold.start < 2 ^ s.cfg.clockWidth
  rxf     : s.rxf.wf = true

/-- The transitions of a TICK, without the timeout's (44_state_machine.md R192): the pairs of states the
table's rows name, a stay included. -/
def tickGoes (src dst : SeqState) : Bool :=
  match src with
  | .disabled        => decide (dst = .disabled)
  | .idle            => decide (dst = .idle) || decide (dst = .read) || decide (dst = .checkSend)
  | .checkRead       => decide (dst = .checkRead) || decide (dst = .read)
  | .read            => decide (dst = .checkRead) || decide (dst = .parseWhich)
  | .parseWhich      => decide (dst = .idle) || decide (dst = .checkRead)
  | .checkSend       =>
    decide (dst = .idle) || decide (dst = .sendSingle) || decide (dst = .sendFirst) ||
      decide (dst = .sendConsecutive)
  | .sendSingle      => decide (dst = .idle)
  | .sendFirst       => decide (dst = .checkCollision) || decide (dst = .idle)
  | .sendConsecutive => decide (dst = .checkCollision) || decide (dst = .idle)
  | .checkCollision  =>
    decide (dst = .idle) || decide (dst = .sendFirst) || decide (dst = .checkRead) ||
      decide (dst = .sendConsecutive) || decide (dst = .checkCollision)

/-! ## Words the statements use -/

/-- The outputs of a command that does nothing but raise `e`. -/
def Outputs.only (e : Event) : Outputs := { Outputs.quiet with event := e }

/-- The same environment with another answer of `BusRead`. -/
def State.withReadAnswer (s : State) (r : Option BusFrame) : State :=
  { s with inp := { s.inp with answers := { s.inp.answers with read := r } } }

/-! ## A whole message -/

/-- The consecutive frames of what is left of a message, from sequence number `j`: seven bytes each, the
last one what remains (43_tx_segmentation.md R168). `fuel` bounds their number. -/
def tailFrames (addr : Ident) : Nat → Nat → List Byte → List Frame
  | 0, _, _           => []
  | fuel + 1, j, rest =>
    if rest.isEmpty then []
    else
      { id := addr, len := BitVec.ofNat 4 (1 + min 7 rest.length)
        data := BitVec.ofNat 8 (0x20 + j % 16) :: rest.take 7 } ::
      tailFrames addr fuel (j + 1) (rest.drop 7)

/-- The frames of a message, in order (43_tx_segmentation.md R160, R168). -/
def messageFrames (addr : Ident) (p : List Byte) : List Frame :=
  if p.length ≤ 7 then
    [{ id := addr, len := BitVec.ofNat 4 (1 + p.length), data := BitVec.ofNat 8 p.length :: p }]
  else
    { id := addr, len := 8
      data := BitVec.ofNat 8 (0x10 + p.length / 256) :: BitVec.ofNat 8 (p.length % 256) :: p.take 6 } ::
    tailFrames addr p.length 1 (p.drop 6)

/-- Parse frames one after another, each read into `rxf` first, and collect the messages delivered. -/
def receiveAll : List Frame → State → Host.Outcome (State × List Message) Fault Refusal
  | [], s      => .next (s, [])
  | f :: fs, s =>
    match exec .parseWhich (s.capture f) with
    | .fault e   => .fault e
    | .refused r => .refused r
    | .next t    =>
      match receiveAll fs t with
      | .fault e       => .fault e
      | .refused r     => .refused r
      | .next (u, ms) => .next (u, t.out.delivered ++ ms)

/-- `n` TICKs, the first at `now + gap` and each `gap` milliseconds after the last, collecting the frames
handed to the bus. -/
def tickRun (gap : Nat) : Nat → Nat → State → Host.Outcome (State × List Frame) Fault Refusal
  | 0, _, s       => .next (s, [])
  | n + 1, now, s =>
    match exec (.tick (now + gap)) s with
    | .fault e   => .fault e
    | .refused r => .refused r
    | .next t    =>
      match tickRun gap n (now + gap) t with
      | .fault e       => .fault e
      | .refused r     => .refused r
      | .next (u, fs) => .next (u, t.out.sent ++ fs)

end Sys2Proof.Machine
end

