-- ==== Sys2Proof/Certificates/Slice0/Obligations.lean ====
section
/-! DEFINITION. The statements for the provers. Each docstring names the rule of spec/ it formalises. In
all of them `s.inp.now` is the clock sample of the current command (TICK and SEND take it modulo
2^CLOCK_WIDTH, 40_clock_timer.md R101), `s.inp.answers` the environment's hook answers, and
`Outputs.quiet` is "`EV_NONE`, no frame, no message, no hook called". The fields `inp`, `host` and `out` that
hold them are the model's own (log entries 1 and 6); what goes into them is the rules'. -/

open Sys2Proof Sys2Proof.Machine

/-! ## Host commands -/

/-- 47_host_commands.md R241: BEGIN from `Disabled` clears both transfers' scalars and `hold.active` and
enters `Idle` with timer 0; in every other state it changes nothing. The buffers, the address registers,
`rxf` and `hold.start` are not written. -/
def Obligations.BeginEnablesADisabledEngineOnly : Prop :=
  ∀ s : State, exec .begin s = .next
    (if s.state = .disabled then
      { s with
        state := .idle
        timer := 0
        rx := { s.rx with size := 0, position := 0, counter := 0 }
        tx := { s.tx with size := 0, position := 0, counter := 0 }
        hold := { s.hold with active := false }
        out := Outputs.quiet }
    else { s with out := Outputs.quiet })

/-- 47_host_commands.md R242 with 40_clock_timer.md R104, R105, R107: a TICK in `Disabled` does nothing;
otherwise the wraparound handler, then the state timeout on the untruncated sum, and only if that does
not fire the step of the current state. -/
def Obligations.TickRunsHandlerThenTimeoutThenStep : Prop :=
  ∀ (now : Nat) (s : State),
    let n := now % 2 ^ s.cfg.clockWidth
    let tm := if s.timer > n then n else s.timer
    exec (.tick now) s =
      if s.state = .disabled then
        .next { s with inp := { s.inp with now := n }, out := Outputs.quiet }
      else if 0 < tm ∧ tm + s.cfg.stateTimeout < n then
        .next { s with
          state := .idle
          timer := 0
          rx := { s.rx with size := 0, position := 0, counter := 0 }
          tx := { s.tx with size := 0, position := 0, counter := 0 }
          inp := { s.inp with now := n }
          out := Outputs.only .timeout }
      else
        exec s.state.instr { s with
          timer := tm, inp := { s.inp with now := n }, out := Outputs.quiet }

/-- 40_clock_timer.md R105, R106, 60_exceptions.md R269 (2): a TICK reports the timeout exactly when the
engine is enabled, the handled timer is not 0 and more than STATE_TIMEOUT has passed since it; then no
hook is called and nothing is sent or delivered. In particular a wrapped clock (`timer > now`) never times
out in the TICK that sees the wrap. -/
def Obligations.TimeoutIsReportedExactlyWhenDue : Prop :=
  ∀ (now : Nat) (s t : State), exec (.tick now) s = .next t →
    let n := now % 2 ^ s.cfg.clockWidth
    (t.out.event = .timeout ↔
      s.state ≠ .disabled ∧ s.timer ≤ n ∧ 0 < s.timer ∧ s.timer + s.cfg.stateTimeout < n) ∧
    (t.out.event = .timeout → t.out = Outputs.only .timeout)

/-- 47_host_commands.md R243, R244: null, length 0, above 4095 or above MAX_BUFFER is
`EV_INVALID_ARGUMENT` in every state; good arguments outside `Idle`, `Disabled` included, are `EV_BUSY`.
Neither writes a register. -/
def Obligations.SendIsRefusedWithoutEffect : Prop :=
  ∀ (now : Nat) (addr : Ident) (len : Nat) (bytes : Option (List Byte)) (s : State),
    (bytes = none ∨ len = 0 ∨ 4095 < len ∨ s.cfg.maxBuffer < len →
      exec (.send now addr len bytes) s = .next { s with
        inp := { s.inp with now := now % 2 ^ s.cfg.clockWidth }
        out := Outputs.only .invalidArgument }) ∧
    (bytes ≠ none → 0 < len → len ≤ 4095 → len ≤ s.cfg.maxBuffer → s.state ≠ .idle →
      exec (.send now addr len bytes) s = .next { s with
        inp := { s.inp with now := now % 2 ^ s.cfg.clockWidth }
        out := Outputs.only .busy })

/-- 47_host_commands.md R245, R246: a SEND accepted in `Idle` loads all five TX fields over whatever was
pending, copies the bytes, enters `CheckSend` with the sample as timer, and leaves everything else, the
buffer at and above `len` included. -/
def Obligations.SendLoadsTheTransfer : Prop :=
  ∀ (now : Nat) (addr : Ident) (bs : List Byte) (s : State),
    0 < bs.length → bs.length ≤ 4095 → bs.length ≤ s.cfg.maxBuffer → s.state = .idle →
    ∃ m : Memory,
      exec (.send now addr bs.length (some bs)) s = .next { s with
        state := .checkSend
        timer := now % 2 ^ s.cfg.clockWidth
        tx := { address := addr, size := BitVec.ofNat 12 bs.length, position := 0, counter := 0,
                payload := m }
        inp := { s.inp with now := now % 2 ^ s.cfg.clockWidth }
        out := Outputs.only .sendAccepted } ∧
      (BitVec.ofNat 12 bs.length).toNat = bs.length ∧
      (∀ i, i < bs.length → Memory.read m i = bs[i]?) ∧
      (∀ a, bs.length ≤ a → Memory.read m a = Memory.read s.tx.payload a)

/-! ## Frames of each class -/

/-- 42_rx_reassembly.md R142, 41_frame_codec.md R122: a single frame whose size is 1 to 7 and equals
`len - 1` is delivered with its own identifier and the machine goes to `Idle`; any other is dropped. The
multi-frame buffer and its registers are not touched. -/
def Obligations.SingleFrameIsDeliveredOrDropped : Prop :=
  ∀ (id : Ident) (size : BitVec 4) (body : List Byte) (s : State),
    exec (.sf id size body) s = .next
      (if 1 ≤ size.toNat ∧ size.toNat ≤ 7 ∧ size.toNat = body.length then
        { s with
          state := .idle
          timer := 0
          out := { Outputs.quiet with
            event := .msgDelivered
            delivered := [{ address := id, bytes := body, len := body.length }] } }
      else
        { s with state := .checkRead, timer := s.inp.now, out := Outputs.only .frameDropped })

/-- 42_rx_reassembly.md R143: a valid first frame sets the declared size (big-endian over the low nibble
and the next byte), puts its six bytes at offset 0, sets position 6 and counter 1 and goes to `CheckRead`,
whether or not a reassembly was in progress. The rest of the buffer is kept. -/
def Obligations.FirstFrameStartsAReassembly : Prop :=
  ∀ (id : Ident) (sizeHi : BitVec 4) (sizeLo : Byte) (chunk : List Byte) (s : State),
    chunk.length = 6 → 8 ≤ sizeHi.toNat * 256 + sizeLo.toNat →
    sizeHi.toNat * 256 + sizeLo.toNat ≤ s.cfg.maxBuffer →
    ∃ m : Memory,
      exec (.ff id sizeHi (sizeLo :: chunk)) s = .next { s with
        state := .checkRead
        timer := s.inp.now
        rx := { s.rx with
          size := BitVec.ofNat 12 (sizeHi.toNat * 256 + sizeLo.toNat)
          position := 6
          counter := 1
          payload := m }
        out := Outputs.quiet } ∧
      (BitVec.ofNat 12 (sizeHi.toNat * 256 + sizeLo.toNat)).toNat = sizeHi.toNat * 256 + sizeLo.toNat ∧
      (∀ i, i < 6 → Memory.read m i = chunk[i]?) ∧
      (∀ a, 6 ≤ a → Memory.read m a = Memory.read s.rx.payload a)

/-- 41_frame_codec.md R123: a first frame with `len` other than 8, a size below 8 or a size above
MAX_BUFFER is dropped and disturbs nothing. -/
def Obligations.InvalidFirstFrameIsDropped : Prop :=
  ∀ (id : Ident) (sizeHi : BitVec 4) (body : List Byte) (s : State),
    (body.length ≠ 7 ∨
      ∃ (sizeLo : Byte) (chunk : List Byte), body = sizeLo :: chunk ∧
        (sizeHi.toNat * 256 + sizeLo.toNat < 8 ∨
          s.cfg.maxBuffer < sizeHi.toNat * 256 + sizeLo.toNat)) →
    exec (.ff id sizeHi body) s = .next { s with
      state := .checkRead, timer := s.inp.now, out := Outputs.only .frameDropped }

/-- 42_rx_reassembly.md R144, 41_frame_codec.md R124: a consecutive frame is dropped when no reassembly is
in progress (whatever its bytes), and when it holds fewer bytes than `min(7, remaining)`. -/
def Obligations.UnusableConsecutiveFrameIsDropped : Prop :=
  ∀ (id : Ident) (index : BitVec 4) (body : List Byte) (s : State),
    (s.rx.size.toNat = 0 ∨
      (s.rx.position.toNat < s.rx.size.toNat ∧
        body.length < min 7 (s.rx.size.toNat - s.rx.position.toNat))) →
    exec (.cf id index body) s = .next { s with
      state := .checkRead, timer := s.inp.now, out := Outputs.only .frameDropped }

/-- 42_rx_reassembly.md R145, first part: a consecutive frame that does not complete the message appends
`n = min(7, remaining)` bytes at the position (a surplus is ignored, the index is not compared), advances
position and counter, and goes to `CheckRead`. -/
def Obligations.ConsecutiveFrameAppends : Prop :=
  ∀ (id : Ident) (index : BitVec 4) (body : List Byte) (s : State),
    let n := min 7 (s.rx.size.toNat - s.rx.position.toNat)
    s.rx.position.toNat + n < s.rx.size.toNat → n ≤ body.length → s.rx.size.toNat ≤ s.cfg.maxBuffer →
    ∃ m : Memory,
      exec (.cf id index body) s = .next { s with
        state := .checkRead
        timer := s.inp.now
        rx := { s.rx with
          position := BitVec.ofNat 12 (s.rx.position.toNat + n)
          counter := BitVec.ofNat 4 ((s.rx.counter.toNat + 1) % 16)
          payload := m }
        out := Outputs.quiet } ∧
      (∀ i, i < n → Memory.read m (s.rx.position.toNat + i) = body[i]?) ∧
      (∀ a, a < s.rx.position.toNat ∨ s.rx.position.toNat + n ≤ a →
        Memory.read m a = Memory.read s.rx.payload a)

/-- 42_rx_reassembly.md R145, second part: the consecutive frame that brings the position to the size
delivers all `rx.size` bytes, the ones already stored and then its own, with the address in `rx.address`,
once; RX is cleared and the machine goes to `Idle`. -/
def Obligations.LastConsecutiveFrameDeliversTheMessage : Prop :=
  ∀ (id : Ident) (index : BitVec 4) (body : List Byte) (s : State),
    s.rx.position.toNat < s.rx.size.toNat → s.rx.size.toNat ≤ s.rx.position.toNat + 7 →
    s.rx.size.toNat - s.rx.position.toNat ≤ body.length → s.rx.size.toNat ≤ s.cfg.maxBuffer →
    Memory.holds s.rx.payload s.rx.position.toNat →
    ∃ (m : Memory) (msg : List Byte),
      exec (.cf id index body) s = .next { s with
        state := .idle
        timer := 0
        rx := { s.rx with size := 0, position := 0, counter := 0, payload := m }
        out := { Outputs.quiet with
          event := .msgDelivered
          delivered := [{ address := s.rx.address, bytes := msg, len := s.rx.size.toNat }] } } ∧
      msg.length = s.rx.size.toNat ∧
      (∀ i, i < s.rx.position.toNat → msg[i]? = Memory.read s.rx.payload i) ∧
      (∀ i, i < s.rx.size.toNat - s.rx.position.toNat → msg[s.rx.position.toNat + i]? = body[i]?) ∧
      (∀ i, i < s.rx.size.toNat - s.rx.position.toNat →
        Memory.read m (s.rx.position.toNat + i) = body[i]?) ∧
      (∀ a, a < s.rx.position.toNat ∨ s.rx.size.toNat ≤ a →
        Memory.read m a = Memory.read s.rx.payload a)

/-- 42_rx_reassembly.md R146: a flow-control frame, whatever its flag, block size and separation time,
writes nothing, delivers nothing, raises nothing, and the next state is `CheckRead`. -/
def Obligations.FlowControlFrameIsIgnored : Prop :=
  ∀ (id : Ident) (flag : BitVec 4) (body : List Byte) (s : State),
    exec (.fc id flag body) s = .next { s with
      state := .checkRead, timer := s.inp.now, out := Outputs.quiet }

/-- 30_encoding.md R88, 41_frame_codec.md R129: a frame with an unknown class tag is dropped with
`EV_FRAME_DROPPED`, changes no transfer register, and the machine returns to `CheckRead`. -/
def Obligations.UnknownClassTagIsDropped : Prop :=
  ∀ (id : Ident) (body : List Byte) (s : State),
    (∀ low : BitVec 6, exec (.unk47 id low body) s = .next { s with
      state := .checkRead, timer := s.inp.now, out := Outputs.only .frameDropped }) ∧
    (∀ low : BitVec 7, exec (.unk815 id low body) s = .next { s with
      state := .checkRead, timer := s.inp.now, out := Outputs.only .frameDropped })

/-! ## State steps -/

/-- 44_state_machine.md R191: in `Disabled` neither the step nor a TICK changes a register, calls a hook,
sends or delivers. -/
def Obligations.DisabledDoesNothing : Prop :=
  ∀ s : State,
    exec .disabled s = .next { s with out := Outputs.quiet } ∧
    ∀ now, s.state = .disabled → exec (.tick now) s = .next { s with
      inp := { s.inp with now := now % 2 ^ s.cfg.clockWidth }, out := Outputs.quiet }

/-- 44_state_machine.md R181 with 40_clock_timer.md R108 and R102: `Idle` goes to `Read` when a frame
waits; else, with no reassembly, a pending transfer and the holdoff gate open, to `CheckSend`, clearing
`hold.active`; else it stays. -/
def Obligations.IdlePrefersReceiveThenPendingSend : Prop :=
  ∀ s : State,
    let w := 2 ^ s.cfg.clockWidth
    let polled := { Outputs.quiet with availCalls := 1 }
    exec .idle s = .next
      (if s.inp.answers.avail = true then
        { s with state := .read, timer := s.inp.now, out := polled }
      else if s.rx.size.toNat = 0 ∧ 0 < s.tx.size.toNat ∧
          (s.hold.active = false ∨
            s.cfg.holdoffDelay ≤ (s.inp.now + w - s.hold.start % w) % w) then
        { s with
          state := .checkSend, timer := s.inp.now, hold := { s.hold with active := false }, out := polled }
      else { s with out := polled })

/-- 44_state_machine.md R182: `CheckRead` goes to `Read` when a frame waits and stays otherwise, with the
timer unchanged. -/
def Obligations.CheckReadPolls : Prop :=
  ∀ s : State, exec .checkRead s = .next
    (if s.inp.answers.avail = true then
      { s with state := .read, timer := s.inp.now, out := { Outputs.quiet with availCalls := 1 } }
    else { s with out := { Outputs.quiet with availCalls := 1 } })

/-- 44_state_machine.md R184: a failed read goes back to `CheckRead` with `EV_READ_RETRY` and writes no
frame register; a read frame fills `rxf` and `rx.address`, and with no transfer in flight it is parsed
next. -/
def Obligations.ReadFetchesAFrame : Prop :=
  ∀ s : State,
    (s.inp.answers.read = none →
      exec .read s = .next { s with
        state := .checkRead, timer := s.inp.now
        out := { Outputs.quiet with event := .readRetry, readCalls := 1 } }) ∧
    (∀ f : BusFrame, s.inp.answers.read = some f →
      s.tx.size.toNat = 0 ∨ s.tx.position.toNat = 0 →
      exec .read s = .next { s with
        state := .parseWhich, timer := s.inp.now
        rxf := { id := f.id, len := f.len, data := f.lanes.toList.take f.len.toNat }
        rx := { s.rx with address := f.id }
        out := { Outputs.quiet with readCalls := 1 } })

/-- 45_collision.md R212, R210: any frame read while a transfer is in flight rewinds it; if its identifier
is above OWN_ADDRESS the engine wins, discards RX and drops the frame; otherwise it yields, arms the
holdoff and parses the frame. -/
def Obligations.ReadCollisionRewindsAndResolves : Prop :=
  ∀ (s : State) (f : BusFrame), s.inp.answers.read = some f →
    0 < s.tx.size.toNat → 0 < s.tx.position.toNat →
    exec .read s = .next
      (if s.cfg.ownAddress.toNat < f.id.toNat then
        { s with
          state := .checkRead
          timer := s.inp.now
          rxf := { id := f.id, len := f.len, data := f.lanes.toList.take f.len.toNat }
          rx := { s.rx with address := f.id, size := 0, position := 0, counter := 0 }
          tx := { s.tx with position := 0, counter := 1 }
          out := { Outputs.quiet with event := .collisionWin, readCalls := 1 } }
      else
        { s with
          state := .parseWhich
          timer := s.inp.now
          rxf := { id := f.id, len := f.len, data := f.lanes.toList.take f.len.toNat }
          rx := { s.rx with address := f.id }
          tx := { s.tx with position := 0, counter := 1 }
          hold := { active := true, start := s.inp.now }
          out := { Outputs.quiet with event := .collisionYield, readCalls := 1 } })

/-- 44_state_machine.md R185, 42_rx_reassembly.md R141: `ParseWhich` does what the decoded class of `rxf`
does, and drops a frame whose length is not 1 to 8 without looking at a byte of it. -/
def Obligations.ParseWhichRunsTheDecodedFrame : Prop :=
  ∀ s : State,
    (∀ i, decodeFrame s.rxf = .ok i → exec .parseWhich s = exec i s) ∧
    (s.rxf.len.toNat = 0 ∨ 8 < s.rxf.len.toNat →
      exec .parseWhich s = .next { s with
        state := .checkRead, timer := s.inp.now, out := Outputs.only .frameDropped })

/-- 44_state_machine.md R185, 42_rx_reassembly.md R142, R143: what `ParseWhich` completes with on the bytes
of `rxf` themselves: a single frame `[size, bytes]` is delivered, a first frame `[10 + high nibble, low
byte, six bytes]` opens a reassembly. -/
def Obligations.ParseWhichCompletesOnFrameBytes : Prop :=
  ∀ s : State,
    (∀ bs : List Byte, 1 ≤ bs.length → bs.length ≤ 7 →
      s.rxf.len = BitVec.ofNat 4 (1 + bs.length) → s.rxf.data = BitVec.ofNat 8 bs.length :: bs →
      exec .parseWhich s = .next { s with
        state := .idle
        timer := 0
        out := { Outputs.quiet with
          event := .msgDelivered
          delivered := [{ address := s.rxf.id, bytes := bs, len := bs.length }] } }) ∧
    (∀ (size : Nat) (chunk : List Byte), 8 ≤ size → size ≤ 4095 → size ≤ s.cfg.maxBuffer →
      chunk.length = 6 → s.rxf.len = 8 →
      s.rxf.data = BitVec.ofNat 8 (0x10 + size / 256) :: BitVec.ofNat 8 (size % 256) :: chunk →
      ∃ m : Memory,
        exec .parseWhich s = .next { s with
          state := .checkRead
          timer := s.inp.now
          rx := { s.rx with size := BitVec.ofNat 12 size, position := 6, counter := 1, payload := m }
          out := Outputs.quiet } ∧
        (∀ i, i < 6 → Memory.read m i = chunk[i]?) ∧
        (∀ a, 6 ≤ a → Memory.read m a = Memory.read s.rx.payload a))

/-- 44_state_machine.md R186: `CheckSend` chooses the path from `tx.size` and `tx.position` alone, polls
nothing and sends nothing. -/
def Obligations.CheckSendChoosesThePath : Prop :=
  ∀ s : State, exec .checkSend s = .next
    (if s.tx.size.toNat = 0 then { s with state := .idle, timer := 0, out := Outputs.quiet }
    else if s.tx.size.toNat ≤ 7 then
      { s with state := .sendSingle, timer := s.inp.now, out := Outputs.quiet }
    else if s.tx.position.toNat = 0 then
      { s with state := .sendFirst, timer := s.inp.now, out := Outputs.quiet }
    else if s.tx.position.toNat < s.tx.size.toNat then
      { s with state := .sendConsecutive, timer := s.inp.now, out := Outputs.quiet }
    else
      { s with
        state := .idle, timer := 0
        tx := { s.tx with size := 0, position := 0, counter := 0 }, out := Outputs.quiet })

/-- 43_tx_segmentation.md R161, 41_frame_codec.md R126: `SendSingle` offers exactly one frame, PCI byte the
size and then the message, `len = 1 + size`; TX is cleared and the machine goes to `Idle` whether the send
succeeds or fails. -/
def Obligations.SendSingleSendsTheWholeMessage : Prop :=
  ∀ s : State, 1 ≤ s.tx.size.toNat → s.tx.size.toNat ≤ 7 → s.tx.size.toNat ≤ s.cfg.maxBuffer →
    Memory.holds s.tx.payload s.tx.size.toNat →
    ∃ p : List Byte,
      p.length = s.tx.size.toNat ∧ (∀ i, i < p.length → p[i]? = Memory.read s.tx.payload i) ∧
      exec .sendSingle s = .next { s with
        state := .idle
        timer := 0
        tx := { s.tx with size := 0, position := 0, counter := 0 }
        out := { Outputs.quiet with
          event := if s.inp.answers.sendOk = true then .txComplete else .busSendFail
          sent := [{ id := s.tx.address, len := BitVec.ofNat 4 (1 + p.length)
                     data := BitVec.ofNat 8 p.length :: p }] } }

/-- 43_tx_segmentation.md R162, 41_frame_codec.md R127: `SendFirst` sends from offset 0 whatever the
position was; after `ok` the position is 6 and the counter 1 and the machine is in `CheckCollision`; after
`err` TX is cleared and the machine is in `Idle`. -/
def Obligations.SendFirstSendsSixBytes : Prop :=
  ∀ s : State, 8 ≤ s.tx.size.toNat → 6 ≤ s.cfg.maxBuffer → Memory.holds s.tx.payload 6 →
    ∃ p : List Byte,
      p.length = 6 ∧ (∀ i, i < 6 → p[i]? = Memory.read s.tx.payload i) ∧
      let frame : Frame :=
        { id := s.tx.address, len := 8
          data := BitVec.ofNat 8 (0x10 + s.tx.size.toNat / 256) ::
            BitVec.ofNat 8 (s.tx.size.toNat % 256) :: p }
      exec .sendFirst s = .next
        (if s.inp.answers.sendOk = true then
          { s with
            state := .checkCollision
            timer := s.inp.now
            tx := { s.tx with position := 6, counter := 1 }
            out := { Outputs.quiet with sent := [frame] } }
        else
          { s with
            state := .idle
            timer := 0
            tx := { s.tx with size := 0, position := 0, counter := 0 }
            out := { Outputs.quiet with event := .busSendFail, sent := [frame] } })

/-- 43_tx_segmentation.md R163, 41_frame_codec.md R128: `SendConsecutive` sends the next `k = min(7, size -
position)` bytes under the counter; after `ok` position and counter advance, and the transfer ends when
the position reaches the size; after `err` TX is cleared. -/
def Obligations.SendConsecutiveSendsTheNextChunk : Prop :=
  ∀ s : State, 8 ≤ s.tx.size.toNat → 0 < s.tx.position.toNat → s.tx.position.toNat < s.tx.size.toNat →
    s.tx.size.toNat ≤ s.cfg.maxBuffer → Memory.holds s.tx.payload s.tx.size.toNat →
    let k := min 7 (s.tx.size.toNat - s.tx.position.toNat)
    ∃ chunk : List Byte,
      chunk.length = k ∧
      (∀ i, i < k → chunk[i]? = Memory.read s.tx.payload (s.tx.position.toNat + i)) ∧
      let frame : Frame :=
        { id := s.tx.address, len := BitVec.ofNat 4 (1 + k)
          data := BitVec.ofNat 8 (0x20 + s.tx.counter.toNat) :: chunk }
      exec .sendConsecutive s = .next
        (if s.inp.answers.sendOk = true then
          if s.tx.position.toNat + k = s.tx.size.toNat then
            { s with
              state := .idle
              timer := 0
              tx := { s.tx with size := 0, position := 0, counter := 0 }
              out := { Outputs.quiet with event := .txComplete, sent := [frame] } }
          else
            { s with
              state := .checkCollision
              timer := s.inp.now
              tx := { s.tx with
                position := BitVec.ofNat 12 (s.tx.position.toNat + k)
                counter := BitVec.ofNat 4 ((s.tx.counter.toNat + 1) % 16) }
              out := { Outputs.quiet with sent := [frame] } }
        else
          { s with
            state := .idle
            timer := 0
            tx := { s.tx with size := 0, position := 0, counter := 0 }
            out := { Outputs.quiet with event := .busSendFail, sent := [frame] } })

/-- 44_state_machine.md R193: the branches of the send states that cannot occur clear TX, go to `Idle`,
send no frame and raise nothing. -/
def Obligations.DeadSendBranchesClearAndIdle : Prop :=
  ∀ (s : State) (i : Instr),
    (i = .sendSingle ∧ ¬ (1 ≤ s.tx.size.toNat ∧ s.tx.size.toNat ≤ 7)) ∨
    (i = .sendFirst ∧ s.tx.size.toNat < 8) ∨
    (i = .sendConsecutive ∧
      ¬ (8 ≤ s.tx.size.toNat ∧ 0 < s.tx.position.toNat ∧ s.tx.position.toNat < s.tx.size.toNat)) →
    exec i s = .next { s with
      state := .idle, timer := 0
      tx := { s.tx with size := 0, position := 0, counter := 0 }, out := Outputs.quiet }

/-- 45_collision.md R214, 60_exceptions.md R264: a read that fails in the collision check discards both
transfers and goes to `Idle`. -/
def Obligations.CollisionCheckReadFailureEndsBoth : Prop :=
  ∀ s : State, s.inp.answers.avail = true → s.inp.answers.read = none →
    exec .checkCollision s = .next { s with
      state := .idle
      timer := 0
      rx := { s.rx with size := 0, position := 0, counter := 0 }
      tx := { s.tx with size := 0, position := 0, counter := 0 }
      out := { Outputs.quiet with event := .busReadFail, availCalls := 1, readCalls := 1 } }

/-- 45_collision.md R214, the collision: an admissible frame whose PCI byte is 0x10 to 0x2F, whatever its
size and length fields. Above OWN_ADDRESS the engine wins: rewind, `SendFirst`, RX untouched. Otherwise it
yields: `CheckRead`, TX not rewound, holdoff not armed. -/
def Obligations.CollisionCheckResolvesByAddress : Prop :=
  ∀ (s : State) (f : BusFrame) (b : Byte) (rest : List Byte),
    s.inp.answers.avail = true → s.inp.answers.read = some f →
    1 ≤ f.len.toNat → f.len.toNat ≤ 8 → f.lanes.toList = b :: rest →
    0x10 ≤ b.toNat → b.toNat ≤ 0x2F →
    exec .checkCollision s = .next
      (if s.cfg.ownAddress.toNat < f.id.toNat then
        { s with
          state := .sendFirst
          timer := s.inp.now
          rxf := { id := f.id, len := f.len, data := f.lanes.toList.take f.len.toNat }
          rx := { s.rx with address := f.id }
          tx := { s.tx with position := 0, counter := 1 }
          out := { Outputs.quiet with event := .collisionWin, availCalls := 1, readCalls := 1 } }
      else
        { s with
          state := .checkRead
          timer := s.inp.now
          rxf := { id := f.id, len := f.len, data := f.lanes.toList.take f.len.toNat }
          rx := { s.rx with address := f.id }
          out := { Outputs.quiet with event := .collisionYield, availCalls := 1, readCalls := 1 } })

/-- 45_collision.md R214, no collision, with 40_clock_timer.md R109 and R102: no frame, or a frame that is
inadmissible or whose PCI byte is outside 0x10 to 0x2F (consumed, never parsed or delivered, R215). The
machine goes to `SendConsecutive` when WAIT_TIME has passed since `timer` and stays otherwise. -/
def Obligations.CollisionCheckPacesTheNextFrame : Prop :=
  ∀ s : State,
    let w := 2 ^ s.cfg.clockWidth
    let isOpen := s.cfg.waitTime ≤ (s.inp.now + w - s.timer % w) % w
    (s.inp.answers.avail = false →
      exec .checkCollision s = .next
        (if isOpen then
          { s with
            state := .sendConsecutive, timer := s.inp.now
            out := { Outputs.quiet with availCalls := 1 } }
        else { s with out := { Outputs.quiet with availCalls := 1 } })) ∧
    (∀ (f : BusFrame) (b : Byte) (rest : List Byte),
      s.inp.answers.avail = true → s.inp.answers.read = some f → f.lanes.toList = b :: rest →
      f.len.toNat = 0 ∨ 8 < f.len.toNat ∨ b.toNat < 0x10 ∨ 0x2F < b.toNat →
      let s1 : State := { s with
        rxf := { id := f.id, len := f.len, data := f.lanes.toList.take f.len.toNat }
        rx := { s.rx with address := f.id }
        out := { Outputs.quiet with availCalls := 1, readCalls := 1 } }
      exec .checkCollision s = .next
        (if isOpen then { s1 with state := .sendConsecutive, timer := s.inp.now } else s1))

/-! ## Where the model stops -/

/-- Derived; log entries 5, 11 and 12. The model's stops, each outside the invariants R35, R36 or outside
the host interface: a consecutive frame with no byte remaining, an ill-formed `rxf`, a message whose first
byte was never written, a message longer than the buffer, a command number 3, a SEND whose bytes do not
number `len`. -/
def Obligations.ModelStopsByNameOutsideTheRules : Prop :=
  (∀ (id : Ident) (index : BitVec 4) (body : List Byte) (s : State),
    0 < s.rx.size.toNat → s.rx.size.toNat ≤ s.rx.position.toNat →
    exec (.cf id index body) s = .fault .nothingRemains) ∧
  (∀ s : State, s.rxf.admissible = true → s.rxf.wf = false →
    exec .parseWhich s = .fault .byteWithoutValue) ∧
  (∀ s : State, 8 ≤ s.tx.size.toNat → 6 ≤ s.cfg.maxBuffer → Memory.read s.tx.payload 0 = none →
    exec .sendFirst s = .fault .unwrittenByte) ∧
  (∀ s : State, 1 ≤ s.tx.size.toNat → s.tx.size.toNat ≤ 7 → s.cfg.maxBuffer < s.tx.size.toNat →
    exec .sendSingle s = .fault .bufferBounds) ∧
  (∀ (s : State) (r : HostRequest) (rest : List HostRequest), s.host = r :: rest → r.word.number = 3 →
    step s = .refused .reservedCommand) ∧
  (∀ (s : State) (r : HostRequest) (rest : List HostRequest) (bs : List Byte), s.host = r :: rest →
    r.word.number = 2 → r.word.bytes = some bs → bs.length ≠ r.word.len →
    step s = .refused .lengthMismatch)

/-! ## Encodings -/

/-- 41_frame_codec.md R131: decoding what an encoder built gives back its operands, for each class. -/
def Obligations.CodecRoundTrips : Prop :=
  (∀ (a : Ident) (p : List Byte), 1 ≤ p.length → p.length ≤ 7 →
    decodeSingle (encodeSingle a p.length p) = some p) ∧
  (∀ (a : Ident) (size : BitVec 12) (p : List Byte) (maxBuffer : Nat), 8 ≤ size.toNat →
    size.toNat ≤ maxBuffer → 6 ≤ p.length →
    decodeFirst maxBuffer (encodeFirst a size p) = some (size, p.take 6)) ∧
  (∀ (a : Ident) (c : BitVec 4) (chunk : List Byte) (remaining : Nat), 1 ≤ chunk.length →
    min 7 remaining = chunk.length →
    decodeConsecutive (encodeConsecutive a c chunk chunk.length) remaining = some (c, chunk))

/-- Decode and encode agree (30_encoding.md R80 to R91): every well-formed instruction is what the decoder
reads from its code, with every operand at every value; and every admissible frame is the code of the
well-formed instruction it decodes to, so no bit of a frame is lost. -/
def Obligations.DecodeAndEncodeAgree : Prop :=
  (∀ i : Instr, i.wellFormed = true → decode (encode i) = .ok i) ∧
  (∀ f : Frame, 1 ≤ f.len.toNat → f.len.toNat ≤ 8 → f.data.length = f.len.toNat →
    ∃ i : Instr, decodeFrame f = .ok i ∧ i.wellFormed = true ∧ encode i = .pci f)

/-- 30_encoding.md R87, R81: the complete map from `data[0]` to class, decided by the tag alone. -/
def Obligations.ClassIsDecidedByTheTagAlone : Prop :=
  ∀ (f : Frame) (b : Byte) (body : List Byte), f.data = b :: body → body.length ≤ 7 →
    f.len.toNat = 1 + body.length →
    decodeFrame f = .ok
      (if b.toNat < 0x10 then .sf f.id (BitVec.ofNat 4 b.toNat) body
      else if b.toNat < 0x20 then .ff f.id (BitVec.ofNat 4 b.toNat) body
      else if b.toNat < 0x30 then .cf f.id (BitVec.ofNat 4 b.toNat) body
      else if b.toNat < 0x40 then .fc f.id (BitVec.ofNat 4 b.toNat) body
      else if b.toNat < 0x80 then .unk47 f.id (BitVec.ofNat 6 b.toNat) body
      else .unk815 f.id (BitVec.ofNat 7 b.toNat) body)

/-- Words written out from the spec's layouts (30_encoding.md R82 to R85, R91; 10_state.md R21) decode to
the instruction they stand for; the reserved codes are refused by name. -/
def Obligations.WrittenOutWordsDecode : Prop :=
  decode (.pci { id := 0x321, len := 5, data := [0x04, 0xDE, 0xAD, 0xBE, 0xEF] }) =
      .ok (.sf 0x321 4 [0xDE, 0xAD, 0xBE, 0xEF]) ∧
  decode (.pci { id := 0x100, len := 8, data := [0x1A, 0xBC, 1, 2, 3, 4, 5, 6] }) =
      .ok (.ff 0x100 0xA [0xBC, 1, 2, 3, 4, 5, 6]) ∧
  decode (.pci { id := 0x100, len := 5, data := [0x2F, 7, 8, 9, 0x0A] }) =
      .ok (.cf 0x100 0xF [7, 8, 9, 0x0A]) ∧
  decode (.pci { id := 0x100, len := 3, data := [0x32, 0, 0] }) = .ok (.fc 0x100 2 [0, 0]) ∧
  decode (.pci { id := 0x100, len := 1, data := [0x7F] }) = .ok (.unk47 0x100 0x3F []) ∧
  decode (.pci { id := 0x100, len := 1, data := [0x81] }) = .ok (.unk815 0x100 1 []) ∧
  decode (.cmd { number := 1, now := 50, addr := 0, len := 0, bytes := none }) = .ok (.tick 50) ∧
  decode (.cmd { number := 3, now := 0, addr := 0, len := 0, bytes := none }) =
      .error .reservedCommand ∧
  decode (.stateReg 9) = .ok .checkCollision ∧
  decode (.stateReg 10) = .error .reservedState ∧
  decode (.pci { id := 0, len := 0, data := [] }) = .error .inadmissibleLength

/-! ## The machine as a whole -/

/-- A step runs the command at the head of the queue, decoded, with its own hook answers and the rest of
the queue left; with no command waiting a step changes nothing (20_memory.md R68, 60_exceptions.md R279;
the queue is log entry 1). -/
def Obligations.StepRunsTheDecodedCommand : Prop :=
  ∀ s : State,
    (s.host = [] → step s = .next s) ∧
    (∀ (r : HostRequest) (rest : List HostRequest) (i : Instr), s.host = r :: rest →
      decodeCmd r.word = .ok i →
      step s = exec i { s with host := rest, inp := { s.inp with answers := r.answers } })

/-- 10_state.md R46, R300: after reset of any instance the machine is `Disabled`, the timer, the six
transfer scalars and `hold.active` are 0, and no buffer byte holds a value. -/
def Obligations.ResetLeavesTheEngineDisabled : Prop :=
  ∀ p : Params,
    let s := State.resetWith p
    s.cfg = p ∧ s.state = .disabled ∧ s.timer = 0 ∧ s.hold.active = false ∧
    s.rx.size = 0 ∧ s.rx.position = 0 ∧ s.rx.counter = 0 ∧
    s.tx.size = 0 ∧ s.tx.position = 0 ∧ s.tx.counter = 0 ∧
    ∀ a, Memory.read s.rx.payload a = none ∧ Memory.read s.tx.payload a = none

/-- The invariant (10_state.md R35, R36, R37, 44_state_machine.md R193) holds after reset of every
instance whose parameters meet 00_scope.md R5. -/
def Obligations.ResetMeetsTheInvariant : Prop :=
  ∀ p : Params, p.Wf → (State.resetWith p).Inv

/-- Every step from a state that meets the invariant, whatever the host and the environment do, leads to
one that meets it (10_state.md R35, R36, R37). -/
def Obligations.EveryStepKeepsTheInvariant : Prop :=
  ∀ s t : State, s.Inv → step s = .next t → t.Inv

/-- From a state that meets the invariant no step faults: no byte without a value is read and no access
leaves a buffer (20_memory.md R66, 10_state.md R46), and a step whose command decodes answers a next
state. -/
def Obligations.NoStepFaultsUnderTheInvariant : Prop :=
  ∀ s : State, s.Inv →
    (∀ e, step s ≠ .fault e) ∧
    (∀ (r : HostRequest) (rest : List HostRequest) (i : Instr), s.host = r :: rest →
      decodeCmd r.word = .ok i → ∃ t, step s = .next t)

/-- Under the invariant every TICK completes, in every state of the machine, whatever the clock and the
hooks answer (47_host_commands.md R242: "the command always ends"), and so does the current state's
step. -/
def Obligations.EveryTickCompletesUnderTheInvariant : Prop :=
  ∀ (now : Nat) (s : State), s.Inv →
    (∃ t, exec (.tick now) s = .next t ∧ t.Inv) ∧ (∃ t, exec s.state.instr s = .next t ∧ t.Inv)

/-- 10_state.md R42: no operation writes a parameter. -/
def Obligations.ParametersAreNeverWritten : Prop :=
  ∀ (i : Instr) (s t : State), exec i s = .next t → t.cfg = s.cfg

/-- 60_exceptions.md R274, 44_state_machine.md R191: only BEGIN leaves `Disabled`, and no command
enters it. -/
def Obligations.OnlyBeginLeavesDisabled : Prop :=
  ∀ (i : Instr) (s t : State), exec i s = .next t →
    (s.state ≠ .disabled → t.state ≠ .disabled) ∧
    (i = .begin ∨ (∃ now, i = .tick now) ∨ (∃ now addr len bytes, i = .send now addr len bytes) →
      s.state = .disabled → t.state ≠ .disabled → i = .begin)

/-- 44_state_machine.md R192: every transition of a TICK is a row of the table, or the state timeout's to
`Idle`. -/
def Obligations.TicksFollowTheTransitionTable : Prop :=
  ∀ (now : Nat) (s t : State), exec (.tick now) s = .next t →
    (t.out.event = .timeout → t.state = .idle) ∧
    (t.out.event ≠ .timeout → tickGoes s.state t.state = true)

/-- 44_state_machine.md R194: the hooks a TICK calls, by state; never `BusRead` and `BusSend` in one
TICK; none in a TICK ended by the timeout. -/
def Obligations.HookCallsFollowTheStateTable : Prop :=
  ∀ (now : Nat) (s t : State), exec (.tick now) s = .next t →
    t.out.availCalls ≤ 1 ∧ t.out.readCalls ≤ 1 ∧ t.out.sent.length ≤ 1 ∧ t.out.delivered.length ≤ 1 ∧
    (t.out.readCalls = 0 ∨ t.out.sent = []) ∧
    (t.out.event = .timeout →
      t.out.availCalls = 0 ∧ t.out.readCalls = 0 ∧ t.out.sent = [] ∧ t.out.delivered = []) ∧
    (t.out.event ≠ .timeout →
      (t.out.availCalls = 1 ↔ s.state = .idle ∨ s.state = .checkRead ∨ s.state = .checkCollision) ∧
      (t.out.readCalls = 1 ↔
        s.state = .read ∨ (s.state = .checkCollision ∧ s.inp.answers.avail = true)) ∧
      (t.out.sent ≠ [] →
        s.state = .sendSingle ∨ s.state = .sendFirst ∨ s.state = .sendConsecutive) ∧
      (t.out.delivered ≠ [] → s.state = .parseWhich))

/-- 10_state.md R32, R28: `tx.payload` and `tx.address` are written by SEND only. -/
def Obligations.OnlySendWritesTheOutboundMessage : Prop :=
  ∀ (i : Instr) (s t : State), exec i s = .next t →
    (∀ now addr len bytes, i ≠ .send now addr len bytes) →
    t.tx.payload = s.tx.payload ∧ t.tx.address = s.tx.address

/-- 10_state.md R27: `rx.payload` is written by the first-frame stash and the consecutive-frame append
only, so by a TICK only in `ParseWhich`. -/
def Obligations.OnlyParsingWritesTheInboundBuffer : Prop :=
  ∀ (i : Instr) (s t : State), exec i s = .next t →
    (∀ id hi body, i ≠ .ff id hi body) → (∀ id index body, i ≠ .cf id index body) → i ≠ .parseWhich →
    (∀ now, i = .tick now → s.state ≠ .parseWhich) →
    t.rx.payload = s.rx.payload

/-- 10_state.md R40, R23: `rxf` and `rx.address` are written, together, by a successful `BusRead` in
`Read` or `CheckCollision`, with that frame, and by nothing else. -/
def Obligations.OnlyAReadWritesTheFrameRegister : Prop :=
  ∀ (i : Instr) (s t : State), exec i s = .next t →
    (t.rxf = s.rxf ∧ t.rx.address = s.rx.address) ∨
    ((i = .read ∨ i = .checkCollision ∨
        ∃ now, i = .tick now ∧ (s.state = .read ∨ s.state = .checkCollision)) ∧
      t.out.readCalls = 1 ∧
      ∃ f : BusFrame, s.inp.answers.read = some f ∧
        t.rxf = { id := f.id, len := f.len, data := f.lanes.toList.take f.len.toNat } ∧
        t.rx.address = f.id)

/-- 10_state.md R33: the holdoff pair is written by the yield branch of `Read`, by the gate when it opens
and by BEGIN; in particular not by the state timeout and not by SEND. -/
def Obligations.HoldoffPairHasThreeWriters : Prop :=
  ∀ (s t : State),
    (∀ now, exec (.tick now) s = .next t →
      t.hold = s.hold ∨
      (s.state = .read ∧ t.out.event = .collisionYield ∧
        t.hold = { active := true, start := now % 2 ^ s.cfg.clockWidth }) ∨
      (s.state = .idle ∧ t.state = .checkSend ∧ t.hold = { s.hold with active := false })) ∧
    (exec .begin s = .next t → t.hold = s.hold ∨ t.hold = { s.hold with active := false }) ∧
    (∀ now addr len bytes, exec (.send now addr len bytes) s = .next t → t.hold = s.hold)

/-- 10_state.md R38: at most one of the two transfers advances in one TICK. -/
def Obligations.AtMostOneTransferAdvancesPerTick : Prop :=
  ∀ (now : Nat) (s t : State), exec (.tick now) s = .next t →
    ¬ (s.rx.position.toNat < t.rx.position.toNat ∧ s.tx.position.toNat < t.tx.position.toNat)

/-- 60_exceptions.md R260, R263 to R267, R270: what each error a TICK reports does to the transfers and the
machine: only *Timeout* and *BusReadFail* end both, *BusSendFail* ends TX alone, a dropped frame ends
neither. -/
def Obligations.ErrorsEndExactlyTheirTransfers : Prop :=
  ∀ (now : Nat) (s t : State), exec (.tick now) s = .next t →
    (t.out.event = .busSendFail →
      (s.state = .sendSingle ∨ s.state = .sendFirst ∨ s.state = .sendConsecutive) ∧
      t.rx = s.rx ∧ t.tx = { s.tx with size := 0, position := 0, counter := 0 } ∧
      t.state = .idle ∧ t.timer = 0 ∧ t.rxf = s.rxf ∧ t.hold = s.hold) ∧
    (t.out.event = .busReadFail →
      s.state = .checkCollision ∧
      t.rx = { s.rx with size := 0, position := 0, counter := 0 } ∧
      t.tx = { s.tx with size := 0, position := 0, counter := 0 } ∧
      t.state = .idle ∧ t.timer = 0 ∧ t.rxf = s.rxf ∧ t.hold = s.hold) ∧
    (t.out.event = .timeout →
      s.state ≠ .disabled ∧
      t.rx = { s.rx with size := 0, position := 0, counter := 0 } ∧
      t.tx = { s.tx with size := 0, position := 0, counter := 0 } ∧
      t.state = .idle ∧ t.timer = 0 ∧ t.rxf = s.rxf ∧ t.hold = s.hold) ∧
    (t.out.event = .frameDropped →
      s.state = .parseWhich ∧ t.rx = s.rx ∧ t.tx = s.tx ∧ t.state = .checkRead ∧
      t.rxf = s.rxf ∧ t.hold = s.hold) ∧
    (t.out.event ≠ .invalidArgument ∧ t.out.event ≠ .busy ∧ t.out.event ≠ .sendAccepted)

/-- 42_rx_reassembly.md R151, 60_exceptions.md R276: under the invariant a delivered message has 1 to
MAX_BUFFER bytes, its length says so, and the TICK that delivers it reports `EV_MSG_DELIVERED` and ends in
`Idle`. -/
def Obligations.DeliveredMessagesFitTheBuffer : Prop :=
  ∀ (now : Nat) (s t : State) (m : Message), s.Inv → exec (.tick now) s = .next t →
    m ∈ t.out.delivered →
    m.len = m.bytes.length ∧ 1 ≤ m.len ∧ m.len ≤ s.cfg.maxBuffer ∧ t.out.event = .msgDelivered ∧
      t.state = .idle

/-- 30_encoding.md R80, R89, 10_state.md R28: under the invariant a frame handed to the bus carries
`tx.address` unchanged, has 2 to 8 data bytes and lists exactly those, and is a single, first or
consecutive frame with no reserved value. -/
def Obligations.SentFramesAreWellFormed : Prop :=
  ∀ (now : Nat) (s t : State) (f : Frame), s.Inv → exec (.tick now) s = .next t → f ∈ t.out.sent →
    f.id = s.tx.address ∧ 2 ≤ f.len.toNat ∧ f.len.toNat ≤ 8 ∧ f.data.length = f.len.toNat ∧
    ((∃ p, decodeSingle f = some p ∧ decodeFrame f = .ok (.sf f.id (BitVec.ofNat 4 p.length) p)) ∨
      (∃ hi body r, decodeFrame f = .ok (.ff f.id hi body) ∧ decodeFirst s.cfg.maxBuffer f = some r) ∨
      (∃ body, decodeFrame f = .ok (.cf f.id s.tx.counter body) ∧ 1 ≤ body.length))

/-- 00_scope.md R19, 30_encoding.md R80: the data bytes of a received frame at index `len` and above are
never inspected: two frames that agree on `id`, `len` and the first `len` bytes have the same effect. -/
def Obligations.BytesBeyondLenHaveNoEffect : Prop :=
  ∀ (i : Instr) (s t : State) (f g : BusFrame), f.id = g.id → f.len = g.len →
    f.lanes.toList.take f.len.toNat = g.lanes.toList.take g.len.toNat →
    exec i (s.withReadAnswer (some f)) = .next t →
    exec i (s.withReadAnswer (some g)) = .next (t.withReadAnswer (some g))

/-! ## Hazards the rules imply -/

/-- 70_reset_and_hazards.md R303: with `timer = 0` in `CheckRead` and no frame waiting, no TICK at any time
changes a register, and SEND stays busy. -/
def Obligations.ZeroTimerDisablesTheTimeout : Prop :=
  ∀ (now : Nat) (s : State), s.state = .checkRead → s.timer = 0 → s.inp.answers.avail = false →
    exec (.tick now) s = .next { s with
      inp := { s.inp with now := now % 2 ^ s.cfg.clockWidth }
      out := { Outputs.quiet with availCalls := 1 } } ∧
    (∀ (addr : Ident) (bs : List Byte), 0 < bs.length → bs.length ≤ 4095 →
      bs.length ≤ s.cfg.maxBuffer →
      ∃ t, exec (.send now addr bs.length (some bs)) s = .next t ∧ t.out.event = .busy ∧ t.tx = s.tx)

/-- 70_reset_and_hazards.md R304: in `Idle` with a reassembly in progress and no frame waiting, no TICK
starts a pending transfer and no timeout runs: the TICK changes no register. -/
def Obligations.IdleWithAReassemblyWaits : Prop :=
  ∀ (now : Nat) (s : State), s.Inv → s.state = .idle → 0 < s.rx.size.toNat →
    s.inp.answers.avail = false →
    exec (.tick now) s = .next { s with
      inp := { s.inp with now := now % 2 ^ s.cfg.clockWidth }
      out := { Outputs.quiet with availCalls := 1 } }

/-! ## Whole messages -/

/-- 43_tx_segmentation.md R168, 41_frame_codec.md R133, 44_state_machine.md R195: from `CheckSend` with a
loaded message of `L` bytes, no inbound traffic, every send answered `ok` and a TICK every `gap`
milliseconds, WAIT_TIME <= gap <= STATE_TIMEOUT, the next 2F TICKs hand exactly the F frames of the message
to the bus, in order, and leave the machine in `Idle` with TX clear. -/
def Obligations.UninterruptedTransferSendsTheMessage : Prop :=
  ∀ (s : State) (p : List Byte) (gap : Nat), s.Inv → s.state = .checkSend →
    1 ≤ p.length → s.tx.size.toNat = p.length → s.tx.position.toNat = 0 →
    (∀ i, i < p.length → Memory.read s.tx.payload i = p[i]?) →
    s.inp.answers.avail = false → s.inp.answers.sendOk = true →
    s.cfg.waitTime ≤ gap → gap ≤ s.cfg.stateTimeout →
    s.timer + 2 * frameCount p.length * gap < 2 ^ s.cfg.clockWidth →
    (messageFrames s.tx.address p).length = frameCount p.length ∧
    ∃ t : State,
      tickRun gap (2 * frameCount p.length) s.timer s = .next (t, messageFrames s.tx.address p) ∧
      t.state = .idle ∧ t.timer = 0 ∧ t.tx = { s.tx with size := 0, position := 0, counter := 0 } ∧
      t.out.event = .txComplete

/-- 42_rx_reassembly.md R151 (§8 property 1, receiving side): the frames of a message of 1 to MAX_BUFFER
bytes, parsed in order from any state, deliver exactly that message, once, and leave the machine in `Idle`;
a multi-frame message leaves RX clear. -/
def Obligations.ReceivedFramesDeliverTheMessage : Prop :=
  ∀ (s : State) (addr : Ident) (p : List Byte), s.cfg.Wf → 1 ≤ p.length →
    p.length ≤ s.cfg.maxBuffer →
    ∃ t : State,
      receiveAll (messageFrames addr p) s =
        .next (t, [{ address := addr, bytes := p, len := p.length }]) ∧
      t.state = .idle ∧ t.tx = s.tx ∧ (8 ≤ p.length → t.rx.size.toNat = 0)

/-- 45_collision.md R217, R211 (c): two engines in `CheckCollision`, each with the other's first frame
waiting and sending under its own address: the lower address goes back to `SendFirst`, the higher to
`CheckRead` with its transfer partway. Neither read fails; the answer to a send and the lanes above a
frame's bytes are whatever the environment makes them. The pair and its channel are the model's (log entry
13). -/
def Obligations.LowerAddressProceedsHigherYields : Prop :=
  ∀ (p : Pair) (now : Nat) (envA envB : BusInputs) (fa fb : Frame) (restA restB : List Frame)
    (da db : List Byte) (ba bb : Byte),
    p.toA = fb :: restA → p.toB = fa :: restB →
    envA.readFails = false → envB.readFails = false →
    p.a.state = .checkCollision → p.b.state = .checkCollision →
    now % 2 ^ p.a.cfg.clockWidth ≤ p.a.timer + p.a.cfg.stateTimeout →
    now % 2 ^ p.b.cfg.clockWidth ≤ p.b.timer + p.b.cfg.stateTimeout →
    fa.id = p.a.cfg.ownAddress → fb.id = p.b.cfg.ownAddress →
    p.a.cfg.ownAddress.toNat < p.b.cfg.ownAddress.toNat →
    fa.len.toNat = 8 → fa.data = ba :: da → ba.toNat / 16 = 1 →
    fb.len.toNat = 8 → fb.data = bb :: db → bb.toNat / 16 = 1 →
    ∃ p1 p2 : Pair,
      p.tickA now envA = .next p1 ∧ p1.tickB now envB = .next p2 ∧
      p2.a.state = .sendFirst ∧ p2.a.out.event = .collisionWin ∧ p2.toA = restA ∧
      p2.b.state = .checkRead ∧ p2.b.out.event = .collisionYield ∧ p2.toB = restB ∧
      p2.b.tx = p.b.tx

/-! ## Host procedures -/

/-- 46_pubsub_layer.md R230, R231: a publish message has `5 + topic + payload` bytes, kind 3 first, each
length a little-endian 16-bit number before its bytes; it is refused when it exceeds MAX_BUFFER. -/
def Obligations.PublishMessageLayout : Prop :=
  ∀ (maxBuffer : Nat) (topic payload : List Byte), maxBuffer ≤ 4095 →
    (maxBuffer < 5 + topic.length + payload.length → publishBytes maxBuffer topic payload = none) ∧
    (5 + topic.length + payload.length ≤ maxBuffer →
      ∃ lo hi lo' hi' : Byte,
        publishBytes maxBuffer topic payload =
          some ([0x03, lo, hi] ++ topic ++ [lo', hi'] ++ payload) ∧
        lo.toNat + 256 * hi.toNat = topic.length ∧ lo'.toNat + 256 * hi'.toNat = payload.length)

/-- 47_host_commands.md R247: on an idle machine with good arguments the blocking send returns ok at its
first SEND; with bad arguments InvalidArgument at once; on a busy machine Busy when `(clock() - t0) mod
2^CLOCK_WIDTH >= SEND_TIMEOUT`, and otherwise it goes on after one TICK, and what the SEND and the TICK put
out, a delivered message included, comes before the rest. A host procedure (log entry 15). -/
def Obligations.BlockingSendReturnsAsItsSendDoes : Prop :=
  ∀ (t0 : Nat) (addr : Ident) (turn : SpinInputs) (turns : List SpinInputs) (s : State),
    let w := 2 ^ s.cfg.clockWidth
    let waited := (turn.testClock % w + w - t0 % w) % w
    (∀ (len : Nat) (bytes : Option (List Byte)),
      bytes = none ∨ len = 0 ∨ 4095 < len ∨ s.cfg.maxBuffer < len →
      blockingSend t0 addr len bytes (turn :: turns) s = .next
        { status := .invalidArgument
          state := { s with
            inp := { s.inp with now := turn.sendClock % w }, out := Outputs.only .invalidArgument }
          outputs := [Outputs.only .invalidArgument] }) ∧
    (∀ bs : List Byte, 0 < bs.length → bs.length ≤ 4095 → bs.length ≤ s.cfg.maxBuffer →
      (s.state = .idle →
        ∃ t, exec (.send turn.sendClock addr bs.length (some bs)) s = .next t ∧
          blockingSend t0 addr bs.length (some bs) (turn :: turns) s = .next
            { status := .ok, state := t, outputs := [Outputs.only .sendAccepted] }) ∧
      (s.state ≠ .idle → s.cfg.sendTimeout ≤ waited →
        blockingSend t0 addr bs.length (some bs) (turn :: turns) s = .next
          { status := .busy
            state := { s with
              inp := { s.inp with now := turn.sendClock % w }, out := Outputs.only .busy }
            outputs := [Outputs.only .busy] }) ∧
      (s.state ≠ .idle → waited < s.cfg.sendTimeout →
        ∀ (t : State) (r : SendReturn),
          exec (.tick turn.tickClock) { s with
            inp := { now := turn.sendClock % w, answers := turn.answers }
            out := Outputs.only .busy } = .next t →
          blockingSend t0 addr bs.length (some bs) turns t = .next r →
          blockingSend t0 addr bs.length (some bs) (turn :: turns) s = .next
            { r with outputs := Outputs.only .busy :: t.out :: r.outputs }))

/-- 47_host_commands.md R248, 46_pubsub_layer.md R231, R232: `publish` refuses an oversized message without
issuing SEND; otherwise it is the blocking send of the message's bytes, and on an idle machine the message
stands in TX, after one SEND. Without an address OWN_ADDRESS is used (R249, the spec's decision D23). A host
procedure (log entry 15). -/
def Obligations.PublishSendsTheEncodedMessage : Prop :=
  ∀ (t0 : Nat) (addr : Option Ident) (topic payload : List Byte) (s : State), s.cfg.maxBuffer ≤ 4095 →
    let n := 5 + topic.length + payload.length
    (s.cfg.maxBuffer < n → ∀ turns : List SpinInputs,
      publish t0 addr topic payload turns s =
        .next { status := .invalidArgument, state := s, outputs := [] }) ∧
    (n ≤ s.cfg.maxBuffer →
      ∃ lo hi lo' hi' : Byte,
        let m := [0x03, lo, hi] ++ topic ++ [lo', hi'] ++ payload
        lo.toNat + 256 * hi.toNat = topic.length ∧ lo'.toNat + 256 * hi'.toNat = payload.length ∧
        (∀ turns : List SpinInputs,
          publish t0 addr topic payload turns s =
            blockingSend t0 (addr.getD s.cfg.ownAddress) n (some m) turns s) ∧
        (s.state = .idle → ∀ (turn : SpinInputs) (turns : List SpinInputs),
          ∃ t, publish t0 addr topic payload (turn :: turns) s = .next
              { status := .ok, state := t, outputs := [Outputs.only .sendAccepted] } ∧
            t.state = .checkSend ∧ t.tx.address = addr.getD s.cfg.ownAddress ∧ t.tx.size.toNat = n ∧
            t.tx.position.toNat = 0 ∧ t.rx = s.rx ∧
            (∀ i, i < n → Memory.read t.tx.payload i = m[i]?)))
end

