-- ==== Sys2Proof/Laws/Codec.lean ====
section
/-! SUPPORT. What each codec function answers, one lemma per function and outcome: the fields of a PCI byte,
the class of a byte by its value, the three field checks, and the bytes of the built frames. -/

namespace Sys2Proof.Machine

/-! ## The PCI byte -/

theorem classify_toNat (b : Byte) : (classify b).toNat = b.toNat / 16 := by
  have := b.isLt
  simp only [classify, BitVec.extractLsb'_toNat, Nat.shiftRight_eq_div_pow]
  omega

theorem lowNibble_toNat (b : Byte) : (lowNibble b).toNat = b.toNat % 16 := by
  simp [lowNibble, BitVec.extractLsb'_toNat]

theorem lowNibble_eq (b : Byte) : lowNibble b = BitVec.ofNat 4 b.toNat := by
  apply BitVec.eq_of_toNat_eq
  simp [lowNibble_toNat]

theorem pciByte_toNat (tag lo : BitVec 4) : (pciByte tag lo).toNat = tag.toNat * 16 + lo.toNat := by
  have h := lo.isLt
  simp only [pciByte, BitVec.toNat_append]
  rw [← Nat.shiftLeft_add_eq_or_of_lt h, Nat.shiftLeft_eq]

theorem classify_pciByte (tag lo : BitVec 4) : classify (pciByte tag lo) = tag := by
  apply BitVec.eq_of_toNat_eq
  have := lo.isLt
  rw [classify_toNat, pciByte_toNat]
  omega

theorem lowNibble_pciByte (tag lo : BitVec 4) : lowNibble (pciByte tag lo) = lo := by
  apply BitVec.eq_of_toNat_eq
  have := lo.isLt
  rw [lowNibble_toNat, pciByte_toNat]
  omega

/-- The PCI byte as a number: tag times 16 plus the class-specific field. -/
theorem pciByte_eq_ofNat (tag lo : BitVec 4) : pciByte tag lo = BitVec.ofNat 8 (tag.toNat * 16 + lo.toNat) := by
  rw [← pciByte_toNat]
  simp

/-- The class of a PCI byte by its value (30_encoding.md R87). -/
theorem decodeClass_eq (id : Ident) (b : Byte) (body : List Byte) :
    decodeClass id b body =
      if b.toNat < 0x10 then .sf id (BitVec.ofNat 4 b.toNat) body
      else if b.toNat < 0x20 then .ff id (BitVec.ofNat 4 b.toNat) body
      else if b.toNat < 0x30 then .cf id (BitVec.ofNat 4 b.toNat) body
      else if b.toNat < 0x40 then .fc id (BitVec.ofNat 4 b.toNat) body
      else if b.toNat < 0x80 then .unk47 id (BitVec.ofNat 6 b.toNat) body
      else .unk815 id (BitVec.ofNat 7 b.toNat) body := by
  have h6 : b.extractLsb' 0 6 = BitVec.ofNat 6 b.toNat := by
    apply BitVec.eq_of_toNat_eq; simp
  have h7 : b.extractLsb' 0 7 = BitVec.ofNat 7 b.toNat := by
    apply BitVec.eq_of_toNat_eq; simp
  have hlt := b.isLt
  unfold decodeClass
  rw [classify_toNat, lowNibble_eq, h6, h7]
  by_cases h0 : b.toNat < 0x10
  · rw [if_pos h0, show b.toNat / 16 = 0 by omega]
    rfl
  rw [if_neg h0]
  by_cases h1 : b.toNat < 0x20
  · rw [if_pos h1, show b.toNat / 16 = 1 by omega]
    rfl
  rw [if_neg h1]
  by_cases h2 : b.toNat < 0x30
  · rw [if_pos h2, show b.toNat / 16 = 2 by omega]
    rfl
  rw [if_neg h2]
  by_cases h3 : b.toNat < 0x40
  · rw [if_pos h3, show b.toNat / 16 = 3 by omega]
    rfl
  rw [if_neg h3]
  obtain ⟨t, ht⟩ : ∃ t, b.toNat / 16 = t + 4 := ⟨b.toNat / 16 - 4, by omega⟩
  rw [ht]
  by_cases h4 : b.toNat < 0x80
  · rw [if_pos h4]
    exact if_pos (by omega)
  · rw [if_neg h4]
    exact if_neg (by omega)

/-! ## Field checks -/

theorem singleFields_valid {size : BitVec 4} {body : List Byte}
    (h : 1 ≤ size.toNat ∧ size.toNat ≤ 7 ∧ size.toNat = body.length) :
    singleFields size body = some body := by
  unfold singleFields
  rw [if_pos h, h.2.2, List.take_length]

theorem singleFields_invalid {size : BitVec 4} {body : List Byte}
    (h : ¬ (1 ≤ size.toNat ∧ size.toNat ≤ 7 ∧ size.toNat = body.length)) :
    singleFields size body = none := by
  unfold singleFields
  rw [if_neg h]

theorem firstSize_toNat (hi : BitVec 4) (lo : Byte) :
    (firstSize hi lo).toNat = hi.toNat * 256 + lo.toNat := by
  have h := lo.isLt
  simp only [firstSize, BitVec.toNat_append]
  rw [← Nat.shiftLeft_add_eq_or_of_lt h, Nat.shiftLeft_eq]

theorem firstSize_eq (hi : BitVec 4) (lo : Byte) :
    firstSize hi lo = BitVec.ofNat 12 (hi.toNat * 256 + lo.toNat) := by
  rw [← firstSize_toNat]
  simp

theorem firstFields_valid {maxBuffer : Nat} {hi : BitVec 4} {lo : Byte} {chunk : List Byte}
    (hc : chunk.length = 6) (h8 : 8 ≤ hi.toNat * 256 + lo.toNat)
    (hm : hi.toNat * 256 + lo.toNat ≤ maxBuffer) :
    firstFields maxBuffer hi (lo :: chunk) = some (firstSize hi lo, chunk) := by
  have := hi.isLt
  have := lo.isLt
  unfold firstFields
  rw [if_pos (by simp [hc])]
  show (if _ then some (firstSize hi lo, chunk) else none) = _
  rw [if_pos (by rw [firstSize_toNat]; omega)]

/-- Everything an accepted first frame says (41_frame_codec.md R123). -/
theorem firstFields_cases {maxBuffer : Nat} {hi : BitVec 4} {body chunk : List Byte} {size : BitVec 12}
    (h : firstFields maxBuffer hi body = some (size, chunk)) :
    ∃ lo, body = lo :: chunk ∧ chunk.length = 6 ∧ size = firstSize hi lo ∧ 8 ≤ size.toNat ∧
      size.toNat ≤ maxBuffer := by
  unfold firstFields at h
  split at h
  · rename_i hl
    split at h
    · cases h
    · rename_i lo rest
      dsimp only at h
      split at h
      · rename_i hs
        cases h
        exact ⟨lo, rfl, by simpa using hl, rfl, hs.1, hs.2.2⟩
      · cases h
  · cases h

theorem consecutiveFields_valid {remaining : Nat} {index : BitVec 4} {body : List Byte}
    (h : min 7 remaining ≤ body.length) :
    consecutiveFields remaining index body = some (index, body.take (min 7 remaining)) := by
  unfold consecutiveFields chunkLength
  rw [if_neg (Nat.not_lt.2 h)]

theorem consecutiveFields_short {remaining : Nat} {index : BitVec 4} {body : List Byte}
    (h : body.length < min 7 remaining) : consecutiveFields remaining index body = none := by
  unfold consecutiveFields chunkLength
  rw [if_pos h]

/-- Everything an accepted consecutive frame says (41_frame_codec.md R124). -/
theorem consecutiveFields_cases {remaining : Nat} {index j : BitVec 4} {body chunk : List Byte}
    (h : consecutiveFields remaining index body = some (j, chunk)) :
    j = index ∧ chunk = body.take (min 7 remaining) ∧ chunk.length = min 7 remaining := by
  unfold consecutiveFields chunkLength at h
  split at h
  · cases h
  · rename_i hl
    cases h
    exact ⟨rfl, rfl, by simp; omega⟩

/-! ## Counters and positions -/

theorem nextCounter_eq (c : BitVec 4) : nextCounter c = BitVec.ofNat 4 ((c.toNat + 1) % 16) := by
  apply BitVec.eq_of_toNat_eq
  simp [nextCounter]

theorem add_ofNat_eq (x : BitVec 12) (n : Nat) : x + BitVec.ofNat 12 n = BitVec.ofNat 12 (x.toNat + n) := by
  apply BitVec.eq_of_toNat_eq
  simp

/-- A position advanced by less than the 12-bit range is the sum. -/
theorem add_ofNat_toNat {x : BitVec 12} {n : Nat} (h : x.toNat + n < 4096) :
    (x + BitVec.ofNat 12 n).toNat = x.toNat + n := by
  rw [add_ofNat_eq, BitVec.toNat_ofNat]
  exact Nat.mod_eq_of_lt h

/-! ## Built frames -/

theorem encodeSingle_eq {addr : Ident} {p : List Byte} (h : p.length ≤ 7) :
    encodeSingle addr p.length p =
      { id := addr, len := BitVec.ofNat 4 (1 + p.length), data := BitVec.ofNat 8 p.length :: p } := by
  unfold encodeSingle
  have h16 : p.length % 16 = p.length := Nat.mod_eq_of_lt (by omega)
  rw [pciByte_eq_ofNat, List.take_length]
  simp [h16]

theorem encodeFirst_eq {addr : Ident} {size : BitVec 12} {p : List Byte} (h : p.length = 6) :
    encodeFirst addr size p =
      { id := addr, len := 8
        data := BitVec.ofNat 8 (0x10 + size.toNat / 256) :: BitVec.ofNat 8 (size.toNat % 256) :: p } := by
  have hlt := size.isLt
  unfold encodeFirst
  rw [pciByte_eq_ofNat, List.take_of_length_le (by omega)]
  have h1 : (size.extractLsb' 8 4).toNat = size.toNat / 256 := by
    simp only [BitVec.extractLsb'_toNat, Nat.shiftRight_eq_div_pow]; omega
  have h2 : size.extractLsb' 0 8 = BitVec.ofNat 8 (size.toNat % 256) := by
    apply BitVec.eq_of_toNat_eq; simp
  rw [h1, h2]
  rfl

theorem encodeConsecutive_eq {addr : Ident} {counter : BitVec 4} {c : List Byte} {k : Nat}
    (h : c.length = k) :
    encodeConsecutive addr counter c k =
      { id := addr, len := BitVec.ofNat 4 (1 + k), data := BitVec.ofNat 8 (0x20 + counter.toNat) :: c } := by
  unfold encodeConsecutive
  rw [pciByte_eq_ofNat, List.take_of_length_le (by omega)]
  rfl

/-! ## Frames read from the bus -/

theorem BusFrame.captured_wf (f : BusFrame) : (BusFrame.captured f).wf = true := by
  simp only [Frame.wf, BusFrame.captured, List.length_take, decide_eq_true_eq]
  have : f.lanes.toList.length = 8 := by simp
  omega

/-- Whether a frame record collides, from its first byte (45_collision.md R214). -/
theorem Frame.collides_cons {f : Frame} {b : Byte} {rest : List Byte} (h : f.data = b :: rest) :
    Frame.collides f = true ↔ f.admissible = true ∧ 0x10 ≤ b.toNat ∧ b.toNat ≤ 0x2F := by
  have := b.isLt
  simp only [Frame.collides, h, Bool.and_eq_true, Bool.or_eq_true, decide_eq_true_eq, classify_toNat]
  constructor <;> rintro ⟨h1, h2⟩ <;> exact ⟨h1, by omega⟩

/-- An admissible well-formed frame is a first byte and `len - 1` more. -/
theorem Frame.data_of_admissible {f : Frame} (ha : f.admissible = true) (hw : f.wf = true) :
    ∃ b body, f.data = b :: body ∧ f.len.toNat = 1 + body.length ∧ body.length ≤ 7 := by
  simp only [Frame.admissible, Bool.and_eq_true, decide_eq_true_eq] at ha
  simp only [Frame.wf, decide_eq_true_eq] at hw
  cases hd : f.data with
  | nil => rw [hd] at hw; simp at hw; omega
  | cons b body =>
    rw [hd] at hw
    simp only [List.length_cons] at hw
    exact ⟨b, body, rfl, by omega, by omega⟩

/-- Such a frame decodes to its class. -/
theorem decodeFrame_cons {f : Frame} {b : Byte} {body : List Byte} (hd : f.data = b :: body)
    (hl : f.len.toNat = 1 + body.length) (hb : body.length ≤ 7) :
    decodeFrame f = .ok (decodeClass f.id b body) := by
  have ha : f.admissible = true := by
    simp only [Frame.admissible, Bool.and_eq_true, decide_eq_true_eq]; omega
  have hw : f.wf = true := by
    simp only [Frame.wf, decide_eq_true_eq, hd, List.length_cons]; omega
  simp [decodeFrame, ha, hw, hd]

end Sys2Proof.Machine
end

