-- ==== Sys2Proof/Laws/State.lean ====
section
/-! SUPPORT. What each shared update of the state leaves in each field, one lemma per field per update, so
that no later proof unfolds a record update. -/

namespace Sys2Proof.Machine

variable (s : State)

/-! ### fresh -/

@[simp] theorem State.fresh_cfg : (s.fresh).cfg = s.cfg := rfl
@[simp] theorem State.fresh_state : (s.fresh).state = s.state := rfl
@[simp] theorem State.fresh_timer : (s.fresh).timer = s.timer := rfl
@[simp] theorem State.fresh_rx : (s.fresh).rx = s.rx := rfl
@[simp] theorem State.fresh_tx : (s.fresh).tx = s.tx := rfl
@[simp] theorem State.fresh_rxf : (s.fresh).rxf = s.rxf := rfl
@[simp] theorem State.fresh_hold : (s.fresh).hold = s.hold := rfl
@[simp] theorem State.fresh_inp : (s.fresh).inp = s.inp := rfl
@[simp] theorem State.fresh_host : (s.fresh).host = s.host := rfl
@[simp] theorem State.fresh_out : (s.fresh).out = Outputs.quiet := rfl

/-! ### raise -/

@[simp] theorem State.raise_cfg (e : Event) : (s.raise e).cfg = s.cfg := rfl
@[simp] theorem State.raise_state (e : Event) : (s.raise e).state = s.state := rfl
@[simp] theorem State.raise_timer (e : Event) : (s.raise e).timer = s.timer := rfl
@[simp] theorem State.raise_rx (e : Event) : (s.raise e).rx = s.rx := rfl
@[simp] theorem State.raise_tx (e : Event) : (s.raise e).tx = s.tx := rfl
@[simp] theorem State.raise_rxf (e : Event) : (s.raise e).rxf = s.rxf := rfl
@[simp] theorem State.raise_hold (e : Event) : (s.raise e).hold = s.hold := rfl
@[simp] theorem State.raise_inp (e : Event) : (s.raise e).inp = s.inp := rfl
@[simp] theorem State.raise_host (e : Event) : (s.raise e).host = s.host := rfl
@[simp] theorem State.raise_out (e : Event) : (s.raise e).out = { s.out with event := e } := rfl

/-! ### deliver -/

@[simp] theorem State.deliver_cfg (a : Ident) (b : List Byte) (n : Nat) :
    (s.deliver a b n).cfg = s.cfg := rfl
@[simp] theorem State.deliver_state (a : Ident) (b : List Byte) (n : Nat) :
    (s.deliver a b n).state = s.state := rfl
@[simp] theorem State.deliver_timer (a : Ident) (b : List Byte) (n : Nat) :
    (s.deliver a b n).timer = s.timer := rfl
@[simp] theorem State.deliver_rx (a : Ident) (b : List Byte) (n : Nat) : (s.deliver a b n).rx = s.rx := rfl
@[simp] theorem State.deliver_tx (a : Ident) (b : List Byte) (n : Nat) : (s.deliver a b n).tx = s.tx := rfl
@[simp] theorem State.deliver_rxf (a : Ident) (b : List Byte) (n : Nat) :
    (s.deliver a b n).rxf = s.rxf := rfl
@[simp] theorem State.deliver_hold (a : Ident) (b : List Byte) (n : Nat) :
    (s.deliver a b n).hold = s.hold := rfl
@[simp] theorem State.deliver_inp (a : Ident) (b : List Byte) (n : Nat) :
    (s.deliver a b n).inp = s.inp := rfl
@[simp] theorem State.deliver_host (a : Ident) (b : List Byte) (n : Nat) :
    (s.deliver a b n).host = s.host := rfl
@[simp] theorem State.deliver_out (a : Ident) (b : List Byte) (n : Nat) :
    (s.deliver a b n).out = { s.out with
    delivered := s.out.delivered ++ [{ address := a, bytes := b, len := n }] } := rfl

/-! ### sampleClock -/

@[simp] theorem State.sampleClock_cfg (t : Nat) : (s.sampleClock t).cfg = s.cfg := rfl
@[simp] theorem State.sampleClock_state (t : Nat) : (s.sampleClock t).state = s.state := rfl
@[simp] theorem State.sampleClock_timer (t : Nat) : (s.sampleClock t).timer = s.timer := rfl
@[simp] theorem State.sampleClock_rx (t : Nat) : (s.sampleClock t).rx = s.rx := rfl
@[simp] theorem State.sampleClock_tx (t : Nat) : (s.sampleClock t).tx = s.tx := rfl
@[simp] theorem State.sampleClock_rxf (t : Nat) : (s.sampleClock t).rxf = s.rxf := rfl
@[simp] theorem State.sampleClock_hold (t : Nat) : (s.sampleClock t).hold = s.hold := rfl
@[simp] theorem State.sampleClock_inp (t : Nat) :
    (s.sampleClock t).inp = { s.inp with now := Params.sample s.cfg t } := rfl
@[simp] theorem State.sampleClock_host (t : Nat) : (s.sampleClock t).host = s.host := rfl
@[simp] theorem State.sampleClock_out (t : Nat) : (s.sampleClock t).out = s.out := rfl

/-! ### enter -/

@[simp] theorem State.enter_cfg (t : SeqState) : (s.enter t).cfg = s.cfg := rfl
@[simp] theorem State.enter_state (t : SeqState) : (s.enter t).state = t := rfl
@[simp] theorem State.enter_timer (t : SeqState) : (s.enter t).timer = if t = .idle then 0 else s.now := rfl
@[simp] theorem State.enter_rx (t : SeqState) : (s.enter t).rx = s.rx := rfl
@[simp] theorem State.enter_tx (t : SeqState) : (s.enter t).tx = s.tx := rfl
@[simp] theorem State.enter_rxf (t : SeqState) : (s.enter t).rxf = s.rxf := rfl
@[simp] theorem State.enter_hold (t : SeqState) : (s.enter t).hold = s.hold := rfl
@[simp] theorem State.enter_inp (t : SeqState) : (s.enter t).inp = s.inp := rfl
@[simp] theorem State.enter_host (t : SeqState) : (s.enter t).host = s.host := rfl
@[simp] theorem State.enter_out (t : SeqState) : (s.enter t).out = s.out := rfl

/-! ### setRx -/

@[simp] theorem State.setRx_cfg (t : Transfer) : (s.setRx t).cfg = s.cfg := rfl
@[simp] theorem State.setRx_state (t : Transfer) : (s.setRx t).state = s.state := rfl
@[simp] theorem State.setRx_timer (t : Transfer) : (s.setRx t).timer = s.timer := rfl
@[simp] theorem State.setRx_rx (t : Transfer) : (s.setRx t).rx = t := rfl
@[simp] theorem State.setRx_tx (t : Transfer) : (s.setRx t).tx = s.tx := rfl
@[simp] theorem State.setRx_rxf (t : Transfer) : (s.setRx t).rxf = s.rxf := rfl
@[simp] theorem State.setRx_hold (t : Transfer) : (s.setRx t).hold = s.hold := rfl
@[simp] theorem State.setRx_inp (t : Transfer) : (s.setRx t).inp = s.inp := rfl
@[simp] theorem State.setRx_host (t : Transfer) : (s.setRx t).host = s.host := rfl
@[simp] theorem State.setRx_out (t : Transfer) : (s.setRx t).out = s.out := rfl

/-! ### setTx -/

@[simp] theorem State.setTx_cfg (t : Transfer) : (s.setTx t).cfg = s.cfg := rfl
@[simp] theorem State.setTx_state (t : Transfer) : (s.setTx t).state = s.state := rfl
@[simp] theorem State.setTx_timer (t : Transfer) : (s.setTx t).timer = s.timer := rfl
@[simp] theorem State.setTx_rx (t : Transfer) : (s.setTx t).rx = s.rx := rfl
@[simp] theorem State.setTx_tx (t : Transfer) : (s.setTx t).tx = t := rfl
@[simp] theorem State.setTx_rxf (t : Transfer) : (s.setTx t).rxf = s.rxf := rfl
@[simp] theorem State.setTx_hold (t : Transfer) : (s.setTx t).hold = s.hold := rfl
@[simp] theorem State.setTx_inp (t : Transfer) : (s.setTx t).inp = s.inp := rfl
@[simp] theorem State.setTx_host (t : Transfer) : (s.setTx t).host = s.host := rfl
@[simp] theorem State.setTx_out (t : Transfer) : (s.setTx t).out = s.out := rfl

/-! ### clearRx -/

@[simp] theorem State.clearRx_cfg : (s.clearRx).cfg = s.cfg := rfl
@[simp] theorem State.clearRx_state : (s.clearRx).state = s.state := rfl
@[simp] theorem State.clearRx_timer : (s.clearRx).timer = s.timer := rfl
@[simp] theorem State.clearRx_rx : (s.clearRx).rx = s.rx.clear := rfl
@[simp] theorem State.clearRx_tx : (s.clearRx).tx = s.tx := rfl
@[simp] theorem State.clearRx_rxf : (s.clearRx).rxf = s.rxf := rfl
@[simp] theorem State.clearRx_hold : (s.clearRx).hold = s.hold := rfl
@[simp] theorem State.clearRx_inp : (s.clearRx).inp = s.inp := rfl
@[simp] theorem State.clearRx_host : (s.clearRx).host = s.host := rfl
@[simp] theorem State.clearRx_out : (s.clearRx).out = s.out := rfl

/-! ### clearTx -/

@[simp] theorem State.clearTx_cfg : (s.clearTx).cfg = s.cfg := rfl
@[simp] theorem State.clearTx_state : (s.clearTx).state = s.state := rfl
@[simp] theorem State.clearTx_timer : (s.clearTx).timer = s.timer := rfl
@[simp] theorem State.clearTx_rx : (s.clearTx).rx = s.rx := rfl
@[simp] theorem State.clearTx_tx : (s.clearTx).tx = s.tx.clear := rfl
@[simp] theorem State.clearTx_rxf : (s.clearTx).rxf = s.rxf := rfl
@[simp] theorem State.clearTx_hold : (s.clearTx).hold = s.hold := rfl
@[simp] theorem State.clearTx_inp : (s.clearTx).inp = s.inp := rfl
@[simp] theorem State.clearTx_host : (s.clearTx).host = s.host := rfl
@[simp] theorem State.clearTx_out : (s.clearTx).out = s.out := rfl

/-! ### rewindTx -/

@[simp] theorem State.rewindTx_cfg : (s.rewindTx).cfg = s.cfg := rfl
@[simp] theorem State.rewindTx_state : (s.rewindTx).state = s.state := rfl
@[simp] theorem State.rewindTx_timer : (s.rewindTx).timer = s.timer := rfl
@[simp] theorem State.rewindTx_rx : (s.rewindTx).rx = s.rx := rfl
@[simp] theorem State.rewindTx_tx : (s.rewindTx).tx = s.tx.rewind := rfl
@[simp] theorem State.rewindTx_rxf : (s.rewindTx).rxf = s.rxf := rfl
@[simp] theorem State.rewindTx_hold : (s.rewindTx).hold = s.hold := rfl
@[simp] theorem State.rewindTx_inp : (s.rewindTx).inp = s.inp := rfl
@[simp] theorem State.rewindTx_host : (s.rewindTx).host = s.host := rfl
@[simp] theorem State.rewindTx_out : (s.rewindTx).out = s.out := rfl

/-! ### askedAvailable -/

@[simp] theorem State.askedAvailable_cfg : (s.askedAvailable).cfg = s.cfg := rfl
@[simp] theorem State.askedAvailable_state : (s.askedAvailable).state = s.state := rfl
@[simp] theorem State.askedAvailable_timer : (s.askedAvailable).timer = s.timer := rfl
@[simp] theorem State.askedAvailable_rx : (s.askedAvailable).rx = s.rx := rfl
@[simp] theorem State.askedAvailable_tx : (s.askedAvailable).tx = s.tx := rfl
@[simp] theorem State.askedAvailable_rxf : (s.askedAvailable).rxf = s.rxf := rfl
@[simp] theorem State.askedAvailable_hold : (s.askedAvailable).hold = s.hold := rfl
@[simp] theorem State.askedAvailable_inp : (s.askedAvailable).inp = s.inp := rfl
@[simp] theorem State.askedAvailable_host : (s.askedAvailable).host = s.host := rfl
@[simp] theorem State.askedAvailable_out :
    (s.askedAvailable).out = { s.out with availCalls := s.out.availCalls + 1 } := rfl

/-! ### askedRead -/

@[simp] theorem State.askedRead_cfg : (s.askedRead).cfg = s.cfg := rfl
@[simp] theorem State.askedRead_state : (s.askedRead).state = s.state := rfl
@[simp] theorem State.askedRead_timer : (s.askedRead).timer = s.timer := rfl
@[simp] theorem State.askedRead_rx : (s.askedRead).rx = s.rx := rfl
@[simp] theorem State.askedRead_tx : (s.askedRead).tx = s.tx := rfl
@[simp] theorem State.askedRead_rxf : (s.askedRead).rxf = s.rxf := rfl
@[simp] theorem State.askedRead_hold : (s.askedRead).hold = s.hold := rfl
@[simp] theorem State.askedRead_inp : (s.askedRead).inp = s.inp := rfl
@[simp] theorem State.askedRead_host : (s.askedRead).host = s.host := rfl
@[simp] theorem State.askedRead_out :
    (s.askedRead).out = { s.out with readCalls := s.out.readCalls + 1 } := rfl

/-! ### capture -/

@[simp] theorem State.capture_cfg (f : Frame) : (s.capture f).cfg = s.cfg := rfl
@[simp] theorem State.capture_state (f : Frame) : (s.capture f).state = s.state := rfl
@[simp] theorem State.capture_timer (f : Frame) : (s.capture f).timer = s.timer := rfl
@[simp] theorem State.capture_rx (f : Frame) : (s.capture f).rx = { s.rx with address := f.id } := rfl
@[simp] theorem State.capture_tx (f : Frame) : (s.capture f).tx = s.tx := rfl
@[simp] theorem State.capture_rxf (f : Frame) : (s.capture f).rxf = f := rfl
@[simp] theorem State.capture_hold (f : Frame) : (s.capture f).hold = s.hold := rfl
@[simp] theorem State.capture_inp (f : Frame) : (s.capture f).inp = s.inp := rfl
@[simp] theorem State.capture_host (f : Frame) : (s.capture f).host = s.host := rfl
@[simp] theorem State.capture_out (f : Frame) : (s.capture f).out = s.out := rfl

/-! ### busSend -/

@[simp] theorem State.busSend_cfg (f : Frame) : (s.busSend f).cfg = s.cfg := rfl
@[simp] theorem State.busSend_state (f : Frame) : (s.busSend f).state = s.state := rfl
@[simp] theorem State.busSend_timer (f : Frame) : (s.busSend f).timer = s.timer := rfl
@[simp] theorem State.busSend_rx (f : Frame) : (s.busSend f).rx = s.rx := rfl
@[simp] theorem State.busSend_tx (f : Frame) : (s.busSend f).tx = s.tx := rfl
@[simp] theorem State.busSend_rxf (f : Frame) : (s.busSend f).rxf = s.rxf := rfl
@[simp] theorem State.busSend_hold (f : Frame) : (s.busSend f).hold = s.hold := rfl
@[simp] theorem State.busSend_inp (f : Frame) : (s.busSend f).inp = s.inp := rfl
@[simp] theorem State.busSend_host (f : Frame) : (s.busSend f).host = s.host := rfl
@[simp] theorem State.busSend_out (f : Frame) :
    (s.busSend f).out = { s.out with sent := s.out.sent ++ [f] } := rfl

/-! ### armHold -/

@[simp] theorem State.armHold_cfg : (s.armHold).cfg = s.cfg := rfl
@[simp] theorem State.armHold_state : (s.armHold).state = s.state := rfl
@[simp] theorem State.armHold_timer : (s.armHold).timer = s.timer := rfl
@[simp] theorem State.armHold_rx : (s.armHold).rx = s.rx := rfl
@[simp] theorem State.armHold_tx : (s.armHold).tx = s.tx := rfl
@[simp] theorem State.armHold_rxf : (s.armHold).rxf = s.rxf := rfl
@[simp] theorem State.armHold_hold : (s.armHold).hold = { active := true, start := s.now } := rfl
@[simp] theorem State.armHold_inp : (s.armHold).inp = s.inp := rfl
@[simp] theorem State.armHold_host : (s.armHold).host = s.host := rfl
@[simp] theorem State.armHold_out : (s.armHold).out = s.out := rfl

/-! ### disarmHold -/

@[simp] theorem State.disarmHold_cfg : (s.disarmHold).cfg = s.cfg := rfl
@[simp] theorem State.disarmHold_state : (s.disarmHold).state = s.state := rfl
@[simp] theorem State.disarmHold_timer : (s.disarmHold).timer = s.timer := rfl
@[simp] theorem State.disarmHold_rx : (s.disarmHold).rx = s.rx := rfl
@[simp] theorem State.disarmHold_tx : (s.disarmHold).tx = s.tx := rfl
@[simp] theorem State.disarmHold_rxf : (s.disarmHold).rxf = s.rxf := rfl
@[simp] theorem State.disarmHold_hold : (s.disarmHold).hold = { s.hold with active := false } := rfl
@[simp] theorem State.disarmHold_inp : (s.disarmHold).inp = s.inp := rfl
@[simp] theorem State.disarmHold_host : (s.disarmHold).host = s.host := rfl
@[simp] theorem State.disarmHold_out : (s.disarmHold).out = s.out := rfl

/-! ### issue -/

@[simp] theorem State.issue_cfg (r : HostRequest) (rest : List HostRequest) :
    (s.issue r rest).cfg = s.cfg := rfl
@[simp] theorem State.issue_state (r : HostRequest) (rest : List HostRequest) :
    (s.issue r rest).state = s.state := rfl
@[simp] theorem State.issue_timer (r : HostRequest) (rest : List HostRequest) :
    (s.issue r rest).timer = s.timer := rfl
@[simp] theorem State.issue_rx (r : HostRequest) (rest : List HostRequest) :
    (s.issue r rest).rx = s.rx := rfl
@[simp] theorem State.issue_tx (r : HostRequest) (rest : List HostRequest) :
    (s.issue r rest).tx = s.tx := rfl
@[simp] theorem State.issue_rxf (r : HostRequest) (rest : List HostRequest) :
    (s.issue r rest).rxf = s.rxf := rfl
@[simp] theorem State.issue_hold (r : HostRequest) (rest : List HostRequest) :
    (s.issue r rest).hold = s.hold := rfl
@[simp] theorem State.issue_inp (r : HostRequest) (rest : List HostRequest) :
    (s.issue r rest).inp = { s.inp with answers := r.answers } := rfl
@[simp] theorem State.issue_host (r : HostRequest) (rest : List HostRequest) :
    (s.issue r rest).host = rest := rfl
@[simp] theorem State.issue_out (r : HostRequest) (rest : List HostRequest) :
    (s.issue r rest).out = s.out := rfl

/-! ### Transfers -/

variable (t : Transfer)

@[simp] theorem Transfer.clear_address : t.clear.address = t.address := rfl
@[simp] theorem Transfer.clear_size : t.clear.size = 0 := rfl
@[simp] theorem Transfer.clear_position : t.clear.position = 0 := rfl
@[simp] theorem Transfer.clear_counter : t.clear.counter = 0 := rfl
@[simp] theorem Transfer.clear_payload : t.clear.payload = t.payload := rfl
@[simp] theorem Transfer.rewind_address : t.rewind.address = t.address := rfl
@[simp] theorem Transfer.rewind_size : t.rewind.size = t.size := rfl
@[simp] theorem Transfer.rewind_position : t.rewind.position = 0 := rfl
@[simp] theorem Transfer.rewind_counter : t.rewind.counter = 1 := rfl
@[simp] theorem Transfer.rewind_payload : t.rewind.payload = t.payload := rfl

/-! ### The prologue -/

@[simp] theorem State.wrapHandler_cfg : s.wrapHandler.cfg = s.cfg := by unfold State.wrapHandler; split <;> rfl
@[simp] theorem State.wrapHandler_state : s.wrapHandler.state = s.state := by
  unfold State.wrapHandler; split <;> rfl
@[simp] theorem State.wrapHandler_rx : s.wrapHandler.rx = s.rx := by unfold State.wrapHandler; split <;> rfl
@[simp] theorem State.wrapHandler_tx : s.wrapHandler.tx = s.tx := by unfold State.wrapHandler; split <;> rfl
@[simp] theorem State.wrapHandler_rxf : s.wrapHandler.rxf = s.rxf := by
  unfold State.wrapHandler; split <;> rfl
@[simp] theorem State.wrapHandler_hold : s.wrapHandler.hold = s.hold := by
  unfold State.wrapHandler; split <;> rfl
@[simp] theorem State.wrapHandler_inp : s.wrapHandler.inp = s.inp := by
  unfold State.wrapHandler; split <;> rfl
@[simp] theorem State.wrapHandler_host : s.wrapHandler.host = s.host := by
  unfold State.wrapHandler; split <;> rfl
@[simp] theorem State.wrapHandler_out : s.wrapHandler.out = s.out := by
  unfold State.wrapHandler; split <;> rfl

/-- After the wraparound handler the timer is the smaller of the timer and the sample
(40_clock_timer.md R104: "After it, `timer <= now` always holds"). -/
@[simp] theorem State.wrapHandler_timer : s.wrapHandler.timer = min s.timer s.inp.now := by
  by_cases h : s.inp.now < s.timer
  · simp [State.wrapHandler, State.clockWrapped, State.now, h, Nat.min_eq_right (Nat.le_of_lt h)]
  · simp [State.wrapHandler, State.clockWrapped, State.now, h, Nat.min_eq_left (Nat.le_of_not_lt h)]

/-! ### takeError, by kind -/

@[simp] theorem State.takeError_invalidArgument : s.takeError .invalidArgument = s.raise .invalidArgument := rfl
@[simp] theorem State.takeError_busy : s.takeError .busy = s.raise .busy := rfl
@[simp] theorem State.takeError_busSendFail :
    s.takeError .busSendFail = ((s.clearTx).raise .busSendFail).enter .idle := rfl
@[simp] theorem State.takeError_busReadFail :
    s.takeError .busReadFail = (((s.clearRx).clearTx).raise .busReadFail).enter .idle := rfl
@[simp] theorem State.takeError_timeout :
    s.takeError .timeout = (((s.clearRx).clearTx).raise .timeout).enter .idle := rfl
@[simp] theorem State.takeError_malformedFrame :
    s.takeError .malformedFrame = (s.raise .frameDropped).enter .checkRead := rfl

end Sys2Proof.Machine
end

