-- ==== Sys2Proof/Laws/Flags.lean ====
section
/-! SUPPORT. What each predicate of Machine/Flags.lean says as a proposition, and that an answer of a hook
is the environment's, whatever was done to the registers. -/

namespace Sys2Proof.Machine

variable (s : State)

/-! ## Predicates -/

@[simp] theorem State.rxActive_iff : s.rxActive = true ↔ 0 < s.rx.size.toNat := by
  simp [State.rxActive]

@[simp] theorem State.txPending_iff : s.txPending = true ↔ 0 < s.tx.size.toNat := by
  simp [State.txPending]

@[simp] theorem State.txInFlight_iff :
    s.txInFlight = true ↔ 0 < s.tx.size.toNat ∧ 0 < s.tx.position.toNat := by
  simp [State.txInFlight]

theorem State.holdOk_iff :
    s.holdOk = true ↔ s.hold.active = false ∨
      s.cfg.holdoffDelay ≤
        (s.inp.now + 2 ^ s.cfg.clockWidth - s.hold.start % 2 ^ s.cfg.clockWidth) % 2 ^ s.cfg.clockWidth := by
  simp only [State.holdOk, Bool.or_eq_true, Bool.not_eq_true', decide_eq_true_eq]
  rfl

theorem State.waitOk_iff :
    s.waitOk = true ↔ s.cfg.waitTime ≤
      (s.inp.now + 2 ^ s.cfg.clockWidth - s.timer % 2 ^ s.cfg.clockWidth) % 2 ^ s.cfg.clockWidth := by
  simp only [State.waitOk, decide_eq_true_eq]
  rfl

@[simp] theorem State.weWin_iff : s.weWin = true ↔ s.cfg.ownAddress.toNat < s.rx.address.toNat := by
  simp [State.weWin]

@[simp] theorem State.clockWrapped_iff : s.clockWrapped = true ↔ s.inp.now < s.timer := by
  simp only [State.clockWrapped, decide_eq_true_eq]
  rfl

@[simp] theorem State.timedOut_iff :
    s.timedOut = true ↔ 0 < s.timer ∧ s.timer + s.cfg.stateTimeout < s.inp.now := by
  simp only [State.timedOut, Bool.and_eq_true, decide_eq_true_eq]
  rfl

theorem Frame.admissible_iff (f : Frame) : f.admissible = true ↔ 1 ≤ f.len.toNat ∧ f.len.toNat ≤ 8 := by
  simp [Frame.admissible]

/-- Sequence times measured forward from an earlier sample are plain differences. -/
theorem Params.elapsed_of_le (p : Params) {now t : Nat} (h : t ≤ now) (hn : now < 2 ^ p.clockWidth) :
    Params.elapsed p now t = now - t := by
  unfold Params.elapsed
  rw [Nat.mod_eq_of_lt (Nat.lt_of_le_of_lt h hn),
    show now + 2 ^ p.clockWidth - t = (now - t) + 2 ^ p.clockWidth by omega, Nat.add_mod_right]
  exact Nat.mod_eq_of_lt (by omega)

/-! ## Hook answers -/

theorem State.busRead_some {f : BusFrame} (h : s.inp.answers.read = some f) :
    s.busRead = some (BusFrame.captured f) := by
  simp [State.busRead, h]

theorem State.busRead_none (h : s.inp.answers.read = none) : s.busRead = none := by
  simp [State.busRead, h]

theorem State.busAvailable_eq : s.busAvailable = s.inp.answers.avail := rfl

theorem State.busSendOk_eq : s.busSendOk = s.inp.answers.sendOk := rfl

end Sys2Proof.Machine
end

