-- ==== Sys2Proof/Laws/Host.lean ====
section
/-! SUPPORT. What the host procedures and the two-engine environment do, one lemma per way they can go: the
four turns of the blocking send (47_host_commands.md R247), the two of `publish` (R248), a TICK of one engine
of a pair (60_exceptions.md R278). -/

namespace Sys2Proof.Machine

/-! ## Host procedures -/

section
variable {t0 len : Nat} {addr : Ident} {bytes : Option (List Byte)} {turn : SpinInputs}
  {turns : List SpinInputs} {s s1 s2 : State}

theorem blockingSend_accepted (h : execSend turn.sendClock addr len bytes s = .next s1)
    (he : s1.out.event = .sendAccepted) :
    blockingSend t0 addr len bytes (turn :: turns) s =
      .next { status := .ok, state := s1, outputs := [s1.out] } := by
  rw [blockingSend, h]; exact if_pos he

theorem blockingSend_invalid (h : execSend turn.sendClock addr len bytes s = .next s1)
    (he : s1.out.event = .invalidArgument) :
    blockingSend t0 addr len bytes (turn :: turns) s =
      .next { status := .invalidArgument, state := s1, outputs := [s1.out] } := by
  rw [blockingSend, h]; simp [he]

theorem blockingSend_expired (h : execSend turn.sendClock addr len bytes s = .next s1)
    (he : s1.out.event = .busy) (hx : sendExpired s1.cfg t0 turn.testClock = true) :
    blockingSend t0 addr len bytes (turn :: turns) s =
      .next { status := .busy, state := s1, outputs := [s1.out] } := by
  rw [blockingSend, h]; simp [he, hx]

theorem blockingSend_spins (h : execSend turn.sendClock addr len bytes s = .next s1)
    (he : s1.out.event = .busy) (hx : sendExpired s1.cfg t0 turn.testClock = false)
    (ht : spinTick turn s1 = .next s2) :
    blockingSend t0 addr len bytes (turn :: turns) s =
      SendReturn.after s1.out s2.out (blockingSend t0 addr len bytes turns s2) := by
  rw [blockingSend, h]; simp [he, hx, ht]

end

@[simp] theorem SendReturn.after_next (a b : Outputs) (r : SendReturn) :
    SendReturn.after a b (.next r) = .next { r with outputs := a :: b :: r.outputs } := rfl

theorem publish_refused {s : State} {topic payload : List Byte}
    (h : publishBytes s.cfg.maxBuffer topic payload = none) (t0 : Nat) (addr : Option Ident)
    (turns : List SpinInputs) :
    publish t0 addr topic payload turns s =
      .next { status := .invalidArgument, state := s, outputs := [] } := by
  rw [publish, h]

theorem publish_sends {s : State} {topic payload m : List Byte}
    (h : publishBytes s.cfg.maxBuffer topic payload = some m) (t0 : Nat) (addr : Option Ident)
    (turns : List SpinInputs) :
    publish t0 addr topic payload turns s =
      blockingSend t0 (addr.getD s.cfg.ownAddress) m.length (some m) turns s := by
  rw [publish, h]; rfl

/-! ## Two engines -/

@[simp] theorem Frame.onBus_id (f : Frame) (l : Vector Byte 8) : (Frame.onBus f l).id = f.id := rfl
@[simp] theorem Frame.onBus_len (f : Frame) (l : Vector Byte 8) : (Frame.onBus f l).len = f.len := rfl

/-- The first byte of a frame is the first lane of the bus. -/
theorem Frame.onBus_lanes_cons {f : Frame} {b : Byte} {d : List Byte} (h : f.data = b :: d)
    (l : Vector Byte 8) : ∃ rest, (Frame.onBus f l).lanes.toList = b :: rest := by
  simp [Frame.onBus, h, Vector.toList_ofFn, List.ofFn_succ]

/-- A frame put on the bus is captured as it was, whatever the lanes above its bytes carry
(00_scope.md R19). -/
theorem BusFrame.captured_onBus (f : Frame) (l : Vector Byte 8) (h : f.data.length = f.len.toNat)
    (h8 : f.len.toNat ≤ 8) : BusFrame.captured (Frame.onBus f l) = f := by
  have key : (Frame.onBus f l).lanes.toList.take f.len.toNat = f.data := by
    apply List.ext_getElem
    · simp [Frame.onBus, Vector.toList_ofFn]; omega
    · intro i h1 h2
      have hi : i < 8 := by omega
      interval_cases i <;> simp [Frame.onBus, Vector.toList_ofFn, List.getElem?_eq_getElem h2]
  simp only [BusFrame.captured, Frame.onBus_id, Frame.onBus_len, key]

theorem adapterAnswers_cons {env : BusInputs} (h : env.readFails = false) (f : Frame) (fs : List Frame) :
    adapterAnswers (f :: fs) env =
      { avail := true, read := some (Frame.onBus f env.lanes), sendOk := env.sendOk } := by
  simp [adapterAnswers, h]

theorem Pair.tickA_next {p : Pair} {now : Nat} {env : BusInputs} {s : State}
    (h : tickWith now p.toA env p.a = .next s) :
    p.tickA now env =
      .next { p with a := s, toA := inboxAfter p.toA env s, toB := p.toB ++ carried env s } := by
  rw [Pair.tickA, h]

theorem Pair.tickB_next {p : Pair} {now : Nat} {env : BusInputs} {s : State}
    (h : tickWith now p.toB env p.b = .next s) :
    p.tickB now env =
      .next { p with b := s, toB := inboxAfter p.toB env s, toA := p.toA ++ carried env s } := by
  rw [Pair.tickB, h]

end Sys2Proof.Machine
end

