-- ==== Sys2Proof/Laws/Memory.lean ====
section
/-! SUPPORT. The laws of the payload buffers: read after write, what a write leaves alone, that every write
keeps the canonical form, and what `MemRead` and `MemWrite` answer. -/

namespace Sys2Proof.Machine

theorem Memory.read_nil (a : Nat) : Memory.read [] a = none := rfl

theorem Memory.read_cons (k : Nat) (b : Byte) (m : Memory) (a : Nat) :
    Memory.read ((k, b) :: m) a = if k = a then some b else Memory.read m a := rfl

/-! ## The canonical form -/

theorem Memory.wf_cons (c : Host.Cell) (m : Memory) :
    Memory.wf (c :: m) = true ↔ (∀ d ∈ m, c.1 < d.1) ∧ Memory.wf m = true := by
  simp [Memory.wf, Bool.and_eq_true]

theorem Memory.lt_of_mem_write {m : Memory} {k a : Nat} {b : Byte} (hk : k < a) (h : ∀ d ∈ m, k < d.1) :
    ∀ d ∈ Memory.write m a b, k < d.1 := by
  induction m with
  | nil => simpa [Memory.write] using hk
  | cons c m ih =>
    have hm : ∀ d ∈ m, k < d.1 := fun d hd => h d (List.mem_cons_of_mem _ hd)
    have hc : k < c.1 := h c List.mem_cons_self
    simp only [Memory.write]
    split
    · intro d hd
      rcases List.mem_cons.1 hd with rfl | hd
      · exact hk
      · exact h d hd
    · split
      · intro d hd
        rcases List.mem_cons.1 hd with rfl | hd
        · exact hk
        · exact hm d hd
      · intro d hd
        rcases List.mem_cons.1 hd with rfl | hd
        · exact hc
        · exact ih hm d hd

/-- A write keeps the canonical form. -/
theorem Memory.wf_write {m : Memory} (h : Memory.wf m = true) (a : Nat) (b : Byte) :
    Memory.wf (Memory.write m a b) = true := by
  induction m with
  | nil => rfl
  | cons c m ih =>
    obtain ⟨hlt, hwf⟩ := (Memory.wf_cons c m).1 h
    simp only [Memory.write]
    split
    · refine (Memory.wf_cons _ _).2 ⟨?_, h⟩
      intro d hd
      rcases List.mem_cons.1 hd with rfl | hd
      · assumption
      · exact Nat.lt_trans ‹a < c.1› (hlt d hd)
    · split
      · rename_i h1 h2
        subst h2
        exact (Memory.wf_cons _ _).2 ⟨hlt, hwf⟩
      · exact (Memory.wf_cons _ _).2 ⟨Memory.lt_of_mem_write (by omega) hlt, ih hwf⟩

/-- A sequence write keeps the canonical form. -/
theorem Memory.wf_writeN {m : Memory} (h : Memory.wf m = true) (off : Nat) (v : List Byte) :
    Memory.wf (Memory.writeN m off v) = true := by
  induction v generalizing m off with
  | nil => exact h
  | cons b v ih => exact ih (Memory.wf_write h off b) (off + 1)

/-! ## Read after write -/

theorem Memory.read_write_same (m : Memory) (a : Nat) (b : Byte) :
    Memory.read (Memory.write m a b) a = some b := by
  induction m with
  | nil => simp [Memory.write, Memory.read]
  | cons c m ih =>
    simp only [Memory.write]
    split
    · simp [Memory.read_cons]
    · split
      · simp [Memory.read_cons]
      · simp only [Memory.read_cons]
        rw [if_neg (by omega)]
        exact ih

theorem Memory.read_write_other (m : Memory) {a x : Nat} (b : Byte) (h : a ≠ x) :
    Memory.read (Memory.write m a b) x = Memory.read m x := by
  induction m with
  | nil => simp [Memory.write, Memory.read, h]
  | cons c m ih =>
    simp only [Memory.write]
    split
    · rw [Memory.read_cons, if_neg h]
    · split
      · rename_i h1 h2
        subst h2
        obtain ⟨k, v⟩ := c
        simp only [Memory.read_cons, if_neg h]
      · obtain ⟨k, v⟩ := c
        simp only [Memory.read_cons]
        split
        · rfl
        · exact ih

/-- A sequence write leaves every offset outside it alone. -/
theorem Memory.read_writeN_outside (m : Memory) (off : Nat) (v : List Byte) {x : Nat}
    (h : x < off ∨ off + v.length ≤ x) : Memory.read (Memory.writeN m off v) x = Memory.read m x := by
  induction v generalizing m off with
  | nil => rfl
  | cons b v ih =>
    simp only [List.length_cons] at h
    rw [Memory.writeN, ih _ _ (by omega), Memory.read_write_other _ _ (by omega)]

/-- Byte `i` of a written sequence reads back at `off + i`. -/
theorem Memory.read_writeN_inside (m : Memory) (off : Nat) (v : List Byte) {i : Nat} (h : i < v.length) :
    Memory.read (Memory.writeN m off v) (off + i) = v[i]? := by
  induction v generalizing m off i with
  | nil => simp at h
  | cons b v ih =>
    cases i with
    | zero =>
      rw [Memory.writeN, Memory.read_writeN_outside _ _ _ (by omega)]
      simpa using Memory.read_write_same m off b
    | succ i =>
      have := ih (Memory.write m off b) (off + 1) (i := i) (by simpa using h)
      simpa [Memory.writeN, Nat.add_assoc, Nat.add_comm 1 i] using this

/-! ## Sequence reads -/

theorem Memory.readN_zero (m : Memory) (off : Nat) : Memory.readN m off 0 = some [] := rfl

/-- A sequence read gives `n` bytes, byte `i` the one at `off + i`. -/
theorem Memory.readN_some {m : Memory} {off n : Nat} {bs : List Byte} (h : Memory.readN m off n = some bs) :
    bs.length = n ∧ ∀ i, i < n → bs[i]? = Memory.read m (off + i) := by
  induction n generalizing off bs with
  | zero =>
    obtain rfl : [] = bs := by simpa [Memory.readN] using h
    simp
  | succ n ih =>
    simp only [Memory.readN] at h
    split at h
    · cases h
    · rename_i b hb
      split at h
      · cases h
      · rename_i cs hcs
        obtain rfl : b :: cs = bs := by simpa using h
        obtain ⟨hl, hr⟩ := ih hcs
        refine ⟨by simp [hl], fun i hi => ?_⟩
        cases i with
        | zero => simpa using hb.symm
        | succ i =>
          have := hr i (by omega)
          simpa [Nat.add_assoc, Nat.add_comm 1 i] using this

/-- A sequence read of written offsets answers. -/
theorem Memory.readN_isSome {m : Memory} {off n : Nat}
    (h : ∀ i, i < n → (Memory.read m (off + i)).isSome = true) : (Memory.readN m off n).isSome = true := by
  induction n generalizing off with
  | zero => rfl
  | succ n ih =>
    obtain ⟨b, hb⟩ := Option.isSome_iff_exists.1 (h 0 (by omega))
    obtain ⟨cs, hcs⟩ := Option.isSome_iff_exists.1 (ih (off := off + 1) (fun i hi => by
      have := h (i + 1) (by omega)
      simpa [Nat.add_assoc, Nat.add_comm 1 i] using this))
    simp only [Nat.add_zero] at hb
    simp [Memory.readN, hb, hcs]

/-- What a sequence read of written offsets answers, byte by byte. -/
theorem Memory.readN_of_bytes {m : Memory} {off : Nat} {bs : List Byte}
    (h : ∀ i, i < bs.length → Memory.read m (off + i) = bs[i]?) :
    Memory.readN m off bs.length = some bs := by
  induction bs generalizing off with
  | nil => rfl
  | cons b bs ih =>
    have h0 : Memory.read m off = some b := by simpa using h 0 (by simp)
    have hr : Memory.readN m (off + 1) bs.length = some bs := ih (fun i hi => by
      have := h (i + 1) (by simpa using hi)
      simpa [Nat.add_assoc, Nat.add_comm 1 i] using this)
    simp [Memory.readN, h0, hr]

/-- Reading back a sequence that was just written. -/
theorem Memory.readN_writeN (m : Memory) (off : Nat) (v : List Byte) :
    Memory.readN (Memory.writeN m off v) off v.length = some v :=
  Memory.readN_of_bytes (fun _ hi => Memory.read_writeN_inside m off v hi)

/-! ## MemRead and MemWrite -/

/-- `MemRead` of written offsets inside the buffer answers their bytes. -/
theorem memRead_ok {maxBuffer off n : Nat} {m : Memory} (hb : off + n ≤ maxBuffer)
    (h : ∀ i, i < n → (Memory.read m (off + i)).isSome = true) :
    ∃ bs, memRead maxBuffer m off n = .ok bs ∧ bs.length = n ∧
      ∀ i, i < n → bs[i]? = Memory.read m (off + i) := by
  obtain ⟨bs, hbs⟩ := Option.isSome_iff_exists.1 (Memory.readN_isSome h)
  exact ⟨bs, by simp [memRead, hb, hbs], Memory.readN_some hbs⟩

/-- Everything an answer of `MemRead` says. -/
theorem memRead_cases {maxBuffer off n : Nat} {m : Memory} {bs : List Byte}
    (h : memRead maxBuffer m off n = .ok bs) :
    off + n ≤ maxBuffer ∧ bs.length = n ∧ ∀ i, i < n → bs[i]? = Memory.read m (off + i) := by
  unfold memRead at h
  split at h
  · split at h
    · rename_i hb _ _ hbs
      obtain rfl := Except.ok.inj h
      exact ⟨hb, Memory.readN_some hbs⟩
    · cases h
  · cases h

/-- `MemWrite` inside the buffer answers. -/
theorem memWrite_ok {maxBuffer off : Nat} {m : Memory} {v : List Byte} (hb : off + v.length ≤ maxBuffer) :
    memWrite maxBuffer m off v = .ok (Memory.writeN m off v) := by
  simp [memWrite, hb]

/-- Everything an answer of `MemWrite` says: the bytes written, the others kept, the form kept. -/
theorem memWrite_cases {maxBuffer off : Nat} {m m' : Memory} {v : List Byte}
    (h : memWrite maxBuffer m off v = .ok m') :
    off + v.length ≤ maxBuffer ∧ m' = Memory.writeN m off v ∧
      (∀ i, i < v.length → Memory.read m' (off + i) = v[i]?) ∧
      (∀ x, x < off ∨ off + v.length ≤ x → Memory.read m' x = Memory.read m x) ∧
      (Memory.wf m = true → Memory.wf m' = true) := by
  unfold memWrite at h
  split at h
  · rename_i hb
    obtain rfl := Except.ok.inj h
    exact ⟨hb, rfl, fun i hi => Memory.read_writeN_inside m off v hi,
      fun x hx => Memory.read_writeN_outside m off v hx, fun hw => Memory.wf_writeN hw off v⟩
  · cases h

/-- A buffer that holds its first `off` bytes and gets the next ones holds them all. -/
theorem Memory.holds_writeN {m : Memory} {off : Nat} (h : ∀ a, a < off → (Memory.read m a).isSome = true)
    (v : List Byte) : ∀ a, a < off + v.length → (Memory.read (Memory.writeN m off v) a).isSome = true := by
  intro a ha
  by_cases hlt : a < off
  · rw [Memory.read_writeN_outside m off v (Or.inl hlt)]
    exact h a hlt
  · obtain ⟨i, rfl⟩ : ∃ i, a = off + i := ⟨a - off, by omega⟩
    rw [Memory.read_writeN_inside m off v (by omega)]
    simp
    omega

/-- An offset below every listed one holds no value. -/
theorem Memory.read_of_lt {m : Memory} {a : Nat} (h : ∀ d ∈ m, a < d.1) : Memory.read m a = none := by
  induction m with
  | nil => rfl
  | cons c m ih =>
    obtain ⟨k, v⟩ := c
    have hk : a < k := h (k, v) List.mem_cons_self
    rw [Memory.read_cons, if_neg (by omega)]
    exact ih (fun d hd => h d (List.mem_cons_of_mem _ hd))

/-- Two buffers in canonical form that read alike are equal data. -/
theorem Memory.eq_of_read {m m' : Memory} (h : Memory.wf m = true) (h' : Memory.wf m' = true)
    (hr : ∀ a, Memory.read m a = Memory.read m' a) : m = m' := by
  induction m generalizing m' with
  | nil =>
    cases m' with
    | nil => rfl
    | cons c m' =>
      obtain ⟨k, v⟩ := c
      have := hr k
      simp [Memory.read_cons, Memory.read_nil] at this
  | cons c m ih =>
    obtain ⟨k, v⟩ := c
    obtain ⟨hlt, hwf⟩ := (Memory.wf_cons _ _).1 h
    cases m' with
    | nil =>
      have := hr k
      simp [Memory.read_cons, Memory.read_nil] at this
    | cons c' m' =>
      obtain ⟨k', v'⟩ := c'
      obtain ⟨hlt', hwf'⟩ := (Memory.wf_cons _ _).1 h'
      have hkk : k = k' := by
        rcases Nat.lt_trichotomy k k' with hk | hk | hk
        · have h1 := hr k
          rw [Memory.read_cons, if_pos rfl, Memory.read_cons, if_neg (by omega),
            Memory.read_of_lt (fun d hd => Nat.lt_trans hk (hlt' d hd))] at h1
          cases h1
        · exact hk
        · have h1 := hr k'
          rw [Memory.read_cons, if_neg (by omega), Memory.read_cons, if_pos rfl,
            Memory.read_of_lt (fun d hd => Nat.lt_trans hk (hlt d hd))] at h1
          cases h1
      subst hkk
      have hv : v = v' := by simpa [Memory.read_cons] using hr k
      subst hv
      have htail : m = m' := ih hwf hwf' (fun a => by
        have h1 := hr a
        simp only [Memory.read_cons] at h1
        by_cases ha : k = a
        · subst ha
          rw [Memory.read_of_lt hlt, Memory.read_of_lt hlt']
        · simpa [ha] using h1)
      rw [htail]

end Sys2Proof.Machine
end

