-- ==== Sys2Proof/Laws/PerInstr.lean ====
section
/-! SUPPORT. Statements about every instruction as syntax, one lemma per constructor: the code of a
well-formed instruction is a legal one of its format. -/

namespace Sys2Proof

/-- A legal code: a frame of 1 to 8 bytes that lists exactly those (30_encoding.md R80), a command number
below 3 with as many bytes as it says (R91, 47_host_commands.md R243), a state number of 0 to 9
(10_state.md R21). -/
def Laws.legalCode : Code → Bool
  | .pci f      => f.admissible && f.wf
  | .cmd w      => decide (w.number.toNat < 3) && bytesMatch w.len w.bytes
  | .stateReg n => decide (n.toNat < 10)

/-- The instruction's code is legal. -/
def Laws.EncodesToLegalCode.Statement (i : Instr) : Prop :=
  i.wellFormed = true → Laws.legalCode (encode i) = true

/-- A frame of at most seven bytes after the PCI byte is legal. -/
theorem Laws.legalCode_frameOf (id : Ident) (b : Byte) {body : List Byte} (h : bodyFits body = true) :
    Laws.legalCode (.pci (frameOf id b body)) = true := by
  have h7 : body.length ≤ 7 := by simpa [bodyFits] using h
  have hl : (BitVec.ofNat 4 (1 + body.length)).toNat = 1 + body.length := by
    rw [BitVec.toNat_ofNat]
    exact Nat.mod_eq_of_lt (by omega)
  simp only [Laws.legalCode, Frame.admissible, Frame.wf, frameOf, hl, List.length_cons, Bool.and_eq_true,
    decide_eq_true_eq]
  omega

theorem Laws.EncodesToLegalCode.sf (id : Ident) (size : BitVec 4) (body : List Byte) :
    Laws.EncodesToLegalCode.Statement (.sf id size body) := fun h => Laws.legalCode_frameOf id _ h
theorem Laws.EncodesToLegalCode.ff (id : Ident) (sizeHi : BitVec 4) (body : List Byte) :
    Laws.EncodesToLegalCode.Statement (.ff id sizeHi body) := fun h => Laws.legalCode_frameOf id _ h
theorem Laws.EncodesToLegalCode.cf (id : Ident) (index : BitVec 4) (body : List Byte) :
    Laws.EncodesToLegalCode.Statement (.cf id index body) := fun h => Laws.legalCode_frameOf id _ h
theorem Laws.EncodesToLegalCode.fc (id : Ident) (flag : BitVec 4) (body : List Byte) :
    Laws.EncodesToLegalCode.Statement (.fc id flag body) := fun h => Laws.legalCode_frameOf id _ h
theorem Laws.EncodesToLegalCode.unk47 (id : Ident) (low : BitVec 6) (body : List Byte) :
    Laws.EncodesToLegalCode.Statement (.unk47 id low body) := fun h => Laws.legalCode_frameOf id _ h
theorem Laws.EncodesToLegalCode.unk815 (id : Ident) (low : BitVec 7) (body : List Byte) :
    Laws.EncodesToLegalCode.Statement (.unk815 id low body) := fun h => Laws.legalCode_frameOf id _ h
theorem Laws.EncodesToLegalCode.begin : Laws.EncodesToLegalCode.Statement .begin := fun _ => rfl
theorem Laws.EncodesToLegalCode.tick (now : Nat) : Laws.EncodesToLegalCode.Statement (.tick now) :=
  fun _ => rfl
theorem Laws.EncodesToLegalCode.send (now : Nat) (addr : Ident) (len : Nat) (bytes : Option (List Byte)) :
    Laws.EncodesToLegalCode.Statement (.send now addr len bytes) := fun h => h
theorem Laws.EncodesToLegalCode.disabled : Laws.EncodesToLegalCode.Statement .disabled := fun _ => rfl
theorem Laws.EncodesToLegalCode.idle : Laws.EncodesToLegalCode.Statement .idle := fun _ => rfl
theorem Laws.EncodesToLegalCode.checkRead : Laws.EncodesToLegalCode.Statement .checkRead := fun _ => rfl
theorem Laws.EncodesToLegalCode.read : Laws.EncodesToLegalCode.Statement .read := fun _ => rfl
theorem Laws.EncodesToLegalCode.parseWhich : Laws.EncodesToLegalCode.Statement .parseWhich := fun _ => rfl
theorem Laws.EncodesToLegalCode.checkSend : Laws.EncodesToLegalCode.Statement .checkSend := fun _ => rfl
theorem Laws.EncodesToLegalCode.sendSingle : Laws.EncodesToLegalCode.Statement .sendSingle := fun _ => rfl
theorem Laws.EncodesToLegalCode.sendFirst : Laws.EncodesToLegalCode.Statement .sendFirst := fun _ => rfl
theorem Laws.EncodesToLegalCode.sendConsecutive :
    Laws.EncodesToLegalCode.Statement .sendConsecutive := fun _ => rfl
theorem Laws.EncodesToLegalCode.checkCollision :
    Laws.EncodesToLegalCode.Statement .checkCollision := fun _ => rfl

end Sys2Proof
end

