-- ==== Sys2Proof/Laws/Steps.lean ====
section
/-! SUPPORT. What each shared operation and each meaning can do, said once: if it answers a next state,
that state is one of the ones listed, under the guard listed. No proof needs to unfold a meaning. -/

namespace Sys2Proof.Machine

variable {s t : State}

/-! ## Receiving -/

theorem dropFrame_eq (s : State) : dropFrame s = .next (s.takeError .malformedFrame) := rfl

theorem execSf_cases {id : Ident} {size : BitVec 4} {body : List Byte} (h : execSf id size body s = .next t) :
    (t = s.fresh.takeError .malformedFrame) ∨
    (1 ≤ body.length ∧ body.length ≤ 7 ∧
      t = ((s.fresh.deliver id body body.length).raise .msgDelivered).enter .idle) := by
  unfold execSf at h
  by_cases hv : 1 ≤ size.toNat ∧ size.toNat ≤ 7 ∧ size.toNat = body.length
  · rw [singleFields_valid hv] at h
    cases h
    exact .inr ⟨by omega, by omega, by rw [hv.2.2]⟩
  · rw [singleFields_invalid hv] at h
    cases h
    exact .inl rfl

theorem stashFirst_cases {size : BitVec 12} {chunk : List Byte} (h : stashFirst size chunk s = .next t) :
    chunk.length ≤ s.cfg.maxBuffer ∧
    t = (s.setRx { s.rx with
          size := size, payload := Memory.writeN s.rx.payload 0 chunk, position := 6, counter := 1 }).enter
        .checkRead := by
  unfold stashFirst at h
  split at h
  · cases h
  · rename_i m hm
    obtain ⟨hb, rfl, -⟩ := memWrite_cases hm
    cases h
    exact ⟨by omega, rfl⟩

theorem execFf_cases {id : Ident} {hi : BitVec 4} {body : List Byte} (h : execFf id hi body s = .next t) :
    (t = s.fresh.takeError .malformedFrame) ∨
    (∃ (size : BitVec 12) (chunk : List Byte), chunk.length = 6 ∧ 8 ≤ size.toNat ∧
      size.toNat ≤ s.cfg.maxBuffer ∧
      t = (s.fresh.setRx { s.rx with
            size := size, payload := Memory.writeN s.rx.payload 0 chunk, position := 6, counter := 1 }).enter
          .checkRead) := by
  unfold execFf at h
  split at h
  · cases h
    exact .inl rfl
  · rename_i size chunk hf
    obtain ⟨lo, -, hc, -, h8, hm⟩ := firstFields_cases hf
    exact .inr ⟨size, chunk, hc, h8, hm, (stashFirst_cases h).2⟩

theorem finishAppend_cases (h : finishAppend s = .next t) :
    (s.rx.position = s.rx.size ∧ ∃ bytes, s.rx.size.toNat ≤ s.cfg.maxBuffer ∧
      bytes.length = s.rx.size.toNat ∧ (∀ i, i < s.rx.size.toNat → bytes[i]? = Memory.read s.rx.payload i) ∧
      t = (((s.deliver s.rx.address bytes s.rx.size.toNat).clearRx).raise .msgDelivered).enter .idle) ∨
    (s.rx.position ≠ s.rx.size ∧ t = s.enter .checkRead) := by
  unfold finishAppend at h
  split at h
  · rename_i hp
    split at h
    · cases h
    · rename_i bytes hr
      obtain ⟨hb, hl, hbytes⟩ := memRead_cases hr
      cases h
      refine .inl ⟨hp, bytes, by omega, hl, fun i hi => ?_, rfl⟩
      rw [hbytes i hi, Nat.zero_add]
  · rename_i hp
    cases h
    exact .inr ⟨hp, rfl⟩

/-- The RX registers after an append of `chunk` (42_rx_reassembly.md R145). -/
def Transfer.appended (r : Transfer) (chunk : List Byte) : Transfer :=
  { r with
    payload  := Memory.writeN r.payload r.position.toNat chunk
    position := r.position + BitVec.ofNat 12 chunk.length
    counter  := nextCounter r.counter }

theorem appendChunk_cases {chunk : List Byte} (h : appendChunk chunk s = .next t) :
    s.rx.position.toNat + chunk.length ≤ s.cfg.maxBuffer ∧
    finishAppend (s.setRx (s.rx.appended chunk)) = .next t := by
  unfold appendChunk at h
  split at h
  · cases h
  · rename_i m hm
    obtain ⟨hb, rfl, -⟩ := memWrite_cases hm
    exact ⟨hb, h⟩

theorem execCf_cases {id : Ident} {index : BitVec 4} {body : List Byte}
    (h : execCf id index body s = .next t) :
    (t = s.fresh.takeError .malformedFrame) ∨
    (s.rx.position.toNat < s.rx.size.toNat ∧
      ∃ chunk : List Byte, chunk.length = min 7 (s.rx.size.toNat - s.rx.position.toNat) ∧
        ((s.rx.position.toNat + chunk.length = s.rx.size.toNat ∧
          ∃ bytes : List Byte, s.rx.size.toNat ≤ s.cfg.maxBuffer ∧ bytes.length = s.rx.size.toNat ∧
            t = ((((s.fresh.setRx (s.rx.appended chunk)).deliver s.rx.address bytes
                  s.rx.size.toNat).clearRx).raise .msgDelivered).enter .idle) ∨
        (s.rx.position.toNat + chunk.length < s.rx.size.toNat ∧
          t = (s.fresh.setRx (s.rx.appended chunk)).enter .checkRead))) := by
  unfold execCf at h
  split at h
  · split at h
    · rename_i hp
      split at h
      · cases h
        exact .inl rfl
      · rename_i j chunk hc
        obtain ⟨-, -, hl⟩ := consecutiveFields_cases hc
        have hlt := s.rx.size.isLt
        have hadd : (s.rx.position + BitVec.ofNat 12 chunk.length).toNat
            = s.rx.position.toNat + chunk.length := add_ofNat_toNat (by omega)
        refine .inr ⟨hp, chunk, hl, ?_⟩
        obtain ⟨he, bytes, hm, hb, -, rfl⟩ | ⟨hne, rfl⟩ := finishAppend_cases (appendChunk_cases h).2
        · have := congrArg BitVec.toNat he
          exact .inl ⟨hadd.symm.trans this, bytes, hm, hb, rfl⟩
        · refine .inr ⟨?_, rfl⟩
          have : s.rx.position.toNat + chunk.length ≠ s.rx.size.toNat := fun hc =>
            hne (BitVec.eq_of_toNat_eq (hadd.trans hc))
          omega
    · cases h
  · cases h
    exact .inl rfl

theorem parseByClass_eq (id : Ident) (b : Byte) (body : List Byte) (s : State) :
    parseByClass id b body s = exec (decodeClass id b body) s := by
  unfold parseByClass decodeClass
  generalize (classify b).toNat = n
  match n with
  | 0 => rfl
  | 1 => rfl
  | 2 => rfl
  | 3 => rfl
  | n + 4 =>
    show (if n + 4 < 8 then _ else _) = exec (if n + 4 < 8 then _ else _) s
    split <;> rfl

/-- What a frame of any class can do. -/
inductive Parsed (s : State) : State → Prop where
  | dropped : Parsed s (s.fresh.takeError .malformedFrame)
  | ignored : Parsed s (s.fresh.enter .checkRead)
  | single (id : Ident) (body : List Byte) (h1 : 1 ≤ body.length) (h7 : body.length ≤ 7) :
      Parsed s (((s.fresh.deliver id body body.length).raise .msgDelivered).enter .idle)
  | first (size : BitVec 12) (chunk : List Byte) (hc : chunk.length = 6) (h8 : 8 ≤ size.toNat)
      (hm : size.toNat ≤ s.cfg.maxBuffer) :
      Parsed s ((s.fresh.setRx { s.rx with
        size := size, payload := Memory.writeN s.rx.payload 0 chunk, position := 6, counter := 1 }).enter
        .checkRead)
  | appended (chunk : List Byte) (hp : s.rx.position.toNat < s.rx.size.toNat)
      (hc : chunk.length = min 7 (s.rx.size.toNat - s.rx.position.toNat))
      (hlt : s.rx.position.toNat + chunk.length < s.rx.size.toNat) :
      Parsed s ((s.fresh.setRx (s.rx.appended chunk)).enter .checkRead)
  | completed (chunk bytes : List Byte) (hp : s.rx.position.toNat < s.rx.size.toNat)
      (hc : chunk.length = min 7 (s.rx.size.toNat - s.rx.position.toNat))
      (he : s.rx.position.toNat + chunk.length = s.rx.size.toNat) (hm : s.rx.size.toNat ≤ s.cfg.maxBuffer)
      (hb : bytes.length = s.rx.size.toNat) :
      Parsed s (((((s.fresh.setRx (s.rx.appended chunk)).deliver s.rx.address bytes
        s.rx.size.toNat).clearRx).raise .msgDelivered).enter .idle)

theorem execSf_parsed {id : Ident} {size : BitVec 4} {body : List Byte}
    (h : exec (.sf id size body) s = .next t) : Parsed s t := by
  obtain rfl | ⟨h1, h7, rfl⟩ := execSf_cases (id := id) h
  · exact .dropped
  · exact .single id body h1 h7

theorem execFf_parsed {id : Ident} {hi : BitVec 4} {body : List Byte}
    (h : exec (.ff id hi body) s = .next t) : Parsed s t := by
  obtain rfl | ⟨size, chunk, hc, h8, hm, rfl⟩ := execFf_cases (id := id) h
  · exact .dropped
  · exact .first size chunk hc h8 hm

theorem execCf_parsed {id : Ident} {index : BitVec 4} {body : List Byte}
    (h : exec (.cf id index body) s = .next t) : Parsed s t := by
  obtain rfl | ⟨hp, chunk, hc, ⟨he, bytes, hm, hb, rfl⟩ | ⟨hlt, rfl⟩⟩ := execCf_cases (id := id) h
  · exact .dropped
  · exact .completed chunk bytes hp hc he hm hb
  · exact .appended chunk hp hc hlt

theorem parseByClass_parsed {id : Ident} {b : Byte} {body : List Byte}
    (h : parseByClass id b body s = .next t) : Parsed s t := by
  unfold parseByClass at h
  split at h
  · exact execSf_parsed (id := id) h
  · exact execFf_parsed (id := id) h
  · exact execCf_parsed (id := id) h
  · cases h
    exact .ignored
  · split at h <;> (cases h; exact .dropped)

/-- Everything a next state of `ParseWhich` can be (44_state_machine.md R185). -/
theorem execParseWhich_cases (h : execParseWhich s = .next t) : Parsed s t := by
  unfold execParseWhich at h
  split at h
  · split at h
    · split at h
      · cases h
      · exact parseByClass_parsed h
    · cases h
  · cases h
    exact .dropped

/-! ## The other states -/

/-- Everything a next state of `Idle` can be (44_state_machine.md R181). -/
theorem execIdle_cases (h : execIdle s = .next t) :
    t = s.fresh.askedAvailable.enter .read ∨
    (s.rx.size.toNat = 0 ∧ 0 < s.tx.size.toNat ∧
      t = s.fresh.askedAvailable.disarmHold.enter .checkSend) ∨
    t = s.fresh.askedAvailable := by
  simp only [execIdle] at h
  split at h
  · cases h
    exact .inl rfl
  · split at h
    · rename_i hg
      rw [Bool.and_eq_true, Bool.and_eq_true, State.txPending_iff, Bool.not_eq_true', ← Bool.not_eq_true,
        State.rxActive_iff] at hg
      cases h
      exact .inr (.inl ⟨Nat.eq_zero_of_not_pos hg.1.1, hg.1.2, rfl⟩)
    · cases h
      exact .inr (.inr rfl)

/-- Everything a next state of `CheckRead` can be (44_state_machine.md R182). -/
theorem execCheckRead_cases (h : execCheckRead s = .next t) :
    t = s.fresh.askedAvailable.enter .read ∨ t = s.fresh.askedAvailable := by
  simp only [execCheckRead] at h
  split at h
  · cases h
    exact .inl rfl
  · cases h
    exact .inr rfl

/-- Everything a next state of `Read` can be (44_state_machine.md R184, 45_collision.md R212). -/
theorem execRead_cases (h : execRead s = .next t) :
    t = (s.fresh.askedRead.raise .readRetry).enter .checkRead ∨
    ∃ f, s.inp.answers.read = some f ∧
      ((0 < s.tx.size.toNat ∧ 0 < s.tx.position.toNat ∧
        (t = ((((s.fresh.askedRead.capture (BusFrame.captured f)).rewindTx).clearRx).raise
              .collisionWin).enter .checkRead ∨
         t = ((((s.fresh.askedRead.capture (BusFrame.captured f)).rewindTx).armHold).raise
              .collisionYield).enter .parseWhich)) ∨
       t = (s.fresh.askedRead.capture (BusFrame.captured f)).enter .parseWhich) := by
  simp only [execRead] at h
  cases hr : s.inp.answers.read with
  | none =>
    rw [State.busRead_none s.fresh.askedRead hr] at h
    cases h
    exact .inl rfl
  | some f =>
    rw [State.busRead_some s.fresh.askedRead hr] at h
    refine .inr ⟨f, rfl, ?_⟩
    dsimp only at h
    split at h
    · rename_i hg
      obtain ⟨h1, h2⟩ := (State.txInFlight_iff _).1 hg
      refine .inl ⟨h1, h2, ?_⟩
      cases h
      simp only [readCollision]
      split
      · exact .inl rfl
      · exact .inr rfl
    · cases h
      exact .inr rfl

/-- Everything a next state of `CheckSend` can be (44_state_machine.md R186). -/
theorem execCheckSend_cases (h : execCheckSend s = .next t) :
    t = s.fresh.enter .idle ∨
    (1 ≤ s.tx.size.toNat ∧ s.tx.size.toNat ≤ 7 ∧ t = s.fresh.enter .sendSingle) ∨
    (8 ≤ s.tx.size.toNat ∧ t = s.fresh.enter .sendFirst) ∨
    (8 ≤ s.tx.size.toNat ∧ 0 < s.tx.position.toNat ∧ s.tx.position.toNat < s.tx.size.toNat ∧
      t = s.fresh.enter .sendConsecutive) ∨
    t = s.fresh.clearTx.enter .idle := by
  change (if s.tx.size.toNat = 0 then _ else if s.tx.size.toNat ≤ 7 then _
    else if s.tx.position.toNat = 0 then _ else if s.tx.position.toNat < s.tx.size.toNat then _ else _)
    = _ at h
  split_ifs at h with h0 h7 hp hlt <;> cases h
  · exact .inl rfl
  · exact .inr (.inl ⟨by omega, h7, rfl⟩)
  · exact .inr (.inr (.inl ⟨by omega, rfl⟩))
  · exact .inr (.inr (.inr (.inl ⟨by omega, by omega, hlt, rfl⟩)))
  · exact .inr (.inr (.inr (.inr rfl)))

/-- Everything a next state of `SendSingle` can be (44_state_machine.md R187, 43_tx_segmentation.md
R161). -/
theorem execSendSingle_cases (h : execSendSingle s = .next t) :
    (t = s.fresh.clearTx.enter .idle) ∨
    (1 ≤ s.tx.size.toNat ∧ s.tx.size.toNat ≤ 7 ∧ ∃ p : List Byte, p.length = s.tx.size.toNat ∧
      (t = completeTx (s.fresh.busSend (encodeSingle s.tx.address s.tx.size.toNat p)) ∨
       t = (s.fresh.busSend (encodeSingle s.tx.address s.tx.size.toNat p)).takeError .busSendFail)) := by
  unfold execSendSingle at h
  split at h
  · rename_i hg
    unfold txSingle at h
    split at h
    · cases h
    · rename_i p hp
      refine .inr ⟨hg.1, hg.2, p, (memRead_cases hp).2.1, ?_⟩
      dsimp only at h
      split at h <;> cases h
      · exact .inl rfl
      · exact .inr rfl
  · cases h
    exact .inl rfl

/-- Everything a next state of `SendFirst` can be (44_state_machine.md R188, 43_tx_segmentation.md
R162). -/
theorem execSendFirst_cases (h : execSendFirst s = .next t) :
    (t = s.fresh.clearTx.enter .idle) ∨
    (8 ≤ s.tx.size.toNat ∧ ∃ p : List Byte, p.length = 6 ∧
      (t = ((s.fresh.busSend (encodeFirst s.tx.address s.tx.size p)).setTx
            { s.tx with position := 6, counter := 1 }).enter .checkCollision ∨
       t = (s.fresh.busSend (encodeFirst s.tx.address s.tx.size p)).takeError .busSendFail)) := by
  unfold execSendFirst at h
  split at h
  · rename_i hg
    unfold txFirst at h
    split at h
    · cases h
    · rename_i p hp
      refine .inr ⟨hg, p, (memRead_cases hp).2.1, ?_⟩
      dsimp only at h
      split at h <;> cases h
      · exact .inl rfl
      · exact .inr rfl
  · cases h
    exact .inl rfl

/-- The TX registers after a consecutive frame of `k` bytes (43_tx_segmentation.md R163). -/
def Transfer.advanced (r : Transfer) (k : Nat) : Transfer :=
  { r with position := r.position + BitVec.ofNat 12 k, counter := nextCounter r.counter }

/-- Everything a next state of `SendConsecutive` can be (44_state_machine.md R189, 43_tx_segmentation.md
R163). -/
theorem execSendConsecutive_cases (h : execSendConsecutive s = .next t) :
    (t = s.fresh.clearTx.enter .idle) ∨
    (8 ≤ s.tx.size.toNat ∧ 0 < s.tx.position.toNat ∧ s.tx.position.toNat < s.tx.size.toNat ∧
      ∃ (k : Nat) (c : List Byte), k = min 7 (s.tx.size.toNat - s.tx.position.toNat) ∧ c.length = k ∧
      ((s.tx.position.toNat + k = s.tx.size.toNat ∧
        t = completeTx ((s.fresh.busSend (encodeConsecutive s.tx.address s.tx.counter c k)).setTx
            (s.tx.advanced k))) ∨
       (s.tx.position.toNat + k < s.tx.size.toNat ∧
        t = ((s.fresh.busSend (encodeConsecutive s.tx.address s.tx.counter c k)).setTx
            (s.tx.advanced k)).enter .checkCollision) ∨
       t = (s.fresh.busSend (encodeConsecutive s.tx.address s.tx.counter c k)).takeError .busSendFail)) := by
  unfold execSendConsecutive at h
  split at h
  · rename_i hg
    unfold txConsecutive at h
    dsimp only at h
    split at h
    · cases h
    · rename_i c hc
      have hl := (memRead_cases hc).2.1
      have hlt := s.tx.size.isLt
      refine .inr ⟨hg.1, hg.2.1, hg.2.2, _, c, rfl, hl, ?_⟩
      have hadd : (s.tx.position + BitVec.ofNat 12 (min 7 (s.tx.size.toNat - s.tx.position.toNat))).toNat
          = s.tx.position.toNat + min 7 (s.tx.size.toNat - s.tx.position.toNat) :=
        add_ofNat_toNat (by omega)
      split at h
      · obtain rfl := Host.Outcome.next.inj h
        unfold advanceTx
        dsimp only
        split
        · rename_i hge
          change s.tx.size.toNat ≤ (s.tx.position +
            BitVec.ofNat 12 (min 7 (s.tx.size.toNat - s.tx.position.toNat))).toNat at hge
          exact .inl ⟨by omega, rfl⟩
        · rename_i hge
          change ¬ s.tx.size.toNat ≤ (s.tx.position +
            BitVec.ofNat 12 (min 7 (s.tx.size.toNat - s.tx.position.toNat))).toNat at hge
          exact .inr (.inl ⟨by omega, rfl⟩)
      · cases h
        exact .inr (.inr rfl)
  · cases h
    exact .inl rfl

/-- What `CheckCollision` can do with a frame it read or with none (45_collision.md R214). -/
theorem paceConsecutive_cases (s : State) :
    paceConsecutive s = s.enter .sendConsecutive ∨ paceConsecutive s = s := by
  unfold paceConsecutive
  split
  · exact .inl rfl
  · exact .inr rfl

theorem resolveCollision_cases (s : State) :
    resolveCollision s = ((s.rewindTx).raise .collisionWin).enter .sendFirst ∨
    resolveCollision s = (s.raise .collisionYield).enter .checkRead := by
  unfold resolveCollision
  split
  · exact .inl rfl
  · exact .inr rfl

/-- Everything a next state of `CheckCollision` can be (45_collision.md R214). -/
theorem execCheckCollision_cases (h : execCheckCollision s = .next t) :
    (s.inp.answers.avail = false ∧
      (t = s.fresh.askedAvailable.enter .sendConsecutive ∨ t = s.fresh.askedAvailable)) ∨
    (s.inp.answers.avail = true ∧
      (t = s.fresh.askedAvailable.askedRead.takeError .busReadFail ∨
       ∃ f, s.inp.answers.read = some f ∧
         (t = (((s.fresh.askedAvailable.askedRead.capture (BusFrame.captured f)).rewindTx).raise
              .collisionWin).enter .sendFirst ∨
          t = ((s.fresh.askedAvailable.askedRead.capture (BusFrame.captured f)).raise
              .collisionYield).enter .checkRead ∨
          t = (s.fresh.askedAvailable.askedRead.capture (BusFrame.captured f)).enter .sendConsecutive ∨
          t = s.fresh.askedAvailable.askedRead.capture (BusFrame.captured f)))) := by
  simp only [execCheckCollision] at h
  split at h
  · rename_i ha
    refine .inr ⟨ha, ?_⟩
    cases hr : s.inp.answers.read with
    | none =>
      rw [State.busRead_none s.fresh.askedAvailable.askedRead hr] at h
      cases h
      exact .inl rfl
    | some f =>
      rw [State.busRead_some s.fresh.askedAvailable.askedRead hr] at h
      refine .inr ⟨f, rfl, ?_⟩
      dsimp only at h
      split at h <;> obtain rfl := Host.Outcome.next.inj h
      · obtain he | he := resolveCollision_cases
          (s.fresh.askedAvailable.askedRead.capture (BusFrame.captured f)) <;> rw [he]
        · exact .inl rfl
        · exact .inr (.inl rfl)
      · obtain he | he := paceConsecutive_cases
          (s.fresh.askedAvailable.askedRead.capture (BusFrame.captured f)) <;> rw [he]
        · exact .inr (.inr (.inl rfl))
        · exact .inr (.inr (.inr rfl))
  · rename_i ha
    obtain rfl := Host.Outcome.next.inj h
    refine .inl ⟨Bool.eq_false_iff.2 ha, ?_⟩
    exact paceConsecutive_cases s.fresh.askedAvailable

/-! ## Commands -/

/-- The step of a state is the STATE row's meaning. -/
theorem stateStep_eq (s : State) : stateStep s = exec s.state.instr s := by
  unfold stateStep
  cases s.state <;> rfl

/-- Everything a TICK can do (47_host_commands.md R242). -/
theorem execTick_cases {now : Nat} (h : execTick now s = .next t) :
    (s.state = .disabled ∧ t = s.fresh.sampleClock now) ∨
    (s.state ≠ .disabled ∧ s.timer ≤ now % 2 ^ s.cfg.clockWidth ∧ 0 < s.timer ∧
      s.timer + s.cfg.stateTimeout < now % 2 ^ s.cfg.clockWidth ∧
      t = (s.fresh.sampleClock now).takeError .timeout) ∨
    (s.state ≠ .disabled ∧
      ¬ (s.timer ≤ now % 2 ^ s.cfg.clockWidth ∧ 0 < s.timer ∧
        s.timer + s.cfg.stateTimeout < now % 2 ^ s.cfg.clockWidth) ∧
      exec s.state.instr (s.fresh.sampleClock now).wrapHandler = .next t) := by
  unfold execTick at h
  dsimp only at h
  split at h
  · rename_i hd
    cases h
    exact .inl ⟨hd, rfl⟩
  · rename_i hd
    refine .inr ?_
    unfold tickEnabled at h
    dsimp only at h
    by_cases hw : now % 2 ^ s.cfg.clockWidth < s.timer
    · have he : (s.fresh.sampleClock now).wrapHandler =
          { s.fresh.sampleClock now with timer := now % 2 ^ s.cfg.clockWidth } := by
        unfold State.wrapHandler
        rw [if_pos ((State.clockWrapped_iff _).2 (by exact hw))]
        rfl
      rw [if_neg] at h
      · rw [stateStep_eq, State.wrapHandler_state] at h
        exact .inr ⟨hd, fun hc => by omega, h⟩
      · rw [he, State.timedOut_iff]
        show ¬ (0 < now % 2 ^ s.cfg.clockWidth ∧ now % 2 ^ s.cfg.clockWidth + s.cfg.stateTimeout <
          now % 2 ^ s.cfg.clockWidth)
        omega
    · have he : (s.fresh.sampleClock now).wrapHandler = s.fresh.sampleClock now := by
        unfold State.wrapHandler
        exact if_neg (fun hc => hw ((State.clockWrapped_iff _).1 hc))
      split at h
      · rename_i ht
        rw [he, State.timedOut_iff] at ht
        rw [he] at h
        cases h
        exact .inl ⟨hd, Nat.not_lt.1 hw, ht.1, ht.2, rfl⟩
      · rename_i ht
        rw [he, State.timedOut_iff] at ht
        rw [stateStep_eq, State.wrapHandler_state] at h
        exact .inr ⟨hd, fun hc => ht hc.2, h⟩

/-- Everything BEGIN can do (47_host_commands.md R241). -/
theorem execBegin_cases (h : execBegin s = .next t) :
    (s.state = .disabled ∧ t = (((s.fresh.clearRx).clearTx).disarmHold).enter .idle) ∨
    (s.state ≠ .disabled ∧ t = s.fresh) := by
  unfold execBegin at h
  split at h <;> rename_i hd <;> cases h
  · exact .inl ⟨hd, rfl⟩
  · exact .inr ⟨hd, rfl⟩

/-- Everything SEND can do (47_host_commands.md R243 to R245). -/
theorem execSend_cases {now : Nat} {addr : Ident} {len : Nat} {bytes : Option (List Byte)}
    (h : execSend now addr len bytes s = .next t) :
    t = (s.fresh.sampleClock now).takeError .invalidArgument ∨
    (s.state ≠ .idle ∧ t = (s.fresh.sampleClock now).takeError .busy) ∨
    (s.state = .idle ∧ 1 ≤ len ∧ len ≤ 4095 ∧ len ≤ s.cfg.maxBuffer ∧
      ∃ bs : List Byte, bytes = some bs ∧ bs.length ≤ s.cfg.maxBuffer ∧
        t = (((s.fresh.sampleClock now).setTx
              { address := addr, size := BitVec.ofNat 12 len, position := 0, counter := 0
                payload := Memory.writeN s.tx.payload 0 bs }).raise .sendAccepted).enter .checkSend) := by
  unfold execSend at h
  dsimp only at h
  split at h
  · cases h
    exact .inl rfl
  · rename_i hv
    simp only [sendInvalid, Bool.or_eq_true, decide_eq_true_eq, not_or] at hv
    obtain ⟨⟨⟨hn, h0⟩, h4⟩, hm⟩ := hv
    split at h
    · rename_i hi
      cases bytes with
      | none => exact absurd rfl hn
      | some bs =>
        unfold loadTx at h
        split at h
        · cases h
        · rename_i m hw
          obtain ⟨hb, rfl, -⟩ := memWrite_cases hw
          cases h
          rw [Nat.zero_add] at hb
          exact .inr (.inr ⟨hi, by omega, by omega, Nat.le_of_not_lt hm, bs, rfl, hb, rfl⟩)
    · rename_i hi
      cases h
      exact .inr (.inl ⟨hi, rfl⟩)

end Sys2Proof.Machine
end

