-- ==== Sys2Proof/Tests/Slice0.lean ====
section
/-! SUPPORT. Tests with expected values from 95_test_vectors.md (the row is named), the WellFormed smoke
tests, every constructor's decoding of a word written out from the spec, and one witness per statement that
has hypotheses. -/

namespace Sys2Proof.Tests

open Sys2Proof.Machine

/-! ## Small states -/

/-- The vectors' engine, enabled (parameters of 95_test_vectors.md). -/
def engine : State := { State.reset with state := .idle }

/-- A transfer of identifier 0x050. -/
def transfer (size position counter : Nat) (bytes : List Byte) : Transfer :=
  { address := 0x050, size := BitVec.ofNat 12 size, position := BitVec.ofNat 12 position
    counter := BitVec.ofNat 4 counter, payload := Memory.writeN [] 0 bytes }

/-- The engine in a state, at a clock sample and with a timer. -/
def inState (st : SeqState) (timer now : Nat) : State :=
  { engine with state := st, timer := timer, inp := { engine.inp with now := now } }

/-- A frame of `len` given bytes. -/
def frame (id : Ident) (bytes : List Byte) : Frame :=
  { id := id, len := BitVec.ofNat 4 bytes.length, data := bytes }

/-- The engine about to parse a frame, with an inbound transfer. -/
def parsing (f : Frame) (rx : Transfer) : State :=
  { inState .parseWhich 4999 5000 with rxf := f, rx := { rx with address := f.id } }

/-- The same environment with other hook answers. -/
def answering (s : State) (avail : Bool) (read : Option BusFrame) (sendOk : Bool) : State :=
  { s with inp := { s.inp with answers := { avail := avail, read := read, sendOk := sendOk } } }

/-- A frame on the bus, with 0xEE in the lanes that have no value. -/
def onBus (f : Frame) : BusFrame := Frame.onBus f (Vector.replicate 8 0xEE)

/-- The next state, if the outcome is one. -/
def next? : Host.Outcome State Fault Refusal → Option State
  | .next t    => some t
  | .fault _   => none
  | .refused _ => none

/-- The outcome is a next state, and it meets the test. -/
def reaches (o : Host.Outcome State Fault Refusal) (p : State → Bool) : Bool :=
  match o with
  | .next t    => p t
  | .fault _   => false
  | .refused _ => false

/-- State, timer and event code after. -/
def view (t : State) : SeqState × Nat × Nat := (t.state, t.timer, t.out.event.code)

/-- A transfer as the vectors write it. -/
def scalars (r : Transfer) : Nat × Nat × Nat := (r.size.toNat, r.position.toNat, r.counter.toNat)

/-- The messages delivered, as (address, bytes, length). -/
def messages (t : State) : List (Ident × List Byte × Nat) :=
  t.out.delivered.map (fun m => (m.address, m.bytes, m.len))

/-- Twenty bytes 00 to 13. -/
def twenty : List Byte :=
  [0x00, 0x01, 0x02, 0x03, 0x04, 0x05, 0x06, 0x07, 0x08, 0x09,
   0x0A, 0x0B, 0x0C, 0x0D, 0x0E, 0x0F, 0x10, 0x11, 0x12, 0x13]

/-- Ten bytes 01 to 0A. -/
def ten : List Byte := [0x01, 0x02, 0x03, 0x04, 0x05, 0x06, 0x07, 0x08, 0x09, 0x0A]

/-! ## WellFormed smoke: each check refuses an ill-formed term -/

theorem test_wellFormed_body_of_eight :
    [Instr.sf 0 1 (twenty.take 8), .ff 0 1 (twenty.take 8), .cf 0 1 (twenty.take 8), .fc 0 1 (twenty.take 8),
     .unk47 0 1 (twenty.take 8), .unk815 0 1 (twenty.take 8)].all (fun i => !i.wellFormed) = true := by decide

theorem test_wellFormed_send_length :
    Instr.wellFormed (.send 0 0 3 (some [1, 2])) = false ∧ Instr.wellFormed (.send 0 0 2 (some [1, 2])) = true ∧
    Instr.wellFormed (.send 0 0 9 none) = true := by decide

/-! ## Decoding, from the encodings of 30_encoding.md R82 to R91 and 10_state.md R21 -/

theorem test_decode_pci :
    decodeFrame (frame 0x321 [0x04, 0xDE, 0xAD, 0xBE, 0xEF]) = .ok (.sf 0x321 4 [0xDE, 0xAD, 0xBE, 0xEF]) ∧
    decodeFrame (frame 0x100 [0x1A, 0xBC, 1, 2, 3, 4, 5, 6]) = .ok (.ff 0x100 0xA [0xBC, 1, 2, 3, 4, 5, 6]) ∧
    decodeFrame (frame 0x100 [0x2F, 7, 8]) = .ok (.cf 0x100 0xF [7, 8]) ∧
    decodeFrame (frame 0x100 [0x31, 0, 9]) = .ok (.fc 0x100 1 [0, 9]) ∧
    decodeFrame (frame 0x100 [0x40]) = .ok (.unk47 0x100 0 []) ∧
    decodeFrame (frame 0x100 [0x7E]) = .ok (.unk47 0x100 0x3E []) ∧
    decodeFrame (frame 0x100 [0x80]) = .ok (.unk815 0x100 0 []) ∧
    decodeFrame (frame 0x100 [0xFF, 5]) = .ok (.unk815 0x100 0x7F [5]) := by decide

theorem test_decode_frame_lengths :
    decodeFrame { id := 0, len := 0, data := [] } = .error .inadmissibleLength ∧
    decodeFrame { id := 0, len := 9, data := twenty.take 8 } = .error .inadmissibleLength ∧
    decodeFrame { id := 0, len := 2, data := [1] } = .error .bytesWithoutValue := by decide

theorem test_decode_cmd :
    decodeCmd { number := 0b00, now := 9, addr := 9, len := 9, bytes := none } = .ok .begin ∧
    decodeCmd { number := 0b01, now := 50, addr := 9, len := 9, bytes := none } = .ok (.tick 50) ∧
    decodeCmd { number := 0b10, now := 50, addr := 0x100, len := 1, bytes := some [0x5A] } =
      .ok (.send 50 0x100 1 (some [0x5A])) ∧
    decodeCmd { number := 0b11, now := 0, addr := 0, len := 0, bytes := none } = .error .reservedCommand ∧
    decodeCmd { number := 0b10, now := 0, addr := 0, len := 2, bytes := some [1] } =
      .error .lengthMismatch := by decide

theorem test_decode_state :
    [0, 1, 2, 3, 4, 5, 6, 7, 8, 9].map (fun n => decodeState (BitVec.ofNat 4 n)) =
      [.ok .disabled, .ok .idle, .ok .checkRead, .ok .read, .ok .parseWhich, .ok .checkSend, .ok .sendSingle,
       .ok .sendFirst, .ok .sendConsecutive, .ok .checkCollision] ∧
    [10, 11, 12, 13, 14, 15].all (fun n => decodeState (BitVec.ofNat 4 n) == .error .reservedState) = true := by
  decide

theorem test_table_words :
    decodeTableWord 8 0x10 = some (.ff 0 0 [0, 0, 0, 0, 0, 0, 0]) ∧
    decodeTableWord 8 0x80 = some (.unk815 0 0 [0, 0, 0, 0, 0, 0, 0]) ∧
    decodeTableWord 8 1 = some (.tick 0) ∧ decodeTableWord 8 9 = some .checkCollision ∧
    (next? (step (State.reset.withFetchWord 8 0x40))).map view = some (.checkRead, 0, 6) ∧
    (next? (step (State.reset.withFetchWord 8 3))).map view = some (.checkRead, 0, 11) := by decide

/-! ## The codec (95_test_vectors.md 2.1) -/

theorem test_codec_decoders :
    decodeSingle (frame 0 [0x01, 0x5A]) = some [0x5A] ∧ decodeSingle (frame 0 [0x00]) = none ∧
    decodeSingle (frame 0 [0x08, 1, 2, 3, 4, 5, 6, 7]) = none ∧
    decodeSingle (frame 0 [0x03, 0xAA, 0xBB, 0xCC, 0x00]) = none ∧
    decodeFirst 4095 (frame 0 [0x1A, 0xBC, 1, 2, 3, 4, 5, 6]) = some (2748, [1, 2, 3, 4, 5, 6]) ∧
    decodeFirst 64 (frame 0 [0x10, 0x41, 1, 2, 3, 4, 5, 6]) = none ∧
    decodeFirst 64 (frame 0 [0x10, 0x0A, 1, 2, 3, 4, 5]) = none ∧
    decodeConsecutive (frame 0 [0x2F, 0x47, 0x48, 0x49, 0, 0, 0, 0]) 3 = some (15, [0x47, 0x48, 0x49]) ∧
    decodeConsecutive (frame 0 [0x20]) 1 = none := by decide

theorem test_codec_encoders :
    encodeSingle 0x80000123 1 [0x00] = frame 0x80000123 [0x01, 0x00] ∧
    encodeFirst 0x100 2748 [1, 2, 3, 4, 5, 6] = frame 0x100 [0x1A, 0xBC, 1, 2, 3, 4, 5, 6] ∧
    encodeConsecutive 0x100 15 [1, 2, 3, 4, 5, 6, 7] 7 = frame 0x100 [0x2F, 1, 2, 3, 4, 5, 6, 7] ∧
    [7, 8, 13, 14, 20, 64, 125, 4095].map frameCount = [1, 2, 2, 3, 3, 10, 18, 586] := by decide

/-! ## Frames of each class (95_test_vectors.md 2.3), each one `ParseWhich` step -/

theorem test_sf_delivers_and_keeps_rx :
    reaches (exec .parseWhich (parsing (frame 0x050 [0x01, 0x5A]) (transfer 20 13 2 (twenty.take 13))))
      (fun t => view t == (.idle, 0, 7) && scalars t.rx == (20, 13, 2) &&
        messages t == [(0x050, [0x5A], 1)]) = true := by decide

theorem test_sf_padded_is_dropped :
    (next? (exec (.sf 0x050 3 [0xAA, 0xBB, 0xCC, 0x00]) (inState .parseWhich 4999 5000))).map
      (fun t => (view t, messages t)) = some ((.checkRead, 5000, 6), []) := by decide

theorem test_ff_restarts_a_reassembly :
    (next? (exec .parseWhich (parsing (frame 0x050 [0x10, 0x09, 0x41, 0x42, 0x43, 0x44, 0x45, 0x46])
      (transfer 20 13 2 (twenty.take 13))))).map
      (fun t => (view t, scalars t.rx, Memory.read t.rx.payload 0, Memory.read t.rx.payload 6)) =
    some ((.checkRead, 5000, 0), (9, 6, 1), some 0x41, some 0x06) := by decide

theorem test_ff_above_the_buffer_is_dropped :
    (next? (exec (.ff 0x050 0 [0x41, 1, 2, 3, 4, 5, 6]) (inState .parseWhich 4999 5000))).map
      (fun t => (view t, scalars t.rx)) = some ((.checkRead, 5000, 6), (0, 0, 0)) := by decide

theorem test_cf_completes_with_the_last_sender :
    reaches (exec .parseWhich (parsing (frame 0x060 [0x2F, 0x47, 0x48, 0x49])
      (transfer 9 6 1 [0x41, 0x42, 0x43, 0x44, 0x45, 0x46])))
      (fun t => view t == (.idle, 0, 7) && scalars t.rx == (0, 0, 0) &&
        messages t == [(0x060, [0x41, 0x42, 0x43, 0x44, 0x45, 0x46, 0x47, 0x48, 0x49], 9)]) = true := by
  decide

theorem test_cf_appends :
    (next? (exec (.cf 0x050 1 [0x06, 0x07, 0x08, 0x09, 0x0A, 0x0B, 0x0C])
      { inState .parseWhich 4999 5000 with rx := transfer 20 6 1 (twenty.take 6) })).map
      (fun t => (view t, scalars t.rx, Memory.read t.rx.payload 12)) =
    some ((.checkRead, 5000, 0), (20, 13, 2), some 0x0C) := by decide

theorem test_fc_is_ignored :
    (next? (exec .parseWhich (parsing (frame 0x050 [0x32]) (transfer 9 6 1 (twenty.take 6))))).map
      (fun t => (view t, scalars t.rx)) = some ((.checkRead, 5000, 0), (9, 6, 1)) := by decide

theorem test_unk47_is_dropped :
    (next? (exec .parseWhich (parsing (frame 0x050 [0x40]) (transfer 9 6 1 (twenty.take 6))))).map
      (fun t => (view t, scalars t.rx)) = some ((.checkRead, 5000, 6), (9, 6, 1)) := by decide

theorem test_unk815_is_dropped :
    (next? (exec .parseWhich (parsing (frame 0x050 [0xFF, 0, 0]) (transfer 9 6 1 (twenty.take 6))))).map
      (fun t => (view t, scalars t.rx)) = some ((.checkRead, 5000, 6), (9, 6, 1)) := by decide

theorem test_parseWhich_length_nine :
    (next? (exec .parseWhich (parsing { id := 1, len := 9, data := twenty.take 8 } (transfer 0 0 0 [])))).map
      view = some (.checkRead, 5000, 6) := by decide

/-! ## Host commands (95_test_vectors.md 2.7) and the tick prologue (2.4) -/

theorem test_begin_from_reset : (next? (exec .begin State.reset)).map view = some (.idle, 0, 0) := by decide

theorem test_begin_when_enabled :
    (next? (exec .begin { inState .checkRead 2002 0 with rx := transfer 9 6 1 (twenty.take 6) })).map
      (fun t => (view t, scalars t.rx)) = some ((.checkRead, 2002, 0), (9, 6, 1)) := by decide

theorem test_tick_timeout :
    (next? (exec (.tick 1101) { inState .checkRead 1000 0 with
      rx := transfer 9 6 1 (twenty.take 6), tx := transfer 20 0 1 twenty })).map
      (fun t => (view t, scalars t.rx, scalars t.tx, t.out.availCalls)) =
    some ((.idle, 0, 5), (0, 0, 0), (0, 0, 0), 0) := by decide

theorem test_tick_sum_is_not_truncated_and_wrap :
    (next? (exec (.tick 0xFFFFFFF7) (inState .checkRead 0xFFFFFFF6 0))).map view =
      some (.checkRead, 0xFFFFFFF6, 0) ∧
    (next? (exec (.tick 0x100000005) (inState .checkRead 0xFFFFFFF0 0))).map view =
      some (.checkRead, 5, 0) := by decide

theorem test_send_over_a_pending_transfer :
    reaches (exec (.send 50 0x321 4 (some [0xDE, 0xAD, 0xBE, 0xEF]))
      { engine with tx := transfer 10 0 1 ten, hold := { active := true, start := 45 } })
      (fun t => view t == (.checkSend, 50, 12) && scalars t.tx == (4, 0, 0) && t.tx.address == 0x321 &&
        Memory.readN t.tx.payload 0 4 == some [0xDE, 0xAD, 0xBE, 0xEF] &&
        t.hold == { active := true, start := 45 }) = true := by decide

theorem test_send_argument_check_comes_first :
    (next? (exec (.send 50 0x100 0 (some [])) State.reset)).map view = some (.disabled, 0, 1) ∧
    (next? (exec (.send 50 0x100 1 (some [0x5A])) State.reset)).map view = some (.disabled, 0, 2) := by decide

/-! ## State steps (95_test_vectors.md 2.5, 2.6) -/

theorem test_disabled : (next? (exec .disabled State.reset)).map view = some (.disabled, 0, 0) := by decide

theorem test_idle_holdoff_gate :
    (next? (exec .idle { inState .idle 0 124 with
      tx := transfer 10 0 1 ten, hold := { active := true, start := 105 } })).map view = some (.idle, 0, 0) ∧
    (next? (exec .idle { inState .idle 0 0xC with
      tx := transfer 10 0 1 ten, hold := { active := true, start := 0xFFFFFFF8 } })).map view =
      some (.checkSend, 12, 0) := by decide

theorem test_idle_receives_first :
    (next? (exec .idle (answering { inState .idle 0 5000 with tx := transfer 10 0 1 ten } true none true))).map
      view = some (.read, 5000, 0) := by decide

theorem test_checkRead :
    (next? (exec .checkRead (answering (inState .checkRead 4990 5000) true none true))).map view =
      some (.read, 5000, 0) ∧
    (next? (exec .checkRead (inState .checkRead 4990 5000))).map view = some (.checkRead, 4990, 0) := by decide

theorem test_read_yield :
    (next? (exec .read (answering { inState .read 4990 5000 with tx := transfer 10 6 1 ten } true
      (some (onBus (frame 0x300 [0x10, 0x0A, 1, 2, 3, 4, 5, 6]))) true))).map
      (fun t => (view t, scalars t.tx, t.hold, t.rx.address)) =
    some ((.parseWhich, 5000, 10), (10, 0, 1), { active := true, start := 5000 }, 0x300) := by decide

theorem test_read_win :
    reaches (exec .read (answering { inState .read 4990 5000 with
      tx := transfer 10 6 1 ten, rx := transfer 9 6 1 (twenty.take 6) } true
      (some (onBus (frame 0x301 [0x01, 0x5A]))) true))
      (fun t => view t == (.checkRead, 5000, 9) && scalars t.tx == (10, 0, 1) && scalars t.rx == (0, 0, 0) &&
        messages t == []) = true := by decide

theorem test_checkSend_paths :
    [(0, 0, 0), (7, 0, 0), (8, 0, 0), (20, 13, 2)].map (fun q =>
      (next? (exec .checkSend { inState .checkSend 4990 5000 with
        tx := transfer q.1 q.2.1 q.2.2 twenty })).map (fun t => t.state)) =
    [some .idle, some .sendSingle, some .sendFirst, some .sendConsecutive] := by decide

theorem test_sendSingle :
    (next? (exec .sendSingle (answering { inState .sendSingle 4990 5000 with
      tx := transfer 4 0 0 [0xDE, 0xAD, 0xBE, 0xEF] } false none true))).map
      (fun t => (view t, scalars t.tx, t.out.sent)) =
    some ((.idle, 0, 8), (0, 0, 0), [frame 0x050 [0x04, 0xDE, 0xAD, 0xBE, 0xEF]]) := by decide

theorem test_sendFirst :
    (next? (exec .sendFirst (answering { inState .sendFirst 4990 5000 with tx := transfer 10 0 0 ten }
      false none true))).map (fun t => (view t, scalars t.tx, t.out.sent)) =
    some ((.checkCollision, 5000, 0), (10, 6, 1), [frame 0x050 [0x10, 0x0A, 1, 2, 3, 4, 5, 6]]) := by decide

theorem test_sendFirst_fails :
    (next? (exec .sendFirst (answering { inState .sendFirst 4990 5000 with tx := transfer 20 0 0 twenty }
      false none false))).map (fun t => (view t, scalars t.tx)) = some ((.idle, 0, 3), (0, 0, 0)) := by decide

theorem test_sendConsecutive_goes_on :
    (next? (exec .sendConsecutive (answering { inState .sendConsecutive 4990 5000 with
      tx := transfer 20 6 15 twenty } false none true))).map (fun t => (view t, scalars t.tx, t.out.sent)) =
    some ((.checkCollision, 5000, 0), (20, 13, 0),
      [frame 0x050 [0x2F, 0x06, 0x07, 0x08, 0x09, 0x0A, 0x0B, 0x0C]]) := by decide

theorem test_sendConsecutive_ends :
    (next? (exec .sendConsecutive (answering { inState .sendConsecutive 4990 5000 with
      tx := transfer 10 6 1 ten } false none true))).map (fun t => (view t, scalars t.tx, t.out.sent)) =
    some ((.idle, 0, 8), (0, 0, 0), [frame 0x050 [0x21, 0x07, 0x08, 0x09, 0x0A]]) := by decide

theorem test_checkCollision_by_tag_only :
    (next? (exec .checkCollision (answering { inState .checkCollision 4990 5000 with
      tx := transfer 20 6 1 twenty } true
      (some (onBus (frame 0x301 [0x10, 0x0A, 0x01]))) true))).map
      (fun t => (view t, scalars t.tx, t.rx.address)) =
    some ((.sendFirst, 5000, 9), (20, 0, 1), 0x301) := by decide

theorem test_checkCollision_stays_and_consumes :
    reaches (exec .checkCollision (answering { inState .checkCollision 4990 5000 with
      tx := transfer 20 6 1 twenty } true (some (onBus (frame 0x200 [0x01, 0x5A]))) true))
      (fun t => view t == (.checkCollision, 4990, 0) && scalars t.tx == (20, 6, 1) && messages t == [] &&
        t.out.readCalls == 1) = true := by decide

/-! ## The publish message (95_test_vectors.md 2.8, E5) -/

theorem test_publish :
    publishBytes 64 [0x74] [0x68, 0x69] = some [0x03, 0x01, 0x00, 0x74, 0x02, 0x00, 0x68, 0x69] ∧
    publishBytes 64 (List.replicate 30 0) (List.replicate 30 0) = none := by decide

/-! ## The environment: two engines, and a host's loop (60_exceptions.md R278, 47_host_commands.md R247) -/

/-- Engines 0x100 and 0x200 in `CheckCollision`, ten bytes to send each, with the other's frame waiting. -/
def colliding (fa fb : Frame) : Pair :=
  let own (a : Ident) : State :=
    { inState .checkCollision 102 102 with
      cfg := { Params.vectors with ownAddress := a }, tx := transfer 10 6 1 ten }
  { a := own 0x100, b := own 0x200, toA := [fb], toB := [fa] }

/-- An environment that answers every send `ok`, and lets the reads fail or not. -/
def quietBus (readFails : Bool) : BusInputs :=
  { readFails := readFails, sendOk := true, lanes := Vector.replicate 8 0xEE }

/-- A turn of a host's loop with a frame waiting; its clock is read at `clock`. -/
def turnAt (clock : Nat) : SpinInputs :=
  { sendClock := clock, testClock := clock, tickClock := clock
    answers := { avail := true, read := some (onBus (frame 0x050 [0x01, 0x5A])), sendOk := true } }

/-- 20_memory.md R71: a read may fail with a frame waiting; 92_eei_decisions.md D35: it consumes nothing. -/
theorem test_pair_read_fails :
    (match (colliding (frame 0x100 [0x10]) (frame 0x200 [0x10])).tickA 103 (quietBus true) with
      | .next p    => view p.a == (.idle, 0, 4) && p.toA == [frame 0x200 [0x10]]
      | .fault _   => false
      | .refused _ => false) = true := by decide

/-- 47_host_commands.md R247: a message delivered in the spin's TICK is in what the blocking send returns. -/
theorem test_spin_delivers :
    (match blockingSend 5000 0x100 ten.length (some ten) [turnAt 5001, turnAt 5002]
        (parsing (frame 0x050 [0x01, 0x5A]) (transfer 0 0 0 [])) with
      | .next r    => r.status == .ok && r.state.state == .checkSend &&
          r.delivered == [{ address := 0x050, bytes := [0x5A], len := 1 }] && r.sent == []
      | .fault _   => false
      | .refused _ => false) = true := by decide

/-- 47_host_commands.md R248, R249: `publish` without an address, on an idle engine and oversized. -/
theorem test_publish_procedure :
    (match publish 5000 none [0x74] [0x68, 0x69] [turnAt 5001] engine with
      | .next r    => r.status == .ok && r.state.tx.address == 0x300 && scalars r.state.tx == (8, 0, 0) &&
          Memory.readN r.state.tx.payload 0 8 == some [0x03, 0x01, 0x00, 0x74, 0x02, 0x00, 0x68, 0x69]
      | .fault _   => false
      | .refused _ => false) = true ∧
    publish 5000 none (List.replicate 60 0) [] [turnAt 5001] engine =
      .next { status := .invalidArgument, state := engine, outputs := [] } := by
  refine ⟨by decide, rfl⟩

/-! ## Witnesses: every hypothesis of every statement met by concrete values

One theorem per statement, named after it; a statement that only assumes `exec i s = .next t` for every
instruction shares `witness_next`. -/

/-- A receiving engine: six bytes of a nine-byte message are in. -/
def receiving : State := { inState .checkRead 1000 1000 with rx := transfer 9 6 1 (twenty.take 6) }

/-- An engine with a ten-byte message just loaded. -/
def loaded : State :=
  answering { inState .checkSend 1000 1000 with tx := transfer 10 0 0 ten } false none true

/-- An engine about to parse a single frame of one byte. -/
def parsingSf : State := parsing (frame 0x050 [0x01, 0x5A]) (transfer 0 0 0 [])

theorem engine_inv : engine.Inv :=
  ⟨by decide, ⟨by decide, by decide, by decide, by decide⟩, ⟨by decide, by decide, by decide, by decide, by decide⟩,
    trivial, by decide, by decide, by decide, by decide, by decide, by decide⟩

theorem receiving_inv : receiving.Inv :=
  ⟨by decide, ⟨by decide, by decide, by decide, by decide⟩, ⟨by decide, by decide, by decide, by decide, by decide⟩,
    trivial, by decide, by decide, by decide, by decide, by decide, by decide⟩

theorem loaded_inv : loaded.Inv :=
  ⟨by decide, ⟨by decide, by decide, by decide, by decide⟩, ⟨by decide, by decide, by decide, by decide, by decide⟩,
    trivial, by decide, by decide, by decide, by decide, by decide, by decide⟩

theorem sendingFirst_inv : State.Inv { loaded with state := .sendFirst } :=
  ⟨by decide, ⟨by decide, by decide, by decide, by decide⟩, ⟨by decide, by decide, by decide, by decide, by decide⟩,
    (by decide : 8 ≤ loaded.tx.size.toNat), by decide, by decide, by decide, by decide, by decide, by decide⟩

theorem parsingSf_inv : parsingSf.Inv :=
  ⟨by decide, ⟨by decide, by decide, by decide, by decide⟩, ⟨by decide, by decide, by decide, by decide, by decide⟩,
    trivial, by decide, by decide, by decide, by decide, by decide, by decide⟩

/-- ParametersAreNeverWritten, OnlyBeginLeavesDisabled (each of its two clauses), TicksFollowTheTransitionTable,
HookCallsFollowTheStateTable, OnlyAReadWritesTheFrameRegister, HoldoffPairHasThreeWriters,
AtMostOneTransferAdvancesPerTick, ErrorsEndExactlyTheirTransfers, OnlySendWritesTheOutboundMessage and
OnlyParsingWritesTheInboundBuffer (a TICK in `Idle` is neither SEND nor a parse). -/
theorem witness_next :
    (∃ t, exec (.tick 50) engine = .next t) ∧ engine.state ≠ .disabled ∧ engine.state ≠ .parseWhich ∧
    (∃ t, exec (.tick 50) State.reset = .next t) ∧ State.reset.state = .disabled ∧
    (∃ t, exec .begin State.reset = .next t) ∧
    (∃ t, exec (.send 50 0x100 1 (some [0x5A])) engine = .next t) :=
  ⟨⟨_, rfl⟩, by decide, by decide, ⟨_, rfl⟩, rfl, ⟨_, rfl⟩, ⟨_, rfl⟩⟩

/-- Both sides of the boundary: 1100 does not time out a timer of 1000, 1101 does. -/
theorem witness_TimeoutIsReportedExactlyWhenDue :
    (∃ t, exec (.tick 1101) receiving = .next t ∧ t.out.event = .timeout) ∧
    (∃ t, exec (.tick 1100) receiving = .next t ∧ t.out.event = .none) := ⟨⟨_, rfl, rfl⟩, ⟨_, rfl, rfl⟩⟩

/-- Clause 1 at each refused length, clause 2 at the longest good one. -/
theorem witness_SendIsRefusedWithoutEffect :
    engine.cfg.maxBuffer < 65 ∧ 4095 < 4096 ∧ some (List.replicate 64 (0 : Byte)) ≠ none ∧
    64 ≤ receiving.cfg.maxBuffer ∧ receiving.state ≠ .idle := by decide

theorem witness_SendLoadsTheTransfer :
    0 < (List.replicate 64 (0 : Byte)).length ∧ (List.replicate 64 (0 : Byte)).length ≤ 4095 ∧
    (List.replicate 64 (0 : Byte)).length ≤ engine.cfg.maxBuffer ∧ engine.state = .idle := by decide

/-- The smallest and the largest valid size. -/
theorem witness_FirstFrameStartsAReassembly :
    (twenty.take 6).length = 6 ∧ 8 ≤ (0 : BitVec 4).toNat * 256 + (8 : Byte).toNat ∧
    (0 : BitVec 4).toNat * 256 + (64 : Byte).toNat ≤ engine.cfg.maxBuffer := by decide

theorem witness_InvalidFirstFrameIsDropped :
    (twenty.take 6).length ≠ 7 ∧ (0 : BitVec 4).toNat * 256 + (7 : Byte).toNat < 8 ∧
    engine.cfg.maxBuffer < (0 : BitVec 4).toNat * 256 + (65 : Byte).toNat := by decide

theorem witness_UnusableConsecutiveFrameIsDropped :
    engine.rx.size.toNat = 0 ∧ receiving.rx.position.toNat < receiving.rx.size.toNat ∧
    (twenty.take 2).length < min 7 (receiving.rx.size.toNat - receiving.rx.position.toNat) := by decide

/-- One byte stays after the append. -/
theorem witness_ConsecutiveFrameAppends :
    let s : State := { receiving with rx := transfer 14 6 1 (twenty.take 6) }
    let n := min 7 (s.rx.size.toNat - s.rx.position.toNat)
    s.rx.position.toNat + n < s.rx.size.toNat ∧ n ≤ (twenty.take 7).length ∧
    s.rx.size.toNat ≤ s.cfg.maxBuffer := by decide

/-- Seven bytes remaining, and one. -/
theorem witness_LastConsecutiveFrameDeliversTheMessage :
    [13, 7].all (fun size =>
      let s : State := { receiving with rx := transfer size 6 1 (twenty.take 6) }
      decide (s.rx.position.toNat < s.rx.size.toNat ∧ s.rx.size.toNat ≤ s.rx.position.toNat + 7 ∧
        s.rx.size.toNat - s.rx.position.toNat ≤ (twenty.take 7).length ∧
        s.rx.size.toNat ≤ s.cfg.maxBuffer ∧ Memory.holds s.rx.payload s.rx.position.toNat)) = true := by decide

theorem witness_DisabledDoesNothing : State.reset.state = .disabled := rfl

theorem witness_ReadFetchesAFrame :
    engine.inp.answers.read = none ∧
    (answering engine true (some (onBus (frame 1 [1, 2]))) true).inp.answers.read =
      some (onBus (frame 1 [1, 2])) ∧
    engine.tx.size.toNat = 0 ∧ 0 < loaded.tx.size.toNat ∧ loaded.tx.position.toNat = 0 := by decide

/-- An address just above OWN_ADDRESS, and the equal one. -/
theorem witness_ReadCollisionRewindsAndResolves :
    let f := onBus (frame 0x301 [0x01, 0x5A])
    let g := onBus (frame 0x300 [0x01, 0x5A])
    let s := answering { engine with tx := transfer 10 6 1 ten } true (some f) true
    s.inp.answers.read = some f ∧ 0 < s.tx.size.toNat ∧ 0 < s.tx.position.toNat ∧
    s.cfg.ownAddress.toNat < f.id.toNat ∧ ¬ s.cfg.ownAddress.toNat < g.id.toNat := by decide

theorem witness_ParseWhichRunsTheDecodedFrame :
    decodeFrame parsingSf.rxf = .ok (.sf 0x050 1 [0x5A]) ∧
    ({ id := 0, len := 0, data := [] } : Frame).len.toNat = 0 ∧
    8 < ({ id := 0, len := 9, data := twenty.take 8 } : Frame).len.toNat := by decide

/-- A single frame of one byte and of seven; a first frame of size 8 and of MAX_BUFFER. -/
theorem witness_ParseWhichCompletesOnFrameBytes :
    [1, 7].all (fun n =>
      let bs := twenty.take n
      let s := parsing { id := 0, len := BitVec.ofNat 4 (1 + n), data := BitVec.ofNat 8 n :: bs } (transfer 0 0 0 [])
      decide (1 ≤ bs.length ∧ bs.length ≤ 7 ∧ s.rxf.len = BitVec.ofNat 4 (1 + bs.length) ∧
        s.rxf.data = BitVec.ofNat 8 bs.length :: bs)) = true ∧
    [8, 64].all (fun size =>
      let s := parsing { id := 0, len := 8
                         data := BitVec.ofNat 8 (0x10 + size / 256) :: BitVec.ofNat 8 (size % 256) :: twenty.take 6 }
        (transfer 0 0 0 [])
      decide (8 ≤ size ∧ size ≤ 4095 ∧ size ≤ s.cfg.maxBuffer ∧ (twenty.take 6).length = 6 ∧ s.rxf.len = 8 ∧
        s.rxf.data = BitVec.ofNat 8 (0x10 + size / 256) :: BitVec.ofNat 8 (size % 256) :: twenty.take 6)) =
      true := by decide

theorem witness_SendSingleSendsTheWholeMessage :
    [1, 7].all (fun size =>
      let s : State := { engine with tx := transfer size 0 0 (twenty.take size) }
      decide (1 ≤ s.tx.size.toNat ∧ s.tx.size.toNat ≤ 7 ∧ s.tx.size.toNat ≤ s.cfg.maxBuffer ∧
        Memory.holds s.tx.payload s.tx.size.toNat)) = true := by decide

theorem witness_SendFirstSendsSixBytes :
    let s : State := { engine with tx := transfer 8 0 0 (twenty.take 8) }
    8 ≤ s.tx.size.toNat ∧ 6 ≤ s.cfg.maxBuffer ∧ Memory.holds s.tx.payload 6 := by decide

/-- The transfer goes on (13 of 20 after it), and ends (20 of 20). -/
theorem witness_SendConsecutiveSendsTheNextChunk :
    [6, 13].all (fun position =>
      let s : State := { engine with tx := transfer 20 position 1 twenty }
      decide (8 ≤ s.tx.size.toNat ∧ 0 < s.tx.position.toNat ∧ s.tx.position.toNat < s.tx.size.toNat ∧
        s.tx.size.toNat ≤ s.cfg.maxBuffer ∧ Memory.holds s.tx.payload s.tx.size.toNat)) = true := by decide

theorem witness_DeadSendBranchesClearAndIdle :
    ¬ (1 ≤ engine.tx.size.toNat ∧ engine.tx.size.toNat ≤ 7) ∧
    (transfer 7 0 0 []).size.toNat < 8 ∧
    ¬ (8 ≤ loaded.tx.size.toNat ∧ 0 < loaded.tx.position.toNat ∧
      loaded.tx.position.toNat < loaded.tx.size.toNat) := by decide

theorem witness_CollisionCheckReadFailureEndsBoth :
    (answering engine true none true).inp.answers.avail = true ∧
    (answering engine true none true).inp.answers.read = none := by decide

/-- The first and the last PCI byte that collides, at the shortest and the longest admissible length. -/
theorem witness_CollisionCheckResolvesByAddress :
    [(0x10, 1), (0x2F, 8)].all (fun q =>
      let f := onBus { id := 0x301, len := BitVec.ofNat 4 q.2, data := [BitVec.ofNat 8 q.1] }
      decide (1 ≤ f.len.toNat ∧ f.len.toNat ≤ 8 ∧ f.lanes.toList = BitVec.ofNat 8 q.1 :: List.replicate 7 0xEE ∧
        0x10 ≤ (BitVec.ofNat 8 q.1).toNat ∧ (BitVec.ofNat 8 q.1).toNat ≤ 0x2F)) = true ∧
    (answering engine true (some (onBus (frame 1 [0x10]))) true).inp.answers.avail = true := by decide

/-- No frame; then lengths 0 and 9, and the PCI bytes just outside 0x10 to 0x2F. -/
theorem witness_CollisionCheckPacesTheNextFrame :
    engine.inp.answers.avail = false ∧
    [(0, 0x10), (9, 0x10), (1, 0x0F), (1, 0x30)].all (fun q =>
      let f := onBus { id := 1, len := BitVec.ofNat 4 q.1, data := [BitVec.ofNat 8 q.2] }
      decide (f.lanes.toList = BitVec.ofNat 8 q.2 :: List.replicate 7 0xEE ∧
        (f.len.toNat = 0 ∨ 8 < f.len.toNat ∨ (BitVec.ofNat 8 q.2).toNat < 0x10 ∨
          0x2F < (BitVec.ofNat 8 q.2).toNat))) = true := by decide

theorem witness_ModelStopsByNameOutsideTheRules :
    (0 < (transfer 9 9 2 []).size.toNat ∧ (transfer 9 9 2 []).size.toNat ≤ (transfer 9 9 2 []).position.toNat) ∧
    (({ id := 0, len := 2, data := [1] } : Frame).admissible = true ∧
      ({ id := 0, len := 2, data := [1] } : Frame).wf = false) ∧
    (8 ≤ (transfer 8 0 0 []).size.toNat ∧ 6 ≤ engine.cfg.maxBuffer ∧
      Memory.read (transfer 8 0 0 []).payload 0 = none) ∧
    (1 ≤ (transfer 7 0 0 []).size.toNat ∧ (transfer 7 0 0 []).size.toNat ≤ 7 ∧
      ({ Params.vectors with maxBuffer := 6 } : Params).maxBuffer < (transfer 7 0 0 []).size.toNat) ∧
    (let r : HostRequest :=
        { word := { number := 3, now := 0, addr := 0, len := 0, bytes := none }, answers := Answers.none };
      ({ engine with host := [r] } : State).host = r :: [] ∧ r.word.number = 3) ∧
    (let r : HostRequest :=
        { word := { number := 2, now := 0, addr := 0, len := 3, bytes := some [1, 2] }
          answers := Answers.none };
      ({ engine with host := [r] } : State).host = r :: [] ∧ r.word.number = 2 ∧
        r.word.bytes = some [1, 2] ∧ ([1, 2] : List Byte).length ≠ r.word.len) := by decide

theorem witness_CodecRoundTrips :
    [1, 7].all (fun n => decide (1 ≤ (twenty.take n).length ∧ (twenty.take n).length ≤ 7 ∧
      min 7 n = (twenty.take n).length)) = true ∧
    8 ≤ (8 : BitVec 12).toNat ∧ (4095 : BitVec 12).toNat ≤ 4095 ∧ 6 ≤ (twenty.take 6).length := by decide

/-- Clause 1 for an instruction of each format, clause 2 for the shortest and the longest frame. -/
theorem witness_DecodeAndEncodeAgree :
    [Instr.cf 0xFFFFFFFF 0xF (twenty.take 7), .send 5 0x100 2 (some [1, 2]), .checkCollision].all
      (fun i => i.wellFormed) = true ∧
    [1, 8].all (fun n =>
      let f : Frame := { id := 7, len := BitVec.ofNat 4 n, data := twenty.take n }
      decide (1 ≤ f.len.toNat ∧ f.len.toNat ≤ 8 ∧ f.data.length = f.len.toNat)) = true := by decide

theorem witness_ClassIsDecidedByTheTagAlone :
    [0, 7].all (fun n =>
      let f : Frame := { id := 7, len := BitVec.ofNat 4 (1 + n), data := 0x2F :: twenty.take n }
      decide (f.data = 0x2F :: twenty.take n ∧ (twenty.take n).length ≤ 7 ∧
        f.len.toNat = 1 + (twenty.take n).length)) = true := by decide

theorem witness_StepRunsTheDecodedCommand :
    engine.host = [] ∧ ({ engine with host := [tickRequest 50] } : State).host = tickRequest 50 :: [] ∧
    decodeCmd (tickRequest 50).word = .ok (.tick 50) := by decide

theorem witness_ResetMeetsTheInvariant : Params.vectors.Wf := by decide

theorem witness_EveryStepKeepsTheInvariant :
    State.Inv { loaded with host := [tickRequest 1001] } ∧
    ∃ t, step { loaded with host := [tickRequest 1001] } = .next t :=
  ⟨⟨loaded_inv.cfg, loaded_inv.rx, loaded_inv.tx, loaded_inv.ready, loaded_inv.quiet, loaded_inv.stopped,
    loaded_inv.timer, loaded_inv.now, loaded_inv.hold, loaded_inv.rxf⟩, ⟨_, rfl⟩⟩

theorem witness_NoStepFaultsUnderTheInvariant :
    State.Inv { receiving with host := [tickRequest 50] } ∧ decodeCmd (tickRequest 50).word = .ok (.tick 50) :=
  ⟨⟨receiving_inv.cfg, receiving_inv.rx, receiving_inv.tx, receiving_inv.ready, receiving_inv.quiet,
    receiving_inv.stopped, receiving_inv.timer, receiving_inv.now, receiving_inv.hold, receiving_inv.rxf⟩, by decide⟩

theorem witness_EveryTickCompletesUnderTheInvariant : receiving.Inv := receiving_inv

theorem witness_DeliveredMessagesFitTheBuffer :
    parsingSf.Inv ∧ ∃ t m, exec (.tick 5000) parsingSf = .next t ∧ m ∈ t.out.delivered :=
  ⟨parsingSf_inv, _, _, rfl, List.mem_singleton.2 rfl⟩

theorem witness_SentFramesAreWellFormed :
    State.Inv { loaded with state := .sendFirst } ∧
    ∃ t f, exec (.tick 1001) { loaded with state := .sendFirst } = .next t ∧ f ∈ t.out.sent :=
  ⟨sendingFirst_inv, _, _, rfl, List.mem_singleton.2 rfl⟩

/-- Two frames of two bytes that differ beyond them. -/
theorem witness_BytesBeyondLenHaveNoEffect :
    let f : BusFrame := { id := 1, len := 2, lanes := #v[1, 2, 0, 0, 0, 0, 0, 0] }
    let g : BusFrame := { id := 1, len := 2, lanes := #v[1, 2, 9, 9, 9, 9, 9, 9] }
    f ≠ g ∧ f.id = g.id ∧ f.len = g.len ∧
    f.lanes.toList.take f.len.toNat = g.lanes.toList.take g.len.toNat ∧
    (next? (exec .read (engine.withReadAnswer (some f)))).isSome = true := by decide

theorem witness_ZeroTimerDisablesTheTimeout :
    (inState .checkRead 0 0).state = .checkRead ∧ (inState .checkRead 0 0).timer = 0 ∧
    (inState .checkRead 0 0).inp.answers.avail = false ∧ 0 < ten.length ∧ ten.length ≤ 4095 ∧
    ten.length ≤ (inState .checkRead 0 0).cfg.maxBuffer := by decide

theorem witness_IdleWithAReassemblyWaits :
    let s : State := { receiving with state := .idle, timer := 0 }
    s.Inv ∧ s.state = .idle ∧ 0 < s.rx.size.toNat ∧ s.inp.answers.avail = false :=
  ⟨⟨receiving_inv.cfg, receiving_inv.rx, receiving_inv.tx, trivial, by decide, by decide, by decide,
    receiving_inv.now, receiving_inv.hold, receiving_inv.rxf⟩, rfl, by decide, rfl⟩

theorem witness_UninterruptedTransferSendsTheMessage :
    loaded.Inv ∧ loaded.state = .checkSend ∧ 1 ≤ ten.length ∧ loaded.tx.size.toNat = ten.length ∧
    loaded.tx.position.toNat = 0 ∧ (∀ i, i < ten.length → Memory.read loaded.tx.payload i = ten[i]?) ∧
    loaded.inp.answers.avail = false ∧ loaded.inp.answers.sendOk = true ∧
    loaded.cfg.waitTime ≤ 20 ∧ 20 ≤ loaded.cfg.stateTimeout ∧
    loaded.timer + 2 * frameCount ten.length * 20 < 2 ^ loaded.cfg.clockWidth :=
  ⟨loaded_inv, by decide, by decide, by decide, by decide, by decide, by decide, by decide, by decide, by decide,
    by decide⟩

theorem witness_ReceivedFramesDeliverTheMessage :
    engine.cfg.Wf ∧ 1 ≤ ([0x5A] : List Byte).length ∧ 8 ≤ ten.length ∧ ten.length ≤ engine.cfg.maxBuffer := by
  decide

/-- The two first frames of program P3, with the addresses of Q7. -/
theorem witness_LowerAddressProceedsHigherYields :
    let fa := frame 0x100 [0x10, 0x0A, 0xA1, 0xA2, 0xA3, 0xA4, 0xA5, 0xA6]
    let fb := frame 0x200 [0x10, 0x0A, 0xB1, 0xB2, 0xB3, 0xB4, 0xB5, 0xB6]
    let p := colliding fa fb
    p.toA = fb :: [] ∧ p.toB = fa :: [] ∧ (quietBus false).readFails = false ∧
    p.a.state = .checkCollision ∧ p.b.state = .checkCollision ∧
    103 % 2 ^ p.a.cfg.clockWidth ≤ p.a.timer + p.a.cfg.stateTimeout ∧
    103 % 2 ^ p.b.cfg.clockWidth ≤ p.b.timer + p.b.cfg.stateTimeout ∧
    fa.id = p.a.cfg.ownAddress ∧ fb.id = p.b.cfg.ownAddress ∧
    p.a.cfg.ownAddress.toNat < p.b.cfg.ownAddress.toNat ∧ fa.len.toNat = 8 ∧ fb.len.toNat = 8 ∧
    fa.data = 0x10 :: [0x0A, 0xA1, 0xA2, 0xA3, 0xA4, 0xA5, 0xA6] ∧
    fb.data = 0x10 :: [0x0A, 0xB1, 0xB2, 0xB3, 0xB4, 0xB5, 0xB6] ∧ (0x10 : Byte).toNat / 16 = 1 := by
  decide

/-- One byte above the buffer, and exactly the buffer. -/
theorem witness_PublishMessageLayout :
    64 ≤ 4095 ∧ 64 < 5 + (List.replicate 30 (0 : Byte)).length + (List.replicate 30 (0 : Byte)).length ∧
    5 + (List.replicate 30 (0 : Byte)).length + (List.replicate 29 (0 : Byte)).length ≤ 64 := by decide

/-- Bad arguments (null, 0, above 4095, above the buffer); good ones; a busy machine at SEND_TIMEOUT and one
millisecond before it, where the TICK and the rest of the loop answer. -/
theorem witness_BlockingSendReturnsAsItsSendDoes :
    let w := 2 ^ parsingSf.cfg.clockWidth
    let waited (t : Nat) := (t % w + w - 1000 % w) % w
    engine.cfg.maxBuffer < 65 ∧ 0 < ten.length ∧ ten.length ≤ 4095 ∧ ten.length ≤ engine.cfg.maxBuffer ∧
    engine.state = .idle ∧ parsingSf.state ≠ .idle ∧ ten.length ≤ parsingSf.cfg.maxBuffer ∧
    parsingSf.cfg.sendTimeout ≤ waited 6000 ∧ waited 5999 < parsingSf.cfg.sendTimeout ∧
    reaches (spinTick (turnAt 5999) { parsingSf with
        inp := { parsingSf.inp with now := 5999 }, out := Outputs.only .busy })
      (fun t => match blockingSend 1000 0x100 ten.length (some ten) [] t with
        | .next _    => true
        | .fault _   => false
        | .refused _ => false) = true := by decide

/-- One byte above the buffer; exactly the buffer, on an idle machine. -/
theorem witness_PublishSendsTheEncodedMessage :
    engine.cfg.maxBuffer ≤ 4095 ∧ engine.state = .idle ∧
    engine.cfg.maxBuffer < 5 + (List.replicate 30 (0 : Byte)).length + (List.replicate 30 (0 : Byte)).length ∧
    5 + (List.replicate 30 (0 : Byte)).length + (List.replicate 29 (0 : Byte)).length ≤
      engine.cfg.maxBuffer := by decide

end Sys2Proof.Tests
end

section
/-! PROOF. The bytes of a received frame at index `len` and above are never inspected (O52). The idea: every
meaning commutes with replacing the answer of `BusRead`. Those that do not read the bus commute with every
replacement; `Read`, `CheckCollision` and a TICK commute with one that `BusRead` captures alike. -/

namespace Sys2Proof.Machine

variable {s : State} {r : Option BusFrame}

/-! ## Replacing the answer of `BusRead` -/

/-- An outcome with the answer of `BusRead` replaced in the next state, if there is one. -/
def withReadAnswerAfter (r : Option BusFrame) : Host.Outcome State Fault Refusal →
    Host.Outcome State Fault Refusal
  | .next t    => .next (t.withReadAnswer r)
  | .fault e   => .fault e
  | .refused e => .refused e

/-- The meaning never looks at the answer of `BusRead`: replacing it before or after is the same. -/
def IgnoresReadAnswer (f : State → Host.Outcome State Fault Refusal) : Prop :=
  ∀ (s : State) (r : Option BusFrame), f (s.withReadAnswer r) = withReadAnswerAfter r (f s)

/-- The meaning looks at the answer of `BusRead` only through what a read captures of it. -/
def ReadsOnlyCaptured (f : State → Host.Outcome State Fault Refusal) : Prop :=
  ∀ (s : State) (r : Option BusFrame), (s.withReadAnswer r).busRead = s.busRead →
    f (s.withReadAnswer r) = withReadAnswerAfter r (f s)

theorem IgnoresReadAnswer.readsOnlyCaptured {f : State → Host.Outcome State Fault Refusal}
    (h : IgnoresReadAnswer f) : ReadsOnlyCaptured f := fun s r _ => h s r

@[simp] theorem State.withReadAnswer_cfg : (s.withReadAnswer r).cfg = s.cfg := rfl
@[simp] theorem State.withReadAnswer_state : (s.withReadAnswer r).state = s.state := rfl
@[simp] theorem State.withReadAnswer_rx : (s.withReadAnswer r).rx = s.rx := rfl
@[simp] theorem State.withReadAnswer_tx : (s.withReadAnswer r).tx = s.tx := rfl
@[simp] theorem State.withReadAnswer_rxf : (s.withReadAnswer r).rxf = s.rxf := rfl

/-- A choice between two states commutes when both do. -/
theorem State.withReadAnswer_ite {c : Prop} [Decidable c] {a a' b b' : State}
    (ha : a' = a.withReadAnswer r) (hb : b' = b.withReadAnswer r) :
    (if c then a' else b') = (if c then a else b).withReadAnswer r := by
  split
  · exact ha
  · exact hb

theorem State.withReadAnswer_wrapHandler (s : State) (r : Option BusFrame) :
    (s.withReadAnswer r).wrapHandler = s.wrapHandler.withReadAnswer r :=
  State.withReadAnswer_ite rfl rfl

/-- A branch on a condition that does not see the answer commutes when both branches do. -/
theorem withReadAnswerAfter_ite {c : Prop} [Decidable c] {a a' b b' : Host.Outcome State Fault Refusal}
    (ha : a' = withReadAnswerAfter r a) (hb : b' = withReadAnswerAfter r b) :
    (if c then a' else b') = withReadAnswerAfter r (if c then a else b) := by
  split
  · exact ha
  · exact hb

/-! ## Frames -/

theorem execSf_ignoresReadAnswer (id : Ident) (size : BitVec 4) (body : List Byte) :
    IgnoresReadAnswer (execSf id size body) := by
  intro s r
  unfold execSf
  cases singleFields size body <;> rfl

theorem stashFirst_ignoresReadAnswer (size : BitVec 12) (chunk : List Byte) :
    IgnoresReadAnswer (stashFirst size chunk) := by
  intro s r
  simp only [stashFirst, State.withReadAnswer_cfg, State.withReadAnswer_rx]
  cases memWrite s.cfg.maxBuffer s.rx.payload 0 chunk <;> rfl

theorem execFf_ignoresReadAnswer (id : Ident) (hi : BitVec 4) (body : List Byte) :
    IgnoresReadAnswer (execFf id hi body) := by
  intro s r
  simp only [execFf, State.withReadAnswer_cfg]
  cases firstFields s.cfg.maxBuffer hi body with
  | none => rfl
  | some p => exact stashFirst_ignoresReadAnswer p.1 p.2 s.fresh r

theorem finishAppend_ignoresReadAnswer : IgnoresReadAnswer finishAppend := by
  intro s r
  refine withReadAnswerAfter_ite ?_ rfl
  simp only [State.withReadAnswer_cfg, State.withReadAnswer_rx]
  cases memRead s.cfg.maxBuffer s.rx.payload 0 s.rx.size.toNat <;> rfl

theorem appendChunk_ignoresReadAnswer (chunk : List Byte) : IgnoresReadAnswer (appendChunk chunk) := by
  intro s r
  simp only [appendChunk, State.withReadAnswer_cfg, State.withReadAnswer_rx]
  cases memWrite s.cfg.maxBuffer s.rx.payload s.rx.position.toNat chunk with
  | error e => rfl
  | ok m => exact finishAppend_ignoresReadAnswer (s.setRx _) r

theorem execCf_ignoresReadAnswer (id : Ident) (index : BitVec 4) (body : List Byte) :
    IgnoresReadAnswer (execCf id index body) := by
  intro s r
  refine withReadAnswerAfter_ite (withReadAnswerAfter_ite ?_ rfl) rfl
  simp only [State.withReadAnswer_rx]
  cases consecutiveFields (s.rx.size.toNat - s.rx.position.toNat) index body with
  | none => rfl
  | some p => exact appendChunk_ignoresReadAnswer p.2 s.fresh r

/-- A decoded frame of any class. -/
theorem exec_decodeClass_ignoresReadAnswer (id : Ident) (b : Byte) (body : List Byte) :
    IgnoresReadAnswer (exec (decodeClass id b body)) := by
  unfold decodeClass
  split
  · exact execSf_ignoresReadAnswer id _ body
  · exact execFf_ignoresReadAnswer id _ body
  · exact execCf_ignoresReadAnswer id _ body
  · exact fun _ _ => rfl
  · split <;> exact fun _ _ => rfl

theorem execParseWhich_ignoresReadAnswer : IgnoresReadAnswer execParseWhich := by
  intro s r
  refine withReadAnswerAfter_ite (withReadAnswerAfter_ite ?_ rfl) rfl
  simp only [State.withReadAnswer_rxf, parseByClass_eq]
  cases s.rxf.data with
  | nil => rfl
  | cons b body => exact exec_decodeClass_ignoresReadAnswer s.rxf.id b body s r

/-! ## Sending -/

theorem execCheckSend_ignoresReadAnswer : IgnoresReadAnswer execCheckSend := fun _ _ =>
  withReadAnswerAfter_ite rfl (withReadAnswerAfter_ite rfl (withReadAnswerAfter_ite rfl
    (withReadAnswerAfter_ite rfl rfl)))

theorem txSingle_ignoresReadAnswer : IgnoresReadAnswer txSingle := by
  intro s r
  simp only [txSingle, State.withReadAnswer_cfg, State.withReadAnswer_tx]
  cases memRead s.cfg.maxBuffer s.tx.payload 0 s.tx.size.toNat with
  | error e => rfl
  | ok p => exact withReadAnswerAfter_ite rfl rfl

theorem txFirst_ignoresReadAnswer : IgnoresReadAnswer txFirst := by
  intro s r
  simp only [txFirst, State.withReadAnswer_cfg, State.withReadAnswer_tx]
  cases memRead s.cfg.maxBuffer s.tx.payload 0 6 with
  | error e => rfl
  | ok p => exact withReadAnswerAfter_ite rfl rfl

theorem advanceTx_withReadAnswer (k : Nat) (s : State) (r : Option BusFrame) :
    advanceTx k (s.withReadAnswer r) = (advanceTx k s).withReadAnswer r :=
  State.withReadAnswer_ite rfl rfl

theorem txConsecutive_ignoresReadAnswer : IgnoresReadAnswer txConsecutive := by
  intro s r
  simp only [txConsecutive, State.withReadAnswer_cfg, State.withReadAnswer_tx]
  generalize chunkLength (s.tx.size.toNat - s.tx.position.toNat) = k
  cases memRead s.cfg.maxBuffer s.tx.payload s.tx.position.toNat k with
  | error e => rfl
  | ok c =>
    let s1 := s.busSend (encodeConsecutive s.tx.address s.tx.counter c k)
    exact withReadAnswerAfter_ite (congrArg Host.Outcome.next (advanceTx_withReadAnswer k s1 r)) rfl

/-! ## Polling and reading -/

theorem execIdle_ignoresReadAnswer : IgnoresReadAnswer execIdle := fun _ _ =>
  withReadAnswerAfter_ite rfl (withReadAnswerAfter_ite rfl rfl)

theorem readCollision_withReadAnswer (s : State) (r : Option BusFrame) :
    readCollision (s.withReadAnswer r) = (readCollision s).withReadAnswer r :=
  State.withReadAnswer_ite rfl rfl

theorem resolveCollision_withReadAnswer (s : State) (r : Option BusFrame) :
    resolveCollision (s.withReadAnswer r) = (resolveCollision s).withReadAnswer r :=
  State.withReadAnswer_ite rfl rfl

theorem paceConsecutive_withReadAnswer (s : State) (r : Option BusFrame) :
    paceConsecutive (s.withReadAnswer r) = (paceConsecutive s).withReadAnswer r :=
  State.withReadAnswer_ite rfl rfl

theorem execRead_readsOnlyCaptured : ReadsOnlyCaptured execRead := by
  intro s r h
  have h' : (s.withReadAnswer r).fresh.askedRead.busRead = s.fresh.askedRead.busRead := h
  simp only [execRead, h']
  cases s.fresh.askedRead.busRead with
  | none => rfl
  | some f =>
    let s1 := s.fresh.askedRead.capture f
    exact withReadAnswerAfter_ite (congrArg Host.Outcome.next (readCollision_withReadAnswer s1 r)) rfl

theorem execCheckCollision_readsOnlyCaptured : ReadsOnlyCaptured execCheckCollision := by
  intro s r h
  have h' : (s.withReadAnswer r).fresh.askedAvailable.askedRead.busRead =
    s.fresh.askedAvailable.askedRead.busRead := h
  simp only [execCheckCollision, h']
  refine withReadAnswerAfter_ite ?_
    (congrArg Host.Outcome.next (paceConsecutive_withReadAnswer s.fresh.askedAvailable r))
  cases s.fresh.askedAvailable.askedRead.busRead with
  | none => rfl
  | some f =>
    let s1 := s.fresh.askedAvailable.askedRead.capture f
    exact withReadAnswerAfter_ite (congrArg Host.Outcome.next (resolveCollision_withReadAnswer s1 r))
      (congrArg Host.Outcome.next (paceConsecutive_withReadAnswer s1 r))

/-! ## Every instruction -/

/-- The ten STATE rows. -/
theorem exec_stateInstr_readsOnlyCaptured (st : SeqState) : ReadsOnlyCaptured (exec st.instr) := by
  cases st with
  | disabled => exact fun _ _ _ => rfl
  | idle => exact execIdle_ignoresReadAnswer.readsOnlyCaptured
  | checkRead => exact fun _ _ _ => withReadAnswerAfter_ite rfl rfl
  | read => exact execRead_readsOnlyCaptured
  | parseWhich => exact execParseWhich_ignoresReadAnswer.readsOnlyCaptured
  | checkSend => exact execCheckSend_ignoresReadAnswer.readsOnlyCaptured
  | sendSingle => exact fun s r _ => withReadAnswerAfter_ite (txSingle_ignoresReadAnswer s.fresh r) rfl
  | sendFirst => exact fun s r _ => withReadAnswerAfter_ite (txFirst_ignoresReadAnswer s.fresh r) rfl
  | sendConsecutive =>
    exact fun s r _ => withReadAnswerAfter_ite (txConsecutive_ignoresReadAnswer s.fresh r) rfl
  | checkCollision => exact execCheckCollision_readsOnlyCaptured

theorem execTick_readsOnlyCaptured (now : Nat) : ReadsOnlyCaptured (execTick now) := by
  intro s r h
  refine withReadAnswerAfter_ite rfl ?_
  change tickEnabled ((s.fresh.sampleClock now).withReadAnswer r) = _
  simp only [tickEnabled, State.withReadAnswer_wrapHandler, stateStep_eq, State.withReadAnswer_state]
  refine withReadAnswerAfter_ite rfl (exec_stateInstr_readsOnlyCaptured _ _ r ?_)
  have hread : (s.fresh.sampleClock now).wrapHandler.busRead = s.busRead := by simp [State.busRead]
  rw [hread]
  exact h

theorem execSend_ignoresReadAnswer (now : Nat) (addr : Ident) (len : Nat) (bytes : Option (List Byte)) :
    IgnoresReadAnswer (execSend now addr len bytes) := by
  intro s r
  refine withReadAnswerAfter_ite rfl (withReadAnswerAfter_ite ?_ rfl)
  simp only [loadTx, State.sampleClock_cfg, State.sampleClock_tx, State.fresh_cfg, State.fresh_tx,
    State.withReadAnswer_cfg, State.withReadAnswer_tx]
  cases memWrite s.cfg.maxBuffer s.tx.payload 0 (bytes.getD []) <;> rfl

theorem exec_readsOnlyCaptured (i : Instr) : ReadsOnlyCaptured (exec i) := by
  cases i with
  | sf id size body => exact (execSf_ignoresReadAnswer id size body).readsOnlyCaptured
  | ff id hi body => exact (execFf_ignoresReadAnswer id hi body).readsOnlyCaptured
  | cf id index body => exact (execCf_ignoresReadAnswer id index body).readsOnlyCaptured
  | fc | unk47 | unk815 => exact fun _ _ _ => rfl
  | begin => exact fun _ _ _ => withReadAnswerAfter_ite rfl rfl
  | tick now => exact execTick_readsOnlyCaptured now
  | send now addr len bytes => exact (execSend_ignoresReadAnswer now addr len bytes).readsOnlyCaptured
  | disabled => exact exec_stateInstr_readsOnlyCaptured .disabled
  | idle => exact exec_stateInstr_readsOnlyCaptured .idle
  | checkRead => exact exec_stateInstr_readsOnlyCaptured .checkRead
  | read => exact exec_stateInstr_readsOnlyCaptured .read
  | parseWhich => exact exec_stateInstr_readsOnlyCaptured .parseWhich
  | checkSend => exact exec_stateInstr_readsOnlyCaptured .checkSend
  | sendSingle => exact exec_stateInstr_readsOnlyCaptured .sendSingle
  | sendFirst => exact exec_stateInstr_readsOnlyCaptured .sendFirst
  | sendConsecutive => exact exec_stateInstr_readsOnlyCaptured .sendConsecutive
  | checkCollision => exact exec_stateInstr_readsOnlyCaptured .checkCollision

/-- Frames that agree on `id`, `len` and the first `len` bytes are captured alike (00_scope.md R19). -/
theorem BusFrame.captured_congr {f g : BusFrame} (hid : f.id = g.id) (hlen : f.len = g.len)
    (hbytes : f.lanes.toList.take f.len.toNat = g.lanes.toList.take g.len.toNat) :
    BusFrame.captured f = BusFrame.captured g := by
  unfold BusFrame.captured
  rw [hbytes, hid, hlen]

/-- Settles O52: such frames are captured alike, and every meaning sees only what is captured. -/
theorem bytesBeyondLenHaveNoEffect : Obligations.BytesBeyondLenHaveNoEffect := by
  unfold Obligations.BytesBeyondLenHaveNoEffect
  intro i s t f g hid hlen hbytes hf
  have hread : (s.withReadAnswer (some g)).busRead = (s.withReadAnswer (some f)).busRead :=
    congrArg some (BusFrame.captured_congr hid hlen hbytes).symm
  have hg := exec_readsOnlyCaptured i (s.withReadAnswer (some f)) (some g) hread
  rw [hf] at hg
  exact hg

end Sys2Proof.Machine
end

section
/-! PROOF. The invariant holds after reset and every step keeps it (O36, O37). The idea: the clauses that do
not speak of the state register (`State.RegistersInv`) are kept by every named operation; `Enter` of a state
whose send condition holds then gives the whole invariant back, and so does a command that stays. -/

namespace Sys2Proof.Machine

/-! ## Transfers -/

section
variable {p : Params} {r : Transfer}

/-- A cleared transfer relies on nothing but the form of its buffer. -/
theorem Transfer.clear_rxInv (hw : Memory.wf r.payload = true) : r.clear.RxInv p where
  idle _    := rfl
  active h  := absurd h (Nat.lt_irrefl 0)
  written a h := absurd h (Nat.not_lt_zero a)
  wf        := hw

theorem Transfer.clear_txInv (hw : Memory.wf r.payload = true) : r.clear.TxInv p where
  fits      := Nat.zero_le _
  short _   := rfl
  long _    := .inl rfl
  written a h := absurd h (Nat.not_lt_zero a)
  wf        := hw

/-- The stash of a first frame (42_rx_reassembly.md R143). -/
theorem Transfer.RxInv.stashed (h : r.RxInv p) {size : BitVec 12} {chunk : List Byte}
    (hc : chunk.length = 6) (h8 : 8 ≤ size.toNat) (hm : size.toNat ≤ p.maxBuffer) :
    Transfer.RxInv p { r with
      size := size, payload := Memory.writeN r.payload 0 chunk, position := 6, counter := 1 } where
  idle h0   := absurd h0 (by dsimp only; omega)
  active _  := ⟨h8, hm, Nat.le_refl 6, (by omega : 6 < size.toNat)⟩
  written a ha := Memory.holds_writeN (fun _ hx => absurd hx (Nat.not_lt_zero _)) chunk a
    (by rw [hc]; exact ha)
  wf        := Memory.wf_writeN h.wf 0 chunk

/-- An append that does not complete the message (42_rx_reassembly.md R145). -/
theorem Transfer.RxInv.appended (h : r.RxInv p) {chunk : List Byte}
    (hlt : r.position.toNat + chunk.length < r.size.toNat) : (r.appended chunk).RxInv p := by
  have hsize := r.size.isLt
  have hpos : (r.appended chunk).position.toNat = r.position.toNat + chunk.length :=
    add_ofNat_toNat (by omega)
  obtain ⟨h8, hm, h6, -⟩ := h.active (by omega)
  exact {
    idle := fun h0 => absurd (show r.size.toNat = 0 from h0) (by omega)
    active := fun _ => ⟨h8, hm, by omega, hpos ▸ hlt⟩
    written := hpos ▸ Memory.holds_writeN h.written chunk
    wf := Memory.wf_writeN h.wf _ chunk }

theorem Transfer.TxInv.rewind (h : r.TxInv p) : r.rewind.TxInv p :=
  { h with short := fun _ => rfl, long := fun _ => .inl rfl }

/-- The message of an accepted SEND (47_host_commands.md R245). -/
theorem Transfer.txInv_loaded (hw : Memory.wf r.payload = true) {bs : List Byte} (h4 : bs.length ≤ 4095)
    (hm : bs.length ≤ p.maxBuffer) (addr : Ident) :
    Transfer.TxInv p { address := addr, size := BitVec.ofNat 12 bs.length, position := 0, counter := 0
                       payload := Memory.writeN r.payload 0 bs } := by
  have hsize : (BitVec.ofNat 12 bs.length).toNat = bs.length := by
    rw [BitVec.toNat_ofNat]
    exact Nat.mod_eq_of_lt (by omega)
  exact {
    fits := hsize.le.trans hm
    short := fun _ => rfl
    long := fun _ => .inl rfl
    written := fun a ha => Memory.holds_writeN (fun _ hx => absurd hx (Nat.not_lt_zero _)) bs a
      (by rw [Nat.zero_add, ← hsize]; exact ha)
    wf := Memory.wf_writeN hw 0 bs }

/-- A sent first frame leaves a message that goes on (43_tx_segmentation.md R162). -/
theorem Transfer.TxInv.firstSent (h : r.TxInv p) (h8 : 8 ≤ r.size.toNat) :
    Transfer.TxInv p { r with position := 6, counter := 1 } :=
  { h with
    short := fun h7 => absurd h7 (by dsimp only; omega)
    long := fun _ => .inr ⟨Nat.le_refl 6, (by omega : 6 < r.size.toNat)⟩ }

/-- The position after a consecutive frame that was not the last (43_tx_segmentation.md R163). -/
theorem Transfer.advanced_position_toNat {k : Nat} (hlt : r.position.toNat + k < r.size.toNat) :
    (r.advanced k).position.toNat = r.position.toNat + k :=
  add_ofNat_toNat (by have := r.size.isLt; omega)

theorem Transfer.TxInv.advanced (h : r.TxInv p) {k : Nat} (h6 : 6 ≤ r.position.toNat)
    (hlt : r.position.toNat + k < r.size.toNat) : (r.advanced k).TxInv p :=
  { h with
    short := fun h7 => absurd (h.short h7) (by omega)
    long := fun _ => .inr (by
      rw [Transfer.advanced_position_toNat hlt]
      exact ⟨by omega, hlt⟩) }

end

/-! ## Registers -/

/-- The invariant without the clauses that speak of the state register and the timer: what every operation
on the other registers keeps. -/
structure State.RegistersInv (s : State) : Prop where
  cfg  : s.cfg.Wf
  rx   : s.rx.RxInv s.cfg
  tx   : s.tx.TxInv s.cfg
  now  : s.inp.now < 2 ^ s.cfg.clockWidth
  hold : s.hold.start < 2 ^ s.cfg.clockWidth
  rxf  : s.rxf.wf = true

theorem State.Inv.registers {s : State} (h : s.Inv) : s.RegistersInv := { h with }

namespace State.RegistersInv

variable {s : State}

theorem fresh (h : s.RegistersInv) : s.fresh.RegistersInv := { h with }
theorem raise (h : s.RegistersInv) (e : Event) : (s.raise e).RegistersInv := { h with }
theorem deliver (h : s.RegistersInv) (a : Ident) (b : List Byte) (n : Nat) :
    (s.deliver a b n).RegistersInv := { h with }
theorem askedAvailable (h : s.RegistersInv) : s.askedAvailable.RegistersInv := { h with }
theorem askedRead (h : s.RegistersInv) : s.askedRead.RegistersInv := { h with }
theorem busSend (h : s.RegistersInv) (f : Frame) : (s.busSend f).RegistersInv := { h with }
theorem disarmHold (h : s.RegistersInv) : s.disarmHold.RegistersInv := { h with }
theorem armHold (h : s.RegistersInv) : s.armHold.RegistersInv := { h with hold := h.now }
theorem issue (h : s.RegistersInv) (r : HostRequest) (rest : List HostRequest) :
    (s.issue r rest).RegistersInv := { h with }

/-- The sample is a clock value, whatever the clock port carries (40_clock_timer.md R101). -/
theorem sampleClock (h : s.RegistersInv) (t : Nat) : (s.sampleClock t).RegistersInv :=
  { h with now := Nat.mod_lt t (Nat.two_pow_pos _) }

theorem setRx (h : s.RegistersInv) {r : Transfer} (hr : r.RxInv s.cfg) : (s.setRx r).RegistersInv :=
  { h with rx := hr }
theorem setTx (h : s.RegistersInv) {r : Transfer} (hr : r.TxInv s.cfg) : (s.setTx r).RegistersInv :=
  { h with tx := hr }
theorem clearRx (h : s.RegistersInv) : s.clearRx.RegistersInv := h.setRx (Transfer.clear_rxInv h.rx.wf)
theorem clearTx (h : s.RegistersInv) : s.clearTx.RegistersInv := h.setTx (Transfer.clear_txInv h.tx.wf)
theorem rewindTx (h : s.RegistersInv) : s.rewindTx.RegistersInv := h.setTx h.tx.rewind

/-- A read keeps the frame register well formed (00_scope.md R19). -/
theorem capture (h : s.RegistersInv) (f : BusFrame) : (s.capture (BusFrame.captured f)).RegistersInv :=
  { h with rx := { h.rx with }, rxf := BusFrame.captured_wf f }

theorem wrapHandler (h : s.RegistersInv) : s.wrapHandler.RegistersInv := by
  unfold State.wrapHandler
  split
  · exact { h with }
  · exact h

/-- Entering a state whose send condition holds restores the whole invariant (44_state_machine.md R193);
no operation enters `Disabled`. -/
theorem enter (h : s.RegistersInv) {st : SeqState} (hd : st ≠ .disabled) (hr : sendReady st s.tx) :
    (s.enter st).Inv :=
  { h with
    ready := hr
    quiet := fun hc => absurd hc hd
    stopped := fun hc => if_pos (hc.resolve_right hd)
    timer := by
      rw [State.enter_timer]
      split
      · exact Nat.two_pow_pos _
      · exact h.now }

theorem enterIdle (h : s.RegistersInv) : (s.enter .idle).Inv := h.enter nofun trivial
theorem enterCheckRead (h : s.RegistersInv) : (s.enter .checkRead).Inv := h.enter nofun trivial
theorem enterRead (h : s.RegistersInv) : (s.enter .read).Inv := h.enter nofun trivial
theorem enterParseWhich (h : s.RegistersInv) : (s.enter .parseWhich).Inv := h.enter nofun trivial
theorem enterCheckSend (h : s.RegistersInv) : (s.enter .checkSend).Inv := h.enter nofun trivial

end State.RegistersInv

section
variable {s t : State}

/-- A command that stays, and moves the timer at most back, keeps the invariant if it keeps the clauses about
the other registers. -/
theorem State.Inv.stay (h : s.Inv) (ht : t.RegistersInv) (hcfg : t.cfg = s.cfg) (hstate : t.state = s.state)
    (htimer : t.timer ≤ s.timer) (htx : t.tx = s.tx) (hrx : t.rx.size = s.rx.size) : t.Inv :=
  { ht with
    ready := by rw [hstate, htx]; exact h.ready
    quiet := by rw [hstate, hrx]; exact h.quiet
    stopped := fun hc => Nat.le_zero.1 (h.stopped (hstate ▸ hc) ▸ htimer)
    timer := by rw [hcfg]; exact Nat.lt_of_le_of_lt htimer h.timer }

/-! ## The steps of the states -/

theorem execDisabled_inv (hi : s.Inv) (h : execDisabled s = .next t) : t.Inv := by
  cases h
  exact hi.stay hi.registers.fresh rfl rfl (Nat.le_refl _) rfl rfl

theorem execIdle_inv (hi : s.Inv) (h : execIdle s = .next t) : t.Inv := by
  have hr := hi.registers.fresh.askedAvailable
  obtain rfl | ⟨-, -, rfl⟩ | rfl := execIdle_cases h
  · exact hr.enterRead
  · exact hr.disarmHold.enterCheckSend
  · exact hi.stay hr rfl rfl (Nat.le_refl _) rfl rfl

theorem execCheckRead_inv (hi : s.Inv) (h : execCheckRead s = .next t) : t.Inv := by
  have hr := hi.registers.fresh.askedAvailable
  obtain rfl | rfl := execCheckRead_cases h
  · exact hr.enterRead
  · exact hi.stay hr rfl rfl (Nat.le_refl _) rfl rfl

theorem execRead_inv (hi : s.Inv) (h : execRead s = .next t) : t.Inv := by
  have hr := hi.registers.fresh.askedRead
  obtain rfl | ⟨f, -, ⟨-, -, rfl | rfl⟩ | rfl⟩ := execRead_cases h
  · exact (hr.raise _).enterCheckRead
  · exact ((hr.capture f).rewindTx.clearRx.raise _).enterCheckRead
  · exact ((hr.capture f).rewindTx.armHold.raise _).enterParseWhich
  · exact (hr.capture f).enterParseWhich

theorem Parsed.inv (hi : s.Inv) (h : Parsed s t) : t.Inv := by
  have hr := hi.registers.fresh
  cases h with
  | dropped => exact (hr.raise _).enterCheckRead
  | ignored => exact hr.enterCheckRead
  | single id body => exact ((hr.deliver id body _).raise _).enterIdle
  | first size chunk hc h8 hm => exact (hr.setRx (hi.rx.stashed hc h8 hm)).enterCheckRead
  | appended chunk _ _ hlt => exact (hr.setRx (hi.rx.appended hlt)).enterCheckRead
  | completed chunk bytes =>
    have hw : Memory.wf (s.rx.appended chunk).payload = true := Memory.wf_writeN hi.rx.wf _ chunk
    exact (((hr.setRx (Transfer.clear_rxInv hw)).deliver _ bytes _).raise _).enterIdle

theorem execCheckSend_inv (hi : s.Inv) (h : execCheckSend s = .next t) : t.Inv := by
  have hr := hi.registers.fresh
  obtain rfl | ⟨h1, h7, rfl⟩ | ⟨h8, rfl⟩ | ⟨h8, h0, hlt, rfl⟩ | rfl := execCheckSend_cases h
  · exact hr.enterIdle
  · exact hr.enter nofun ⟨h1, h7⟩
  · exact hr.enter nofun h8
  · have h6 : 6 ≤ s.tx.position.toNat := by have := hi.tx.long h8; omega
    exact hr.enter nofun ⟨h8, h6, hlt⟩
  · exact hr.clearTx.enterIdle

/-- The end of a transfer, and a refused frame, from good registers (43_tx_segmentation.md R161). -/
theorem State.RegistersInv.completeTx (hr : s.RegistersInv) : (completeTx s).Inv :=
  (hr.clearTx.raise _).enterIdle

theorem State.RegistersInv.busSendFail (hr : s.RegistersInv) : (s.takeError .busSendFail).Inv :=
  (hr.clearTx.raise _).enterIdle

theorem execSendSingle_inv (hi : s.Inv) (h : execSendSingle s = .next t) : t.Inv := by
  have hr := hi.registers.fresh
  obtain rfl | ⟨-, -, p, -, rfl | rfl⟩ := execSendSingle_cases h
  · exact hr.clearTx.enterIdle
  · exact (hr.busSend _).completeTx
  · exact (hr.busSend _).busSendFail

theorem execSendFirst_inv (hi : s.Inv) (h : execSendFirst s = .next t) : t.Inv := by
  have hr := hi.registers.fresh
  obtain rfl | ⟨h8, p, -, rfl | rfl⟩ := execSendFirst_cases h
  · exact hr.clearTx.enterIdle
  · exact ((hr.busSend _).setTx (hi.tx.firstSent h8)).enter nofun
      ⟨h8, Nat.le_refl 6, (by omega : 6 < s.tx.size.toNat)⟩
  · exact (hr.busSend _).busSendFail

theorem execSendConsecutive_inv (hi : s.Inv) (hs : s.state = .sendConsecutive)
    (h : execSendConsecutive s = .next t) : t.Inv := by
  have hr := hi.registers.fresh
  have hready := hi.ready
  rw [hs] at hready
  obtain ⟨h8, h6, -⟩ := hready
  obtain rfl | ⟨-, -, -, k, c, -, -, ⟨-, rfl⟩ | ⟨hlt, rfl⟩ | rfl⟩ := execSendConsecutive_cases h
  · exact hr.clearTx.enterIdle
  · exact (hr.busSend _).setTx (Transfer.clear_txInv hi.tx.wf) |>.raise _ |>.enterIdle
  · refine ((hr.busSend _).setTx (hi.tx.advanced h6 hlt)).enter nofun ⟨h8, ?_⟩
    rw [State.setTx_tx, Transfer.advanced_position_toNat hlt]
    exact ⟨by omega, hlt⟩
  · exact (hr.busSend _).busSendFail

theorem execCheckCollision_inv (hi : s.Inv) (hs : s.state = .checkCollision)
    (h : execCheckCollision s = .next t) : t.Inv := by
  have hr := hi.registers.fresh.askedAvailable
  have hready := hi.ready
  rw [hs] at hready
  obtain ⟨-, rfl | rfl⟩ | ⟨-, rfl | ⟨f, -, rfl | rfl | rfl | rfl⟩⟩ := execCheckCollision_cases h
  · exact hr.enter nofun hready
  · exact hi.stay hr rfl rfl (Nat.le_refl _) rfl rfl
  · exact (hr.askedRead.clearRx.clearTx.raise _).enterIdle
  · exact ((hr.askedRead.capture f).rewindTx.raise _).enter nofun hready.1
  · exact ((hr.askedRead.capture f).raise _).enterCheckRead
  · exact (hr.askedRead.capture f).enter nofun hready
  · exact hi.stay (hr.askedRead.capture f) rfl rfl (Nat.le_refl _) rfl rfl

/-- The step of the current state keeps the invariant. -/
theorem exec_stateInstr_inv (hi : s.Inv) (h : exec s.state.instr s = .next t) : t.Inv := by
  cases hs : s.state <;> rw [hs] at h
  case disabled => exact execDisabled_inv hi h
  case idle => exact execIdle_inv hi h
  case checkRead => exact execCheckRead_inv hi h
  case read => exact execRead_inv hi h
  case parseWhich => exact (execParseWhich_cases h).inv hi
  case checkSend => exact execCheckSend_inv hi h
  case sendSingle => exact execSendSingle_inv hi h
  case sendFirst => exact execSendFirst_inv hi h
  case sendConsecutive => exact execSendConsecutive_inv hi hs h
  case checkCollision => exact execCheckCollision_inv hi hs h

/-! ## Commands -/

theorem execTick_inv {now : Nat} (hi : s.Inv) (h : execTick now s = .next t) : t.Inv := by
  have hr := hi.registers.fresh.sampleClock now
  obtain ⟨-, rfl⟩ | ⟨-, -, -, -, rfl⟩ | ⟨-, -, h⟩ := execTick_cases h
  · exact hi.stay hr rfl rfl (Nat.le_refl _) rfl rfl
  · exact (hr.clearRx.clearTx.raise _).enterIdle
  · have hw : (s.fresh.sampleClock now).wrapHandler.Inv :=
      hi.stay hr.wrapHandler (by simp) (by simp) (by simp) (by simp) (by simp)
    exact exec_stateInstr_inv hw (by simpa using h)

theorem execBegin_inv (hi : s.Inv) (h : execBegin s = .next t) : t.Inv := by
  have hr := hi.registers.fresh
  obtain ⟨-, rfl⟩ | ⟨-, rfl⟩ := execBegin_cases h
  · exact hr.clearRx.clearTx.disarmHold.enterIdle
  · exact hi.stay hr rfl rfl (Nat.le_refl _) rfl rfl

/-- A SEND keeps the invariant if its bytes number as many as it says, which the command decoder checks
(47_host_commands.md R243). -/
theorem execSend_inv {now : Nat} {addr : Ident} {len : Nat} {bytes : Option (List Byte)} (hi : s.Inv)
    (hb : bytesMatch len bytes = true) (h : execSend now addr len bytes s = .next t) : t.Inv := by
  have hr := hi.registers.fresh.sampleClock now
  obtain rfl | ⟨-, rfl⟩ | ⟨-, -, h4, hm, bs, rfl, -, rfl⟩ := execSend_cases h
  · exact hi.stay (hr.raise _) rfl rfl (Nat.le_refl _) rfl rfl
  · exact hi.stay (hr.raise _) rfl rfl (Nat.le_refl _) rfl rfl
  · obtain rfl : bs.length = len := of_decide_eq_true hb
    exact ((hr.setTx (Transfer.txInv_loaded hi.tx.wf h4 hm addr)).raise _).enterCheckSend

/-- What the command decoder accepts (30_encoding.md R91). -/
theorem decodeCmd_cases {w : CmdWord} {i : Instr} (h : decodeCmd w = .ok i) :
    i = .begin ∨ i = .tick w.now ∨
    (bytesMatch w.len w.bytes = true ∧ i = .send w.now w.addr w.len w.bytes) := by
  unfold decodeCmd at h
  split at h
  · cases h
    exact .inl rfl
  · cases h
    exact .inr (.inl rfl)
  · split at h
    · rename_i hb
      cases h
      exact .inr (.inr ⟨hb, rfl⟩)
    · cases h
  · cases h

/-- A step is the next command of the queue, or nothing (20_memory.md R68). -/
theorem step_cases (h : step s = .next t) :
    (s.host = [] ∧ t = s) ∨
    ∃ r rest i, s.host = r :: rest ∧ decodeCmd r.word = .ok i ∧ exec i (s.issue r rest) = .next t := by
  unfold step at h
  split at h
  · rename_i hh
    cases h
    exact .inl ⟨hh, rfl⟩
  · rename_i r rest hh
    split at h
    · cases h
    · rename_i i hd
      exact .inr ⟨r, rest, i, hh, hd, h⟩

/-- Settles O37: each command the decoder accepts keeps the invariant. -/
theorem everyStepKeepsTheInvariant : Obligations.EveryStepKeepsTheInvariant := by
  unfold Obligations.EveryStepKeepsTheInvariant
  intro s t hi h
  obtain ⟨-, rfl⟩ | ⟨r, rest, i, -, hd, h⟩ := step_cases h
  · exact hi
  have hissued : (s.issue r rest).Inv :=
    hi.stay (hi.registers.issue r rest) rfl rfl (Nat.le_refl _) rfl rfl
  obtain rfl | rfl | ⟨hb, rfl⟩ := decodeCmd_cases hd
  · exact execBegin_inv hissued h
  · exact execTick_inv hissued h
  · exact execSend_inv hissued hb h

end

/-! ## Reset -/

/-- Settles O35: reset writes out these values. -/
theorem resetLeavesTheEngineDisabled : Obligations.ResetLeavesTheEngineDisabled := by
  unfold Obligations.ResetLeavesTheEngineDisabled
  intro p
  exact ⟨rfl, rfl, rfl, rfl, rfl, rfl, rfl, rfl, rfl, rfl,
    fun a => ⟨Memory.read_nil a, Memory.read_nil a⟩⟩

/-- Settles O36: both transfers are cleared and every clock value is 0, which has any width. -/
theorem resetMeetsTheInvariant : Obligations.ResetMeetsTheInvariant := by
  unfold Obligations.ResetMeetsTheInvariant
  intro p hp
  exact {
    cfg := hp
    rx := Transfer.clear_rxInv (r := Transfer.atReset) rfl
    tx := Transfer.clear_txInv (r := Transfer.atReset) rfl
    ready := rfl
    quiet := fun _ => rfl
    stopped := fun _ => rfl
    timer := Nat.two_pow_pos _
    now := Nat.two_pow_pos _
    hold := Nat.two_pow_pos _
    rxf := rfl }

end Sys2Proof.Machine
end

section
/-! PROOF. Who writes which register (O40, O44 to O48). The idea: one frame (`ExecFrame`) says of every
instruction what it may write and what it leaves; a TICK has the frame of its state's row, whether it runs
the row or not. Each statement reads off one clause of it. -/

namespace Sys2Proof

/-- The instructions that may write the inbound buffer: the stash, the append and the step that runs them
(10_state.md R27). -/
def Instr.writesInbound : Instr → Bool
  | .ff .. | .cf .. | .parseWhich => true
  | _                             => false

/-- The instructions after which part of a pending message may be sent (10_state.md R30). -/
def Instr.advancesOutbound : Instr → Bool
  | .sendFirst | .sendConsecutive => true
  | _                             => false

/-- No instruction advances both transfers. -/
theorem Instr.advances_one (i : Instr) : (i.writesInbound && i.advancesOutbound) = false := by
  cases i <;> rfl

/-- The inbound buffer is written by these three only. -/
theorem Instr.writesInbound_eq_false {i : Instr} (hff : ∀ id hi body, i ≠ .ff id hi body)
    (hcf : ∀ id index body, i ≠ .cf id index body) (hp : i ≠ .parseWhich) : i.writesInbound = false := by
  cases i with
  | ff id hi body => exact absurd rfl (hff id hi body)
  | cf id index body => exact absurd rfl (hcf id index body)
  | parseWhich => exact absurd rfl hp
  | _ => rfl

/-! ## The rows of the states -/

theorem SeqState.instr_writesInbound (st : SeqState) :
    st.instr.writesInbound = decide (st = .parseWhich) := by
  cases st <;> rfl

theorem SeqState.instr_inj {a b : SeqState} : a.instr = b.instr ↔ a = b := by
  cases a <;> cases b <;> decide

theorem SeqState.instr_ne_begin (st : SeqState) : st.instr ≠ .begin := by
  cases st <;> nofun

theorem SeqState.instr_ne_tick (st : SeqState) (now : Nat) : st.instr ≠ .tick now := by
  cases st <;> nofun

theorem SeqState.instr_ne_send (st : SeqState) (now : Nat) (addr : Ident) (len : Nat)
    (bytes : Option (List Byte)) : st.instr ≠ .send now addr len bytes := by
  cases st <;> nofun

end Sys2Proof

namespace Sys2Proof.Machine

/-! ## Shared updates -/

@[simp] theorem completeTx_eq (s : State) :
    completeTx s = ((s.clearTx).raise .txComplete).enter .idle := rfl

@[simp] theorem Transfer.appended_address (r : Transfer) (chunk : List Byte) :
    (r.appended chunk).address = r.address := rfl
@[simp] theorem Transfer.advanced_address (r : Transfer) (k : Nat) :
    (r.advanced k).address = r.address := rfl
@[simp] theorem Transfer.advanced_payload (r : Transfer) (k : Nat) :
    (r.advanced k).payload = r.payload := rfl

theorem State.wrapHandler_eq (s : State) : s.wrapHandler = { s with timer := min s.timer s.inp.now } := by
  rw [← State.wrapHandler_timer]
  unfold State.wrapHandler
  split <;> rfl

/-! ## The frame of an instruction -/

/-- `BusRead` was called once and answered a frame, which `rxf` and `rx.address` now hold (10_state.md R23,
R40). -/
def ReadFrame (s t : State) : Prop :=
  t.out.readCalls = 1 ∧ ∃ f : BusFrame, s.inp.answers.read = some f ∧ t.rxf = BusFrame.captured f ∧
    t.rx.address = f.id

/-- What an instruction may write from `s` to `t`, and what it leaves (10_state.md R23 to R42). The default
proofs of the clauses are those of a register that is left alone or cleared, so that below a construction
names just the registers an outcome writes. -/
structure ExecFrame (i : Instr) (s t : State) : Prop where
  cfg      : t.cfg = s.cfg := by simp
  /-- The outbound message is SEND's. -/
  message  : (∀ now addr len bytes, i ≠ .send now addr len bytes) →
      t.tx.payload = s.tx.payload ∧ t.tx.address = s.tx.address := by exact fun _ => ⟨by simp, by simp⟩
  buffer   : i.writesInbound = false → t.rx.payload = s.rx.payload := by exact fun _ => by simp
  register : (t.rxf = s.rxf ∧ t.rx.address = s.rx.address) ∨
      ((i = .read ∨ i = .checkCollision) ∧ ReadFrame s t) := by exact .inl ⟨by simp, by simp⟩
  /-- The holdoff pair is written by the yield branch of Read, by the gate of Idle and by BEGIN. -/
  hold     : t.hold = s.hold ∨
      (i = .read ∧ t.out.event = .collisionYield ∧ t.hold = { active := true, start := s.inp.now }) ∨
      (i = .idle ∧ t.state = .checkSend ∧ t.hold = { s.hold with active := false }) ∨
      (i = .begin ∧ t.hold = { s.hold with active := false }) := by exact .inl (by simp)
  inbound  : i.writesInbound = false → t.rx.position.toNat ≤ s.rx.position.toNat := by
    exact fun _ => by simp
  outbound : i.advancesOutbound = false → t.tx.position.toNat ≤ s.tx.position.toNat := by
    exact fun _ => by simp

section
variable {s t : State} {i : Instr}

/-- Parsing reads no frame and leaves the outbound transfer and the holdoff pair alone. -/
theorem Parsed.frame (h : Parsed s t) (hi : i.writesInbound = true) : ExecFrame i s t := by
  have hno : ¬ i.writesInbound = false := by simp [hi]
  cases h <;> exact { buffer := fun hc => absurd hc hno, inbound := fun hc => absurd hc hno }

theorem execSf_frame {id : Ident} {size : BitVec 4} {body : List Byte} (h : execSf id size body s = .next t) :
    ExecFrame (.sf id size body) s t := by
  obtain rfl | ⟨-, -, rfl⟩ := execSf_cases h <;> exact {}

theorem execIdle_frame (h : execIdle s = .next t) : ExecFrame .idle s t := by
  obtain rfl | ⟨-, -, rfl⟩ | rfl := execIdle_cases h
  · exact {}
  · exact { hold := .inr (.inr (.inl ⟨rfl, rfl, rfl⟩)) }
  · exact {}

theorem execCheckRead_frame (h : execCheckRead s = .next t) : ExecFrame .checkRead s t := by
  obtain rfl | rfl := execCheckRead_cases h <;> exact {}

theorem execRead_frame (h : execRead s = .next t) : ExecFrame .read s t := by
  obtain rfl | ⟨f, hf, ⟨-, -, rfl | rfl⟩ | rfl⟩ := execRead_cases h
  · exact {}
  · exact { register := .inr ⟨.inl rfl, rfl, f, hf, rfl, rfl⟩ }
  · exact { register := .inr ⟨.inl rfl, rfl, f, hf, rfl, rfl⟩, hold := .inr (.inl ⟨rfl, rfl, rfl⟩) }
  · exact { register := .inr ⟨.inl rfl, rfl, f, hf, rfl, rfl⟩ }

theorem execCheckSend_frame (h : execCheckSend s = .next t) : ExecFrame .checkSend s t := by
  obtain rfl | ⟨-, -, rfl⟩ | ⟨-, rfl⟩ | ⟨-, -, -, rfl⟩ | rfl := execCheckSend_cases h <;> exact {}

theorem execSendSingle_frame (h : execSendSingle s = .next t) : ExecFrame .sendSingle s t := by
  obtain rfl | ⟨-, -, p, -, rfl | rfl⟩ := execSendSingle_cases h <;> exact {}

theorem execSendFirst_frame (h : execSendFirst s = .next t) : ExecFrame .sendFirst s t := by
  obtain rfl | ⟨-, p, -, rfl | rfl⟩ := execSendFirst_cases h <;> exact { outbound := nofun }

theorem execSendConsecutive_frame (h : execSendConsecutive s = .next t) :
    ExecFrame .sendConsecutive s t := by
  obtain rfl | ⟨-, -, -, k, c, -, -, ⟨-, rfl⟩ | ⟨-, rfl⟩ | rfl⟩ := execSendConsecutive_cases h <;>
    exact { outbound := nofun }

theorem execCheckCollision_frame (h : execCheckCollision s = .next t) : ExecFrame .checkCollision s t := by
  obtain ⟨-, rfl | rfl⟩ | ⟨-, rfl | ⟨f, hf, rfl | rfl | rfl | rfl⟩⟩ := execCheckCollision_cases h
  · exact {}
  · exact {}
  · exact {}
  all_goals exact { register := .inr ⟨.inr rfl, rfl, f, hf, rfl, rfl⟩ }

theorem execBegin_frame (h : execBegin s = .next t) : ExecFrame .begin s t := by
  obtain ⟨-, rfl⟩ | ⟨-, rfl⟩ := execBegin_cases h
  · exact { hold := .inr (.inr (.inr ⟨rfl, rfl⟩)) }
  · exact {}

theorem execSend_frame {now : Nat} {addr : Ident} {len : Nat} {bytes : Option (List Byte)}
    (h : execSend now addr len bytes s = .next t) : ExecFrame (.send now addr len bytes) s t := by
  obtain rfl | ⟨-, rfl⟩ | ⟨-, -, -, -, bs, -, -, rfl⟩ := execSend_cases h
  · exact {}
  · exact {}
  · exact { message := fun hn => absurd rfl (hn now addr len bytes) }

/-- Every instruction but TICK has its frame. -/
theorem exec_frame (hi : ∀ now, i ≠ .tick now) (h : exec i s = .next t) : ExecFrame i s t := by
  cases i with
  | sf => exact execSf_frame h
  | ff => exact (execFf_parsed h).frame rfl
  | cf => exact (execCf_parsed h).frame rfl
  | fc | unk47 | unk815 => cases h; exact {}
  | begin => exact execBegin_frame h
  | tick now => exact absurd rfl (hi now)
  | send => exact execSend_frame h
  | disabled => cases h; exact {}
  | idle => exact execIdle_frame h
  | checkRead => exact execCheckRead_frame h
  | read => exact execRead_frame h
  | parseWhich => exact (execParseWhich_cases h).frame rfl
  | checkSend => exact execCheckSend_frame h
  | sendSingle => exact execSendSingle_frame h
  | sendFirst => exact execSendFirst_frame h
  | sendConsecutive => exact execSendConsecutive_frame h
  | checkCollision => exact execCheckCollision_frame h

/-- A TICK has the frame of its state's row, from the state with the sample taken: it does nothing, clears
both transfers, or runs the row (47_host_commands.md R242). -/
theorem execTick_frame {now : Nat} (h : exec (.tick now) s = .next t) :
    ExecFrame s.state.instr (s.sampleClock now) t := by
  obtain ⟨-, rfl⟩ | ⟨-, -, -, -, rfl⟩ | ⟨-, -, h⟩ := execTick_cases h
  · exact {}
  · exact {}
  · rw [State.wrapHandler_eq] at h
    have hf := exec_frame s.state.instr_ne_tick h
    exact { hf with }

/-- What any instruction may write: its own frame, or for a TICK the frame of its state's row. -/
theorem exec_frame_cases (h : exec i s = .next t) :
    ExecFrame i s t ∨ ∃ now, i = .tick now ∧ ExecFrame s.state.instr (s.sampleClock now) t := by
  by_cases hi : ∃ now, i = .tick now
  · obtain ⟨now, rfl⟩ := hi
    exact .inr ⟨now, rfl, execTick_frame h⟩
  · exact .inl (exec_frame (not_exists.1 hi) h)

end

/-! ## The statements -/

/-- Settles O40: the parameters are in no instruction's frame. -/
theorem parametersAreNeverWritten : Obligations.ParametersAreNeverWritten := by
  unfold Obligations.ParametersAreNeverWritten
  intro i s t h
  obtain hf | ⟨now, -, hf⟩ := exec_frame_cases h
  · exact hf.cfg
  · exact hf.cfg

/-- Settles O44: the outbound message is in the frame of SEND only, and SEND is no state's row. -/
theorem onlySendWritesTheOutboundMessage : Obligations.OnlySendWritesTheOutboundMessage := by
  unfold Obligations.OnlySendWritesTheOutboundMessage
  intro i s t h hsend
  obtain hf | ⟨now, -, hf⟩ := exec_frame_cases h
  · exact hf.message hsend
  · exact hf.message s.state.instr_ne_send

/-- Settles O45: only ParseWhich among the states' rows writes the inbound buffer. -/
theorem onlyParsingWritesTheInboundBuffer : Obligations.OnlyParsingWritesTheInboundBuffer := by
  unfold Obligations.OnlyParsingWritesTheInboundBuffer
  intro i s t h hff hcf hp htick
  obtain hf | ⟨now, rfl, hf⟩ := exec_frame_cases h
  · exact hf.buffer (Instr.writesInbound_eq_false hff hcf hp)
  · have hs : s.state ≠ .parseWhich := htick now rfl
    exact hf.buffer (s.state.instr_writesInbound.trans (decide_eq_false hs))

/-- Settles O46: the frame register is in the frames of Read and CheckCollision, after a read. -/
theorem onlyAReadWritesTheFrameRegister : Obligations.OnlyAReadWritesTheFrameRegister := by
  unfold Obligations.OnlyAReadWritesTheFrameRegister
  intro i s t h
  obtain hf | ⟨now, rfl, hf⟩ := exec_frame_cases h
  · obtain hkept | ⟨hi, hread⟩ := hf.register
    · exact .inl hkept
    · exact .inr ⟨hi.imp_right .inl, hread⟩
  · obtain hkept | ⟨hi, hread⟩ := hf.register
    · exact .inl hkept
    · have hs : s.state = .read ∨ s.state = .checkCollision :=
        hi.imp SeqState.instr_inj.1 SeqState.instr_inj.1
      exact .inr ⟨.inr (.inr ⟨now, rfl, hs⟩), hread⟩

/-- Settles O47: a TICK writes the pair as Read's or Idle's row does, BEGIN disarms, SEND leaves it. -/
theorem holdoffPairHasThreeWriters : Obligations.HoldoffPairHasThreeWriters := by
  unfold Obligations.HoldoffPairHasThreeWriters
  intro s t
  refine ⟨fun now h => ?_, fun h => ?_, fun now addr len bytes h => ?_⟩
  · obtain hkept | ⟨hi, hyield⟩ | ⟨hi, hgate⟩ | ⟨hi, -⟩ := (execTick_frame h).hold
    · exact .inl hkept
    · exact .inr (.inl ⟨SeqState.instr_inj.1 hi, hyield⟩)
    · exact .inr (.inr ⟨SeqState.instr_inj.1 hi, hgate⟩)
    · exact absurd hi s.state.instr_ne_begin
  · obtain hkept | ⟨hi, -⟩ | ⟨hi, -⟩ | ⟨-, hdisarmed⟩ := (execBegin_frame h).hold
    · exact .inl hkept
    · cases hi
    · cases hi
    · exact .inr hdisarmed
  · obtain hkept | ⟨hi, -⟩ | ⟨hi, -⟩ | ⟨hi, -⟩ := (execSend_frame h).hold
    · exact hkept
    all_goals cases hi

/-- Settles O48: a state's row does not advance both transfers. -/
theorem atMostOneTransferAdvancesPerTick : Obligations.AtMostOneTransferAdvancesPerTick := by
  unfold Obligations.AtMostOneTransferAdvancesPerTick
  intro now s t h hboth
  obtain ⟨hrx, htx⟩ := hboth
  have hf := execTick_frame h
  obtain hin | hout := Bool.and_eq_false_iff.1 s.state.instr.advances_one
  · exact absurd hrx (Nat.not_lt.2 (hf.inbound hin))
  · exact absurd htx (Nat.not_lt.2 (hf.outbound hout))

end Sys2Proof.Machine
end

section
/-! PROOF. Where a step stops, and that it does not under the invariant (O29, O34, O38). The idea: an access
inside a buffer that holds the bytes asked for answers, and the transfer invariants bound every access, so a
meaning that touches a buffer completes; the other meanings complete from every state. -/

namespace Sys2Proof.Machine

/-! ## The step and the command decoder, outcome by outcome -/

section
variable {s : State} {r : HostRequest} {rest : List HostRequest}

/-- With no command waiting a step changes nothing (60_exceptions.md R279). -/
theorem step_of_host_nil (h : s.host = []) : step s = .next s := by
  simp only [step, h]

/-- A step runs a command that decodes whole (20_memory.md R68). -/
theorem step_of_decodeCmd_ok {i : Instr} (h : s.host = r :: rest) (hd : decodeCmd r.word = .ok i) :
    step s = exec i (s.issue r rest) := by
  simp only [step, h, hd]

theorem step_of_decodeCmd_error {e : Reject} (h : s.host = r :: rest) (hd : decodeCmd r.word = .error e) :
    step s = .refused (refusalOf e) := by
  simp only [step, h, hd]

end

theorem decodeCmd_of_reserved {w : CmdWord} (h : w.number = 3) : decodeCmd w = .error .reservedCommand := by
  unfold decodeCmd
  rw [h]
  rfl

theorem decodeCmd_of_lengthMismatch {w : CmdWord} (h : w.number = 2) (hb : bytesMatch w.len w.bytes = false) :
    decodeCmd w = .error .lengthMismatch := by
  unfold decodeCmd
  rw [h, hb]
  rfl

/-- Settles O34: a step is the decoded command at the issued state. -/
theorem stepRunsTheDecodedCommand : Obligations.StepRunsTheDecodedCommand := by
  unfold Obligations.StepRunsTheDecodedCommand
  exact fun s => ⟨step_of_host_nil, fun r rest i => step_of_decodeCmd_ok⟩

/-! ## Where the model stops -/

/-- One byte without a value stops the whole read (93_implementation_defined.md I8). -/
theorem memRead_unwritten {maxBuffer off n i : Nat} {m : Memory} (hb : off + n ≤ maxBuffer) (hi : i < n)
    (h : Memory.read m (off + i) = none) : memRead maxBuffer m off n = .error .unwrittenByte := by
  have hnone : Memory.readN m off n = none := by
    refine Option.eq_none_iff_forall_ne_some.2 fun bs hbs => ?_
    obtain ⟨hl, hbytes⟩ := Memory.readN_some hbs
    have hlen : bs.length ≤ i := List.getElem?_eq_none_iff.1 ((hbytes i hi).trans h)
    omega
  simp only [memRead, if_pos hb, hnone]

theorem memRead_outside {maxBuffer off n : Nat} {m : Memory} (h : maxBuffer < off + n) :
    memRead maxBuffer m off n = .error .bufferBounds :=
  if_neg (Nat.not_le.2 h)

section
variable {s : State}

theorem execCf_nothingRemains (id : Ident) (index : BitVec 4) (body : List Byte)
    (hsize : 0 < s.rx.size.toNat) (hpos : s.rx.size.toNat ≤ s.rx.position.toNat) :
    execCf id index body s = .fault .nothingRemains := by
  rw [execCf, if_pos (s.rxActive_iff.2 hsize), if_neg (Nat.not_lt.2 hpos)]

theorem execParseWhich_byteWithoutValue (ha : s.rxf.admissible = true) (hw : s.rxf.wf = false) :
    execParseWhich s = .fault .byteWithoutValue := by
  rw [execParseWhich, if_pos ha, if_neg (Bool.eq_false_iff.1 hw)]

theorem execSendFirst_unwrittenByte (h8 : 8 ≤ s.tx.size.toNat) (hm : 6 ≤ s.cfg.maxBuffer)
    (h : Memory.read s.tx.payload 0 = none) : execSendFirst s = .fault .unwrittenByte := by
  have hstop : memRead s.cfg.maxBuffer s.tx.payload 0 6 = .error .unwrittenByte :=
    memRead_unwritten (i := 0) hm (by decide) h
  rw [execSendFirst, if_pos h8]
  simp only [txFirst, State.fresh_cfg, State.fresh_tx, hstop]

theorem execSendSingle_bufferBounds (h1 : 1 ≤ s.tx.size.toNat) (h7 : s.tx.size.toNat ≤ 7)
    (hm : s.cfg.maxBuffer < s.tx.size.toNat) : execSendSingle s = .fault .bufferBounds := by
  have hstop : memRead s.cfg.maxBuffer s.tx.payload 0 s.tx.size.toNat = .error .bufferBounds :=
    memRead_outside (by omega)
  rw [execSendSingle, if_pos ⟨h1, h7⟩]
  simp only [txSingle, State.fresh_cfg, State.fresh_tx, hstop]

end

/-- Settles O29: each stop is the one its guard, its buffer access or its decoder names. -/
theorem modelStopsByNameOutsideTheRules : Obligations.ModelStopsByNameOutsideTheRules := by
  unfold Obligations.ModelStopsByNameOutsideTheRules
  refine ⟨fun id index body _ => execCf_nothingRemains id index body,
    fun _ => execParseWhich_byteWithoutValue, fun _ => execSendFirst_unwrittenByte,
    fun _ => execSendSingle_bufferBounds, fun s r rest h hn => ?_,
    fun s r rest bs h hn hbytes hlen => ?_⟩
  · exact step_of_decodeCmd_error h (decodeCmd_of_reserved hn)
  · have hmatch : bytesMatch r.word.len r.word.bytes = false := by
      rw [hbytes]
      exact decide_eq_false hlen
    exact step_of_decodeCmd_error h (decodeCmd_of_lengthMismatch hn hmatch)

/-! ## Completing -/

/-- The outcome is a next state: no fault and no refusal. -/
def Completes (o : Host.Outcome State Fault Refusal) : Prop := ∃ t, o = .next t

theorem completes_next (t : State) : Completes (.next t) := ⟨t, rfl⟩

/-- A branch completes if each side does under its guard. -/
theorem completes_ite {c : Prop} [Decidable c] {a b : Host.Outcome State Fault Refusal}
    (ha : c → Completes a) (hb : ¬ c → Completes b) : Completes (if c then a else b) := by
  split
  · exact ha ‹_›
  · exact hb ‹_›

/-- A choice between two next states completes. -/
theorem completes_ite_next {c : Prop} [Decidable c] (a b : State) :
    Completes (if c then .next a else .next b) :=
  completes_ite (fun _ => completes_next a) (fun _ => completes_next b)

section
variable {s : State}

/-! ## Frames -/

theorem execSf_completes (id : Ident) (size : BitVec 4) (body : List Byte) (s : State) :
    Completes (execSf id size body s) := by
  unfold execSf
  cases singleFields size body with
  | none => exact completes_next _
  | some bytes => exact completes_next _

/-- A first frame needs a buffer of six bytes (41_frame_codec.md R123). -/
theorem execFf_completes (id : Ident) (hi : BitVec 4) (body : List Byte) (hm : 6 ≤ s.cfg.maxBuffer) :
    Completes (execFf id hi body s) := by
  unfold execFf
  cases hf : firstFields s.cfg.maxBuffer hi body with
  | none => exact completes_next _
  | some p =>
    obtain ⟨size, chunk⟩ := p
    obtain ⟨lo, -, hc, -⟩ := firstFields_cases hf
    have hw := memWrite_ok (m := s.rx.payload) (by omega : 0 + chunk.length ≤ s.cfg.maxBuffer)
    simp only [stashFirst, State.fresh_cfg, State.fresh_rx, hw]
    exact completes_next _

/-- A delivery needs a buffer of the message's size and every byte up to the position. -/
theorem finishAppend_completes (hm : s.rx.size.toNat ≤ s.cfg.maxBuffer)
    (hw : Memory.holds s.rx.payload s.rx.position.toNat) : Completes (finishAppend s) := by
  refine completes_ite (fun hp => ?_) (fun _ => completes_next _)
  rw [hp] at hw
  have hb : 0 + s.rx.size.toNat ≤ s.cfg.maxBuffer := by omega
  obtain ⟨bytes, hread, -⟩ := memRead_ok (m := s.rx.payload) hb
    (fun i hi => by rw [Nat.zero_add]; exact hw i hi)
  rw [hread]
  exact completes_next _

/-- An append of no more than what remains stays inside the buffer (42_rx_reassembly.md R145). -/
theorem appendChunk_completes (hrx : s.rx.RxInv s.cfg) (hp : s.rx.position.toNat < s.rx.size.toNat)
    {chunk : List Byte} (hc : s.rx.position.toNat + chunk.length ≤ s.rx.size.toNat) :
    Completes (appendChunk chunk s) := by
  obtain ⟨-, hm, -, -⟩ := hrx.active (by omega)
  have hsize := s.rx.size.isLt
  have hpos : (s.rx.position + BitVec.ofNat 12 chunk.length).toNat = s.rx.position.toNat + chunk.length :=
    add_ofNat_toNat (by omega)
  unfold appendChunk
  rw [memWrite_ok (hc.trans hm)]
  refine finishAppend_completes hm ?_
  simp only [State.setRx_rx, hpos]
  exact Memory.holds_writeN hrx.written chunk

/-- Under the RX invariant a running reassembly has a byte to come, so a consecutive frame completes
(41_frame_codec.md R124). -/
theorem execCf_completes (id : Ident) (index : BitVec 4) (body : List Byte) (hrx : s.rx.RxInv s.cfg) :
    Completes (execCf id index body s) := by
  refine completes_ite (fun ha => ?_) (fun _ => completes_next _)
  obtain ⟨-, -, -, hp⟩ := hrx.active (s.rxActive_iff.1 ha)
  rw [if_pos hp]
  cases hf : consecutiveFields (s.rx.size.toNat - s.rx.position.toNat) index body with
  | none => exact completes_next _
  | some p =>
    obtain ⟨j, chunk⟩ := p
    obtain ⟨-, -, hc⟩ := consecutiveFields_cases hf
    exact appendChunk_completes (s := s.fresh) hrx hp
      (by simp only [State.fresh_rx]; omega)

/-- A decoded frame of any class. -/
theorem exec_decodeClass_completes (id : Ident) (b : Byte) (body : List Byte) (hm : 6 ≤ s.cfg.maxBuffer)
    (hrx : s.rx.RxInv s.cfg) : Completes (exec (decodeClass id b body) s) := by
  unfold decodeClass
  split
  · exact execSf_completes id _ body s
  · exact execFf_completes id _ body hm
  · exact execCf_completes id _ body hrx
  · exact completes_next _
  · split <;> exact completes_next _

theorem execParseWhich_completes (hi : s.Inv) : Completes (execParseWhich s) := by
  refine completes_ite (fun ha => ?_) (fun _ => completes_next _)
  obtain ⟨b, body, hd, -⟩ := Frame.data_of_admissible ha hi.rxf
  obtain ⟨⟨h64, -⟩, -⟩ := hi.cfg
  rw [if_pos hi.rxf, hd]
  simp only [parseByClass_eq]
  exact exec_decodeClass_completes s.rxf.id b body (by omega) hi.rx

/-! ## Sending -/

/-- Bytes of the message that a transfer holds can be read (20_memory.md R66). -/
theorem Transfer.TxInv.exists_memRead {p : Params} {r : Transfer} (h : r.TxInv p) {off n : Nat}
    (hn : off + n ≤ r.size.toNat) : ∃ bs, memRead p.maxBuffer r.payload off n = .ok bs := by
  obtain ⟨bs, hread, -⟩ := memRead_ok (m := r.payload) (hn.trans h.fits)
    (fun i hi => h.written (off + i) (by omega))
  exact ⟨bs, hread⟩

theorem execCheckSend_completes (s : State) : Completes (execCheckSend s) :=
  completes_ite (fun _ => completes_next _) fun _ => completes_ite (fun _ => completes_next _) fun _ =>
    completes_ite (fun _ => completes_next _) fun _ => completes_ite_next _ _

theorem execSendSingle_completes (htx : s.tx.TxInv s.cfg) : Completes (execSendSingle s) := by
  refine completes_ite (fun _ => ?_) (fun _ => completes_next _)
  obtain ⟨p, hp⟩ := htx.exists_memRead (off := 0) (n := s.tx.size.toNat) (by omega)
  simp only [txSingle, State.fresh_cfg, State.fresh_tx, hp]
  exact completes_ite_next _ _

theorem execSendFirst_completes (htx : s.tx.TxInv s.cfg) : Completes (execSendFirst s) := by
  refine completes_ite (fun h8 => ?_) (fun _ => completes_next _)
  obtain ⟨p, hp⟩ := htx.exists_memRead (off := 0) (n := 6) (by omega)
  simp only [txFirst, State.fresh_cfg, State.fresh_tx, hp]
  exact completes_ite_next _ _

theorem execSendConsecutive_completes (htx : s.tx.TxInv s.cfg) : Completes (execSendConsecutive s) := by
  refine completes_ite (fun hg => ?_) (fun _ => completes_next _)
  obtain ⟨-, -, hlt⟩ := hg
  obtain ⟨c, hc⟩ := htx.exists_memRead (off := s.tx.position.toNat)
    (n := chunkLength (s.tx.size.toNat - s.tx.position.toNat)) (by unfold chunkLength; omega)
  simp only [txConsecutive, State.fresh_cfg, State.fresh_tx, hc]
  exact completes_ite_next _ _

/-! ## Polling and reading -/

theorem execIdle_completes (s : State) : Completes (execIdle s) :=
  completes_ite (fun _ => completes_next _) fun _ => completes_ite_next _ _

theorem execRead_completes (s : State) : Completes (execRead s) := by
  simp only [execRead]
  cases s.fresh.askedRead.busRead with
  | none => exact completes_next _
  | some f => exact completes_ite_next _ _

theorem execCheckCollision_completes (s : State) : Completes (execCheckCollision s) := by
  refine completes_ite (fun _ => ?_) (fun _ => completes_next _)
  cases s.fresh.askedAvailable.askedRead.busRead with
  | none => exact completes_next _
  | some f => exact completes_ite_next _ _

/-! ## Commands -/

/-- The row of any state completes under the invariant, whatever the state register holds. -/
theorem exec_stateInstr_completes (hi : s.Inv) (st : SeqState) : Completes (exec st.instr s) := by
  cases st with
  | disabled => exact completes_next _
  | idle => exact execIdle_completes s
  | checkRead => exact completes_ite_next _ _
  | read => exact execRead_completes s
  | parseWhich => exact execParseWhich_completes hi
  | checkSend => exact execCheckSend_completes s
  | sendSingle => exact execSendSingle_completes hi.tx
  | sendFirst => exact execSendFirst_completes hi.tx
  | sendConsecutive => exact execSendConsecutive_completes hi.tx
  | checkCollision => exact execCheckCollision_completes s

/-- The sample and the wraparound handler keep the invariant (40_clock_timer.md R101, R104). -/
theorem State.Inv.tickPrologue (hi : s.Inv) (now : Nat) : (s.fresh.sampleClock now).wrapHandler.Inv :=
  hi.stay (hi.registers.fresh.sampleClock now).wrapHandler (by simp) (by simp) (by simp) (by simp) (by simp)

/-- A TICK always ends (47_host_commands.md R242). -/
theorem execTick_completes (hi : s.Inv) (now : Nat) : Completes (execTick now s) := by
  refine completes_ite (fun _ => completes_next _) fun _ =>
    completes_ite (fun _ => completes_next _) fun _ => ?_
  rw [stateStep_eq]
  exact exec_stateInstr_completes (hi.tickPrologue now) _

/-- A SEND accepted by its argument check fits the buffer if its bytes number as many as it says
(47_host_commands.md R243). -/
theorem execSend_completes (now : Nat) (addr : Ident) {len : Nat} {bytes : Option (List Byte)}
    (hb : bytesMatch len bytes = true) (s : State) : Completes (execSend now addr len bytes s) := by
  refine completes_ite (fun _ => completes_next _) fun hv => ?_
  refine completes_ite (fun _ => ?_) (fun _ => completes_next _)
  simp only [sendInvalid, Bool.or_eq_true, decide_eq_true_eq, not_or] at hv
  obtain ⟨⟨⟨hnull, -⟩, -⟩, hm⟩ := hv
  cases bytes with
  | none => exact absurd rfl hnull
  | some bs =>
    obtain rfl : bs.length = len := of_decide_eq_true hb
    have hw := memWrite_ok (m := s.tx.payload) (v := bs) (off := 0) (by simpa using hm)
    simp only [loadTx, State.sampleClock_cfg, State.sampleClock_tx, State.fresh_cfg, State.fresh_tx,
      Option.getD_some, hw]
    exact completes_next _

/-- Every command the decoder accepts completes under the invariant. -/
theorem exec_completes_of_decodeCmd (hi : s.Inv) {w : CmdWord} {i : Instr} (hd : decodeCmd w = .ok i) :
    Completes (exec i s) := by
  obtain rfl | rfl | ⟨hb, rfl⟩ := decodeCmd_cases hd
  · exact completes_ite_next _ _
  · exact execTick_completes hi w.now
  · exact execSend_completes w.now w.addr hb s

theorem State.Inv.issue (hi : s.Inv) (r : HostRequest) (rest : List HostRequest) : (s.issue r rest).Inv :=
  hi.stay (hi.registers.issue r rest) rfl rfl (Nat.le_refl _) rfl rfl

theorem step_completes_of_decodeCmd_ok (hi : s.Inv) {r : HostRequest} {rest : List HostRequest} {i : Instr}
    (h : s.host = r :: rest) (hd : decodeCmd r.word = .ok i) : Completes (step s) := by
  rw [step_of_decodeCmd_ok h hd]
  exact exec_completes_of_decodeCmd (hi.issue r rest) hd

/-- Under the invariant a step changes nothing, is refused by the decoder, or completes. -/
theorem step_ne_fault (hi : s.Inv) (e : Fault) : step s ≠ .fault e := by
  intro he
  cases hh : s.host with
  | nil => exact nomatch (step_of_host_nil hh).symm.trans he
  | cons r rest =>
    cases hd : decodeCmd r.word with
    | error x => exact nomatch (step_of_decodeCmd_error hh hd).symm.trans he
    | ok i =>
      obtain ⟨t, ht⟩ := step_completes_of_decodeCmd_ok hi hh hd
      exact nomatch ht.symm.trans he

end

/-- Settles O38: every command completes, and without one a step changes nothing or is refused. -/
theorem noStepFaultsUnderTheInvariant : Obligations.NoStepFaultsUnderTheInvariant := by
  unfold Obligations.NoStepFaultsUnderTheInvariant
  exact fun s hi => ⟨step_ne_fault hi, fun r rest i => step_completes_of_decodeCmd_ok hi⟩

end Sys2Proof.Machine
end

section
/-! PROOF. Decoding and encoding agree, and the class of a frame is its tag's (O13, O31, O32, O33). The idea:
every frame is `frameOf` of an identifier, a PCI byte and the bytes after it, and a PCI byte is its tag and its
class-specific field; both directions of the agreement are then one equation per class. -/

namespace Sys2Proof.Machine

/-! ## The parts of a PCI byte -/

/-- A PCI byte is its tag and its low nibble (30_encoding.md R81). -/
theorem pciByte_classify_lowNibble (b : Byte) : pciByte (classify b) (lowNibble b) = b := by
  apply BitVec.eq_of_toNat_eq
  rw [pciByte_toNat, classify_toNat, lowNibble_toNat]
  omega

/-- A byte of tag `t` is that tag before its low nibble. -/
theorem pciByte_lowNibble_of_classify {b : Byte} (t : BitVec 4) (h : (classify b).toNat = t.toNat) :
    pciByte t (lowNibble b) = b := by
  rw [← BitVec.eq_of_toNat_eq h, pciByte_classify_lowNibble]

/-- Two fields side by side, as a number. -/
theorem append_toNat {m n : Nat} (hi : BitVec m) (lo : BitVec n) :
    (hi ++ lo).toNat = hi.toNat * 2 ^ n + lo.toNat := by
  rw [BitVec.toNat_append, ← Nat.shiftLeft_add_eq_or_of_lt lo.isLt, Nat.shiftLeft_eq]

/-- Bits 7:6 of the tags 4 to 7 are 01 (30_encoding.md R88). -/
theorem append_low6_of_classify {b : Byte} (h4 : 4 ≤ (classify b).toNat) (h8 : (classify b).toNat < 8) :
    (0b01#2 ++ b.extractLsb' 0 6 : Byte) = b := by
  rw [classify_toNat] at h4 h8
  apply BitVec.eq_of_toNat_eq
  simp only [append_toNat, BitVec.extractLsb'_toNat, Nat.shiftRight_zero, BitVec.toNat_ofNat]
  omega

/-- Bit 7 of the tags 8 to 15 is 1 (30_encoding.md R88). -/
theorem append_low7_of_classify {b : Byte} (h8 : 8 ≤ (classify b).toNat) :
    (0b1#1 ++ b.extractLsb' 0 7 : Byte) = b := by
  have hlt := b.isLt
  rw [classify_toNat] at h8
  apply BitVec.eq_of_toNat_eq
  simp only [append_toNat, BitVec.extractLsb'_toNat, Nat.shiftRight_zero, BitVec.toNat_ofNat]
  omega

/-! ## The class of a PCI byte built from its fields, one equation per class -/

section
variable (id : Ident) (lo : BitVec 4) (body : List Byte)

@[simp] theorem decodeClass_sf : decodeClass id (pciByte 0x0 lo) body = .sf id lo body := by
  rw [decodeClass, classify_pciByte, lowNibble_pciByte]
  rfl

@[simp] theorem decodeClass_ff : decodeClass id (pciByte 0x1 lo) body = .ff id lo body := by
  rw [decodeClass, classify_pciByte, lowNibble_pciByte]
  rfl

@[simp] theorem decodeClass_cf : decodeClass id (pciByte 0x2 lo) body = .cf id lo body := by
  rw [decodeClass, classify_pciByte, lowNibble_pciByte]
  rfl

@[simp] theorem decodeClass_fc : decodeClass id (pciByte 0x3 lo) body = .fc id lo body := by
  rw [decodeClass, classify_pciByte, lowNibble_pciByte]
  rfl

@[simp] theorem decodeClass_unk47 (low : BitVec 6) :
    decodeClass id (0b01#2 ++ low : Byte) body = .unk47 id low body := by
  have hlow := low.isLt
  have hb : (0b01#2 ++ low : Byte).toNat = 64 + low.toNat := append_toNat _ _
  have hfree : BitVec.ofNat 6 (64 + low.toNat) = low := BitVec.eq_of_toNat_eq (by rw [BitVec.toNat_ofNat]; omega)
  rw [decodeClass_eq, hb, if_neg (by omega), if_neg (by omega), if_neg (by omega), if_neg (by omega),
    if_pos (by omega), hfree]

@[simp] theorem decodeClass_unk815 (low : BitVec 7) :
    decodeClass id (0b1#1 ++ low : Byte) body = .unk815 id low body := by
  have hlow := low.isLt
  have hb : (0b1#1 ++ low : Byte).toNat = 128 + low.toNat := append_toNat _ _
  have hfree : BitVec.ofNat 7 (128 + low.toNat) = low := BitVec.eq_of_toNat_eq (by rw [BitVec.toNat_ofNat]; omega)
  rw [decodeClass_eq, hb, if_neg (by omega), if_neg (by omega), if_neg (by omega), if_neg (by omega),
    if_neg (by omega), hfree]

end

/-! ## Frames built from a PCI byte and a body -/

section
variable (id : Ident) (b : Byte) {body : List Byte}

theorem frameOf_len_toNat (h : body.length ≤ 7) : (frameOf id b body).len.toNat = 1 + body.length := by
  rw [frameOf, BitVec.toNat_ofNat]
  exact Nat.mod_eq_of_lt (by omega)

/-- A built frame decodes to the class of its PCI byte. -/
theorem decodeFrame_frameOf (h : body.length ≤ 7) :
    decodeFrame (frameOf id b body) = .ok (decodeClass id b body) :=
  decodeFrame_cons rfl (frameOf_len_toNat id b h) h

/-- A frame is built from its parts (30_encoding.md R90). -/
theorem eq_frameOf {f : Frame} (hd : f.data = b :: body) (hl : f.len.toNat = 1 + body.length) :
    f = frameOf f.id b body := by
  have hlen : f.len = BitVec.ofNat 4 (1 + body.length) := by
    rw [← hl, BitVec.ofNat_toNat, BitVec.setWidth_eq]
  rw [frameOf, ← hlen, ← hd]

/-- What a frame decodes to has that frame as its code: every bit of the PCI byte is in the operands. -/
theorem encode_decodeClass (body : List Byte) : encode (decodeClass id b body) = .pci (frameOf id b body) := by
  have code (c : Byte) (h : c = b) : Code.pci (frameOf id c body) = .pci (frameOf id b body) := by rw [h]
  unfold decodeClass
  split
  case h_1 h => exact code _ (pciByte_lowNibble_of_classify 0x0 h)
  case h_2 h => exact code _ (pciByte_lowNibble_of_classify 0x1 h)
  case h_3 h => exact code _ (pciByte_lowNibble_of_classify 0x2 h)
  case h_4 h => exact code _ (pciByte_lowNibble_of_classify 0x3 h)
  case h_5 t h0 h1 h2 h3 =>
    change (classify b).toNat ≠ _ at h0 h1 h2 h3
    split
    case isTrue h8 => exact code _ (append_low6_of_classify (by omega) h8)
    case isFalse h8 => exact code _ (append_low7_of_classify (Nat.not_lt.1 h8))

theorem decodeClass_wellFormed (h : body.length ≤ 7) : (decodeClass id b body).wellFormed = true := by
  have hfits : bodyFits body = true := decide_eq_true h
  rw [decodeClass_eq]
  split_ifs <;> exact hfits

end

/-! ## Both directions -/

theorem SeqState.decode_encode_instr (st : SeqState) : decode (encode st.instr) = .ok st.instr := by
  cases st <;> rfl

/-- The decoder reads every well-formed instruction back from its code. -/
theorem decode_encode {i : Instr} (h : i.wellFormed = true) : decode (encode i) = .ok i := by
  have frame (id : Ident) (b : Byte) {body : List Byte} (hb : bodyFits body = true) :
      decode (.pci (frameOf id b body)) = .ok (decodeClass id b body) :=
    decodeFrame_frameOf id b (of_decide_eq_true hb)
  cases i with
  | sf id size body => rw [encode, frame id _ h, decodeClass_sf]
  | ff id sizeHi body => rw [encode, frame id _ h, decodeClass_ff]
  | cf id index body => rw [encode, frame id _ h, decodeClass_cf]
  | fc id flag body => rw [encode, frame id _ h, decodeClass_fc]
  | unk47 id low body => rw [encode, frame id _ h, decodeClass_unk47]
  | unk815 id low body => rw [encode, frame id _ h, decodeClass_unk815]
  | begin => rfl
  | tick now => rfl
  | send now addr len bytes => exact if_pos h
  | disabled => exact SeqState.decode_encode_instr .disabled
  | idle => exact SeqState.decode_encode_instr .idle
  | checkRead => exact SeqState.decode_encode_instr .checkRead
  | read => exact SeqState.decode_encode_instr .read
  | parseWhich => exact SeqState.decode_encode_instr .parseWhich
  | checkSend => exact SeqState.decode_encode_instr .checkSend
  | sendSingle => exact SeqState.decode_encode_instr .sendSingle
  | sendFirst => exact SeqState.decode_encode_instr .sendFirst
  | sendConsecutive => exact SeqState.decode_encode_instr .sendConsecutive
  | checkCollision => exact SeqState.decode_encode_instr .checkCollision

/-- Settles O31: the class equations give one direction, the parts of a PCI byte the other. -/
theorem decodeAndEncodeAgree : Obligations.DecodeAndEncodeAgree := by
  unfold Obligations.DecodeAndEncodeAgree
  refine ⟨fun i => decode_encode, fun f h1 h8 hl => ?_⟩
  obtain ⟨b, body, hd⟩ := List.exists_cons_of_length_pos (l := f.data) (by omega)
  rw [hd, List.length_cons] at hl
  have hlen : f.len.toNat = 1 + body.length := by omega
  have h7 : body.length ≤ 7 := by omega
  refine ⟨decodeClass f.id b body, decodeFrame_cons hd hlen h7, decodeClass_wellFormed f.id b h7, ?_⟩
  rw [encode_decodeClass, ← eq_frameOf b hd hlen]

/-- Settles O32: an admissible frame decodes to the class of its first byte. -/
theorem classIsDecidedByTheTagAlone : Obligations.ClassIsDecidedByTheTagAlone := by
  unfold Obligations.ClassIsDecidedByTheTagAlone
  intro f b body hd h7 hl
  rw [decodeFrame_cons hd hl h7, decodeClass_eq]

/-- Settles O33: the decoder evaluated on each written-out word. -/
theorem writtenOutWordsDecode : Obligations.WrittenOutWordsDecode := by
  unfold Obligations.WrittenOutWordsDecode
  decide

/-- Settles O13: both rows drop the frame, whatever its free bits and its body. -/
theorem unknownClassTagIsDropped : Obligations.UnknownClassTagIsDropped := by
  unfold Obligations.UnknownClassTagIsDropped
  exact fun id body s => ⟨fun low => dropFrame_eq s.fresh, fun low => dropFrame_eq s.fresh⟩

end Sys2Proof.Machine
end

section
/-! PROOF. The frames a TICK hands to the bus are well formed (O51). The idea: only the three send states hand a
frame to the bus, one that the encoder of its class built from the outbound transfer (`BuiltFrom`); what such a
frame decodes to is the equation of its class. -/

namespace Sys2Proof.Machine

/-! ## The built frames by their PCI byte -/

theorem encodeSingle_eq_frameOf (addr : Ident) (p : List Byte) :
    encodeSingle addr p.length p = frameOf addr (pciByte 0x0 (BitVec.ofNat 4 p.length)) p := by
  rw [encodeSingle, List.take_length, frameOf]

theorem encodeFirst_eq_frameOf (addr : Ident) (size : BitVec 12) {p : List Byte} (h : p.length = 6) :
    encodeFirst addr size p =
      frameOf addr (pciByte 0x1 (size.extractLsb' 8 4)) (size.extractLsb' 0 8 :: p) := by
  rw [encodeFirst, List.take_of_length_le h.le, frameOf, List.length_cons, h]
  rfl

theorem encodeConsecutive_eq_frameOf (addr : Ident) (counter : BitVec 4) (c : List Byte) :
    encodeConsecutive addr counter c c.length = frameOf addr (pciByte 0x2 counter) c := by
  rw [encodeConsecutive, List.take_length, frameOf]

theorem Frame.fields_frameOf (addr : Ident) (tag lo : BitVec 4) (body : List Byte) :
    Frame.fields (frameOf addr (pciByte tag lo) body) = some (lo, body) :=
  congrArg (fun x => some (x, body)) (lowNibble_pciByte tag lo)

/-! ## What a built frame decodes to -/

theorem decodeSingle_encodeSingle (addr : Ident) {p : List Byte} (h1 : 1 ≤ p.length) (h7 : p.length ≤ 7) :
    decodeSingle (encodeSingle addr p.length p) = some p := by
  have hsize : (BitVec.ofNat 4 p.length).toNat = p.length := by
    rw [BitVec.toNat_ofNat]
    omega
  simp only [decodeSingle, encodeSingle_eq_frameOf, Frame.fields_frameOf]
  exact singleFields_valid (by omega)

/-- The two size fields of a first frame are its size (30_encoding.md R86). -/
theorem firstSize_extractLsb' (size : BitVec 12) :
    firstSize (size.extractLsb' 8 4) (size.extractLsb' 0 8) = size := by
  have hlt := size.isLt
  apply BitVec.eq_of_toNat_eq
  simp only [firstSize_toNat, BitVec.extractLsb'_toNat, Nat.shiftRight_eq_div_pow]
  omega

theorem decodeFirst_encodeFirst (addr : Ident) {maxBuffer : Nat} {size : BitVec 12} {p : List Byte}
    (h6 : p.length = 6) (h8 : 8 ≤ size.toNat) (hm : size.toNat ≤ maxBuffer) :
    decodeFirst maxBuffer (encodeFirst addr size p) = some (size, p) := by
  have hsize := firstSize_extractLsb' size
  have hvalue : (size.extractLsb' 8 4).toNat * 256 + (size.extractLsb' 0 8).toNat = size.toNat := by
    rw [← firstSize_toNat, hsize]
  simp only [decodeFirst, encodeFirst_eq_frameOf addr size h6, Frame.fields_frameOf]
  rw [firstFields_valid h6 (by omega) (by omega), hsize]

theorem decodeFrame_encodeSingle (addr : Ident) {p : List Byte} (h7 : p.length ≤ 7) :
    decodeFrame (encodeSingle addr p.length p) = .ok (.sf addr (BitVec.ofNat 4 p.length) p) := by
  rw [encodeSingle_eq_frameOf, decodeFrame_frameOf _ _ h7, decodeClass_sf]

theorem decodeFrame_encodeFirst (addr : Ident) (size : BitVec 12) {p : List Byte} (h6 : p.length = 6) :
    decodeFrame (encodeFirst addr size p) =
      .ok (.ff addr (size.extractLsb' 8 4) (size.extractLsb' 0 8 :: p)) := by
  rw [encodeFirst_eq_frameOf _ _ h6, decodeFrame_frameOf _ _ (by simp [h6]), decodeClass_ff]

theorem decodeFrame_encodeConsecutive (addr : Ident) (counter : BitVec 4) {c : List Byte}
    (h7 : c.length ≤ 7) :
    decodeFrame (encodeConsecutive addr counter c c.length) = .ok (.cf addr counter c) := by
  rw [encodeConsecutive_eq_frameOf, decodeFrame_frameOf _ _ h7, decodeClass_cf]

/-! ## Who hands a frame to the bus -/

/-- A frame that one of the three encoders builds from a transfer's registers (43_tx_segmentation.md R161 to
R163). -/
inductive BuiltFrom (r : Transfer) : Frame → Prop where
  | single (p : List Byte) (h1 : 1 ≤ p.length) (h7 : p.length ≤ 7) :
      BuiltFrom r (encodeSingle r.address p.length p)
  | first (p : List Byte) (h6 : p.length = 6) (h8 : 8 ≤ r.size.toNat) :
      BuiltFrom r (encodeFirst r.address r.size p)
  | consecutive (c : List Byte) (h1 : 1 ≤ c.length) (h7 : c.length ≤ 7) :
      BuiltFrom r (encodeConsecutive r.address r.counter c c.length)

/-- A built frame carries the transfer's address, a PCI byte and 1 to 7 bytes more (30_encoding.md R80,
R89). -/
theorem BuiltFrom.exists_frameOf {r : Transfer} {f : Frame} (h : BuiltFrom r f) :
    ∃ b body, f = frameOf r.address b body ∧ 1 ≤ body.length ∧ body.length ≤ 7 := by
  cases h with
  | single p h1 h7 => exact ⟨_, p, encodeSingle_eq_frameOf r.address p, h1, h7⟩
  | first p h6 h8 => exact ⟨_, _, encodeFirst_eq_frameOf r.address r.size h6, by simp, by simp [h6]⟩
  | consecutive c h1 h7 => exact ⟨_, c, encodeConsecutive_eq_frameOf r.address r.counter c, h1, h7⟩

/-- A command that put out `o` handed at most one frame to the bus, built from the transfer `r`
(44_state_machine.md R194). -/
def SendsFrom (r : Transfer) (o : Outputs) : Prop :=
  o.sent = [] ∨ ∃ f, o.sent = [f] ∧ BuiltFrom r f

theorem SendsFrom.builtFrom {r : Transfer} {o : Outputs} {f : Frame} (h : SendsFrom r o) (hf : f ∈ o.sent) :
    BuiltFrom r f := by
  obtain hnone | ⟨g, hone, hg⟩ := h
  · rw [hnone] at hf
    cases hf
  · rw [hone, List.mem_singleton] at hf
    exact hf ▸ hg

@[simp] theorem Outputs.quiet_sent : Outputs.quiet.sent = [] := rfl

section
variable {s t : State}

theorem execIdle_sent (h : execIdle s = .next t) : t.out.sent = [] := by
  obtain rfl | ⟨-, -, rfl⟩ | rfl := execIdle_cases h <;> simp

theorem execCheckRead_sent (h : execCheckRead s = .next t) : t.out.sent = [] := by
  obtain rfl | rfl := execCheckRead_cases h <;> simp

theorem execRead_sent (h : execRead s = .next t) : t.out.sent = [] := by
  obtain rfl | ⟨f, -, ⟨-, -, rfl | rfl⟩ | rfl⟩ := execRead_cases h <;> simp

theorem Parsed.sent (h : Parsed s t) : t.out.sent = [] := by
  cases h <;> simp

theorem execCheckSend_sent (h : execCheckSend s = .next t) : t.out.sent = [] := by
  obtain rfl | ⟨-, -, rfl⟩ | ⟨-, rfl⟩ | ⟨-, -, -, rfl⟩ | rfl := execCheckSend_cases h <;> simp

theorem execCheckCollision_sent (h : execCheckCollision s = .next t) : t.out.sent = [] := by
  obtain ⟨-, rfl | rfl⟩ | ⟨-, rfl | ⟨f, -, rfl | rfl | rfl | rfl⟩⟩ := execCheckCollision_cases h <;> simp

theorem execSendSingle_sent (h : execSendSingle s = .next t) : SendsFrom s.tx t.out := by
  obtain rfl | ⟨h1, h7, p, hp, h⟩ := execSendSingle_cases h
  · exact .inl rfl
  rw [← hp] at h1 h7 h
  refine .inr ⟨_, ?_, .single p h1 h7⟩
  obtain rfl | rfl := h <;> rfl

theorem execSendFirst_sent (h : execSendFirst s = .next t) : SendsFrom s.tx t.out := by
  obtain rfl | ⟨h8, p, hp, h⟩ := execSendFirst_cases h
  · exact .inl rfl
  refine .inr ⟨_, ?_, .first p hp h8⟩
  obtain rfl | rfl := h <;> rfl

theorem execSendConsecutive_sent (h : execSendConsecutive s = .next t) : SendsFrom s.tx t.out := by
  obtain rfl | ⟨-, -, hlt, k, c, hk, rfl, h⟩ := execSendConsecutive_cases h
  · exact .inl rfl
  refine .inr ⟨_, ?_, .consecutive c (by omega) (by omega)⟩
  obtain ⟨-, rfl⟩ | ⟨-, rfl⟩ | rfl := h <;> rfl

/-- The row of a state sends from the outbound transfer it starts with. -/
theorem exec_stateInstr_sent {st : SeqState} (h : exec st.instr s = .next t) : SendsFrom s.tx t.out := by
  cases st with
  | disabled => cases h; exact .inl rfl
  | idle => exact .inl (execIdle_sent h)
  | checkRead => exact .inl (execCheckRead_sent h)
  | read => exact .inl (execRead_sent h)
  | parseWhich => exact .inl (execParseWhich_cases h).sent
  | checkSend => exact .inl (execCheckSend_sent h)
  | sendSingle => exact execSendSingle_sent h
  | sendFirst => exact execSendFirst_sent h
  | sendConsecutive => exact execSendConsecutive_sent h
  | checkCollision => exact .inl (execCheckCollision_sent h)

/-- A TICK sends nothing or what the row of its state does (47_host_commands.md R242). -/
theorem execTick_sent {now : Nat} (h : exec (.tick now) s = .next t) : SendsFrom s.tx t.out := by
  obtain ⟨-, rfl⟩ | ⟨-, -, -, -, rfl⟩ | ⟨-, -, h⟩ := execTick_cases h
  · exact .inl rfl
  · exact .inl rfl
  · simpa using exec_stateInstr_sent h

end

/-! ## The statement -/

/-- Settles O51: such a frame is built from the transfer, whose size fits the buffer. -/
theorem sentFramesAreWellFormed : Obligations.SentFramesAreWellFormed := by
  unfold Obligations.SentFramesAreWellFormed
  intro now s t f hi h hf
  have hbuilt := (execTick_sent h).builtFrom hf
  obtain ⟨b, body, hframe, h1, h7⟩ := hbuilt.exists_frameOf
  have hid : f.id = s.tx.address := by rw [hframe, frameOf]
  have hlen : f.len.toNat = 1 + body.length := by rw [hframe, frameOf_len_toNat _ _ h7]
  have hdata : f.data.length = body.length + 1 := by rw [hframe, frameOf, List.length_cons]
  refine ⟨hid, by omega, by omega, by omega, ?_⟩
  cases hbuilt with
  | single p h1 h7 =>
    exact .inl ⟨p, decodeSingle_encodeSingle _ h1 h7, decodeFrame_encodeSingle _ h7⟩
  | first p h6 h8 =>
    exact .inr (.inl ⟨_, _, _, decodeFrame_encodeFirst _ _ h6, decodeFirst_encodeFirst _ h6 h8 hi.tx.fits⟩)
  | consecutive c h1 h7 =>
    exact .inr (.inr ⟨c, decodeFrame_encodeConsecutive _ _ h7, h1⟩)

end Sys2Proof.Machine
end

section
/-! PROOF. A TICK reports the state timeout exactly when it is due (O3). The idea: the timeout is the prologue's
alone, since no row of a state has it among the events it can report. -/

namespace Sys2Proof

open Machine

/-! ## The events of a row -/

/-- The events the row of a state can report (60_exceptions.md R260). -/
def SeqState.rowEvents : SeqState → List Event
  | .disabled | .idle | .checkRead | .checkSend => [.none]
  | .read                                       => [.none, .readRetry, .collisionWin, .collisionYield]
  | .parseWhich                                 => [.none, .frameDropped, .msgDelivered]
  | .sendFirst                                  => [.none, .busSendFail]
  | .sendSingle | .sendConsecutive              => [.none, .busSendFail, .txComplete]
  | .checkCollision                             => [.none, .busReadFail, .collisionWin, .collisionYield]

/-- The timeout is no row's event; the TICK prologue raises it (40_clock_timer.md R105). -/
theorem SeqState.timeout_notMem_rowEvents (st : SeqState) : Event.timeout ∉ st.rowEvents := by
  cases st <;> decide

end Sys2Proof

namespace Sys2Proof.Machine

@[simp] theorem Outputs.quiet_event : Outputs.quiet.event = .none := rfl

section
variable {s t : State}

theorem execIdle_event (h : execIdle s = .next t) : t.out.event = .none := by
  obtain rfl | ⟨-, -, rfl⟩ | rfl := execIdle_cases h <;> rfl

theorem execCheckRead_event (h : execCheckRead s = .next t) : t.out.event = .none := by
  obtain rfl | rfl := execCheckRead_cases h <;> rfl

theorem execRead_event (h : execRead s = .next t) : t.out.event ∈ SeqState.read.rowEvents := by
  obtain rfl | ⟨f, -, ⟨-, -, rfl | rfl⟩ | rfl⟩ := execRead_cases h <;> simp [SeqState.rowEvents]

theorem Parsed.event (h : Parsed s t) : t.out.event ∈ SeqState.parseWhich.rowEvents := by
  cases h <;> simp [SeqState.rowEvents]

theorem execCheckSend_event (h : execCheckSend s = .next t) : t.out.event = .none := by
  obtain rfl | ⟨-, -, rfl⟩ | ⟨-, rfl⟩ | ⟨-, -, -, rfl⟩ | rfl := execCheckSend_cases h <;> rfl

theorem execSendSingle_event (h : execSendSingle s = .next t) :
    t.out.event ∈ SeqState.sendSingle.rowEvents := by
  obtain rfl | ⟨-, -, p, -, rfl | rfl⟩ := execSendSingle_cases h <;> simp [SeqState.rowEvents]

theorem execSendFirst_event (h : execSendFirst s = .next t) :
    t.out.event ∈ SeqState.sendFirst.rowEvents := by
  obtain rfl | ⟨-, p, -, rfl | rfl⟩ := execSendFirst_cases h <;> simp [SeqState.rowEvents]

theorem execSendConsecutive_event (h : execSendConsecutive s = .next t) :
    t.out.event ∈ SeqState.sendConsecutive.rowEvents := by
  obtain rfl | ⟨-, -, -, k, c, -, -, ⟨-, rfl⟩ | ⟨-, rfl⟩ | rfl⟩ := execSendConsecutive_cases h <;>
    simp [SeqState.rowEvents]

theorem execCheckCollision_event (h : execCheckCollision s = .next t) :
    t.out.event ∈ SeqState.checkCollision.rowEvents := by
  obtain ⟨-, rfl | rfl⟩ | ⟨-, rfl | ⟨f, -, rfl | rfl | rfl | rfl⟩⟩ := execCheckCollision_cases h <;>
    simp [SeqState.rowEvents]

/-- The row of a state reports one of its events. -/
theorem exec_stateInstr_event {st : SeqState} (h : exec st.instr s = .next t) :
    t.out.event ∈ st.rowEvents := by
  cases st with
  | disabled => cases h; exact List.mem_singleton_self _
  | idle => exact List.mem_singleton.2 (execIdle_event h)
  | checkRead => exact List.mem_singleton.2 (execCheckRead_event h)
  | read => exact execRead_event h
  | parseWhich => exact (execParseWhich_cases h).event
  | checkSend => exact List.mem_singleton.2 (execCheckSend_event h)
  | sendSingle => exact execSendSingle_event h
  | sendFirst => exact execSendFirst_event h
  | sendConsecutive => exact execSendConsecutive_event h
  | checkCollision => exact execCheckCollision_event h

theorem exec_stateInstr_event_ne_timeout {st : SeqState} (h : exec st.instr s = .next t) :
    t.out.event ≠ .timeout :=
  fun he => st.timeout_notMem_rowEvents (he ▸ exec_stateInstr_event h)

end

/-! ## The statement -/

/-- Settles O3: of the three ways a TICK can go, only the due timeout raises the event, and it calls no
hook. -/
theorem timeoutIsReportedExactlyWhenDue : Obligations.TimeoutIsReportedExactlyWhenDue := by
  unfold Obligations.TimeoutIsReportedExactlyWhenDue
  intro now s t h
  obtain ⟨hd, rfl⟩ | ⟨hd, hle, hpos, hdue, rfl⟩ | ⟨-, hnot, hrow⟩ := execTick_cases h
  · have he : (s.fresh.sampleClock now).out.event ≠ .timeout := nofun
    exact ⟨iff_of_false he fun hc => hc.1 hd, fun hc => absurd hc he⟩
  · exact ⟨iff_of_true rfl ⟨hd, hle, hpos, hdue⟩, fun _ => rfl⟩
  · have he := exec_stateInstr_event_ne_timeout hrow
    exact ⟨iff_of_false he fun hc => hnot hc.2, fun hc => absurd hc he⟩

end Sys2Proof.Machine
end

section
/-! PROOF. The frame codec: what the first-frame check refuses is dropped, and each decoder gives back what the
encoder of its class was given (O8, O30). The idea: `firstFields_cases` says all an accepted first frame is, so
a frame that is not so has no fields; a built frame's fields are its encoder's operands. -/

namespace Sys2Proof.Machine

/-! ## First frames that are refused -/

/-- A body of other than seven bytes, or a size outside 8 to MAX_BUFFER, has no fields (41_frame_codec.md
R123). -/
theorem firstFields_invalid {maxBuffer : Nat} {hi : BitVec 4} {body : List Byte}
    (h : body.length ≠ 7 ∨ ∃ (lo : Byte) (chunk : List Byte), body = lo :: chunk ∧
      (hi.toNat * 256 + lo.toNat < 8 ∨ maxBuffer < hi.toNat * 256 + lo.toNat)) :
    firstFields maxBuffer hi body = none := by
  rw [Option.eq_none_iff_forall_ne_some]
  rintro ⟨size, chunk⟩ hsome
  obtain ⟨lo, rfl, hc, rfl, h8, hm⟩ := firstFields_cases hsome
  rw [firstSize_toNat] at h8 hm
  obtain hlen | ⟨lo', chunk', hbody, hsize⟩ := h
  · exact hlen (by rw [List.length_cons, hc])
  · cases hbody
    omega

theorem execFf_of_firstFields_none (id : Ident) {hi : BitVec 4} {body : List Byte} {s : State}
    (h : firstFields s.cfg.maxBuffer hi body = none) : execFf id hi body s = dropFrame s.fresh := by
  rw [execFf, h]

/-- Settles O8: such a frame has no fields, and the drop writes the state and the timer only. -/
theorem invalidFirstFrameIsDropped : Obligations.InvalidFirstFrameIsDropped := by
  unfold Obligations.InvalidFirstFrameIsDropped
  exact fun id sizeHi body s h => execFf_of_firstFields_none id (firstFields_invalid h)

/-! ## Round trips -/

/-- The encoder of a first frame looks at six bytes of the message (41_frame_codec.md R127). -/
theorem encodeFirst_take (addr : Ident) (size : BitVec 12) (p : List Byte) :
    encodeFirst addr size (p.take 6) = encodeFirst addr size p := by
  simp only [encodeFirst, List.take_take, Nat.min_self]

theorem decodeConsecutive_encodeConsecutive (addr : Ident) (counter : BitVec 4) {chunk : List Byte}
    {remaining : Nat} (h : min 7 remaining = chunk.length) :
    decodeConsecutive (encodeConsecutive addr counter chunk chunk.length) remaining =
      some (counter, chunk) := by
  simp only [decodeConsecutive, encodeConsecutive_eq_frameOf, Frame.fields_frameOf]
  rw [consecutiveFields_valid h.le, h, List.take_length]

/-- Settles O30: the three round trips, a first frame's by the six bytes its encoder takes. -/
theorem codecRoundTrips : Obligations.CodecRoundTrips := by
  unfold Obligations.CodecRoundTrips
  refine ⟨fun a p h1 h7 => decodeSingle_encodeSingle a h1 h7, fun a size p maxBuffer h8 hm h6 => ?_,
    fun a c chunk remaining _ h => decodeConsecutive_encodeConsecutive a c h⟩
  rw [← encodeFirst_take]
  exact decodeFirst_encodeFirst a (List.length_take_of_le h6) h8 hm

end Sys2Proof.Machine
end

section
/-! PROOF. What a frame of each class does to the inbound transfer (O6, O7, O9 to O12). The idea:
`Transfer.Reassembles` says that the buffer holds the message's bytes below the position; an append of the next
bytes keeps it, and when no byte remains the delivery reads the message back. -/

namespace Sys2Proof.Machine

/-! ## The RX registers of a reassembly -/

section
variable {r : Transfer} {p : List Byte}

/-- The RX registers after the stash of a first frame (42_rx_reassembly.md R143). -/
def Transfer.stashed (r : Transfer) (size : BitVec 12) (chunk : List Byte) : Transfer :=
  { r with size := size, payload := Memory.writeN r.payload 0 chunk, position := 6, counter := 1 }

/-- An append with the new position and counter as numbers (42_rx_reassembly.md R145). -/
theorem Transfer.appended_eq (r : Transfer) (chunk : List Byte) :
    r.appended chunk = { r with
      position := BitVec.ofNat 12 (r.position.toNat + chunk.length)
      counter  := BitVec.ofNat 4 ((r.counter.toNat + 1) % 16)
      payload  := Memory.writeN r.payload r.position.toNat chunk } := by
  rw [← add_ofNat_eq, ← nextCounter_eq, Transfer.appended]

theorem Transfer.appended_position_toNat {chunk : List Byte}
    (h : r.position.toNat + chunk.length ≤ r.size.toNat) :
    (r.appended chunk).position.toNat = r.position.toNat + chunk.length := by
  have hsize := r.size.isLt
  exact add_ofNat_toNat (by omega)

/-- The transfer reassembles the message `p`: it expects as many bytes, and its buffer holds those below the
position (10_state.md R27, R35). -/
structure Transfer.Reassembles (r : Transfer) (p : List Byte) : Prop where
  size  : r.size.toNat = p.length
  bytes : ∀ i, i < r.position.toNat → Memory.read r.payload i = p[i]?

theorem Transfer.reassembles_stashed (r : Transfer) {size : BitVec 12} (hs : size.toNat = p.length)
    (h6 : 6 ≤ p.length) : (r.stashed size (p.take 6)).Reassembles p where
  size := hs
  bytes i (hi : i < 6) := by
    have hread := Memory.read_writeN_inside r.payload 0 (p.take 6) (i := i) (by rw [List.length_take]; omega)
    rwa [Nat.zero_add, List.getElem?_take_of_lt hi] at hread

/-- Appending the next bytes of the message goes on with its reassembly. -/
theorem Transfer.Reassembles.appended (h : r.Reassembles p) (hp : r.position.toNat ≤ p.length) (k : Nat) :
    (r.appended ((p.drop r.position.toNat).take k)).Reassembles p where
  size := h.size
  bytes i hi := by
    have hlen : ((p.drop r.position.toNat).take k).length = min k (p.length - r.position.toNat) := by simp
    have hsize := h.size
    rw [Transfer.appended_position_toNat (by omega)] at hi
    by_cases hlt : i < r.position.toNat
    · exact (Memory.read_writeN_outside r.payload _ _ (.inl hlt)).trans (h.bytes i hlt)
    · obtain ⟨j, rfl⟩ := Nat.exists_eq_add_of_le (Nat.le_of_not_lt hlt)
      refine (Memory.read_writeN_inside r.payload _ _ (by omega)).trans ?_
      rw [List.getElem?_take_of_lt (by omega), List.getElem?_drop]

/-- A buffer that holds its bytes below the position holds the first ones of some message. -/
theorem Transfer.exists_stored (h : Memory.holds r.payload r.position.toNat) :
    ∃ stored : List Byte, stored.length = r.position.toNat ∧
      ∀ i, i < r.position.toNat → stored[i]? = Memory.read r.payload i := by
  obtain ⟨stored, hstored⟩ := Option.isSome_iff_exists.1
    (Memory.readN_isSome (off := 0) fun i hi => by rw [Nat.zero_add]; exact h i hi)
  obtain ⟨hlen, hbytes⟩ := Memory.readN_some hstored
  exact ⟨stored, hlen, fun i hi => by rw [hbytes i hi, Nat.zero_add]⟩

end

/-! ## The outcomes of a frame, class by class -/

section
variable {s : State} (id : Ident)

theorem execSf_of_valid {size : BitVec 4} {body : List Byte}
    (h : 1 ≤ size.toNat ∧ size.toNat ≤ 7 ∧ size.toNat = body.length) :
    execSf id size body s =
      .next (((s.fresh.deliver id body body.length).raise .msgDelivered).enter .idle) := by
  rw [execSf, singleFields_valid h, h.2.2]

theorem execSf_of_invalid {size : BitVec 4} {body : List Byte}
    (h : ¬ (1 ≤ size.toNat ∧ size.toNat ≤ 7 ∧ size.toNat = body.length)) :
    execSf id size body s = dropFrame s.fresh := by
  rw [execSf, singleFields_invalid h]

theorem execFf_of_valid {hi : BitVec 4} {lo : Byte} {chunk : List Byte} (hc : chunk.length = 6)
    (h8 : 8 ≤ hi.toNat * 256 + lo.toNat) (hm : hi.toNat * 256 + lo.toNat ≤ s.cfg.maxBuffer) :
    execFf id hi (lo :: chunk) s =
      .next ((s.fresh.setRx (s.rx.stashed (firstSize hi lo) chunk)).enter .checkRead) := by
  have hw := memWrite_ok (m := s.rx.payload) (by omega : 0 + chunk.length ≤ s.cfg.maxBuffer)
  rw [execFf, firstFields_valid hc h8 hm]
  simp only [stashFirst, State.fresh_cfg, State.fresh_rx, hw]
  rfl

theorem finishAppend_of_remaining (h : s.rx.position.toNat ≠ s.rx.size.toNat) :
    finishAppend s = .next (s.enter .checkRead) :=
  if_neg fun he => h (congrArg BitVec.toNat he)

/-- The delivery reads back the message that was reassembled (42_rx_reassembly.md R145). -/
theorem finishAppend_of_complete {p : List Byte} (hr : s.rx.Reassembles p)
    (h : s.rx.position.toNat = s.rx.size.toNat) (hm : p.length ≤ s.cfg.maxBuffer) :
    finishAppend s =
      .next ((((s.deliver s.rx.address p p.length).clearRx).raise .msgDelivered).enter .idle) := by
  have hread : memRead s.cfg.maxBuffer s.rx.payload 0 p.length = .ok p := by
    rw [memRead, if_pos (by omega), Memory.readN_of_bytes fun i hi => ?_]
    rw [Nat.zero_add, hr.bytes i (by rwa [h, hr.size])]
  rw [finishAppend, if_pos (BitVec.eq_of_toNat_eq h), hr.size, hread]

variable (index : BitVec 4) {body : List Byte}

theorem execCf_of_size_zero (h : s.rx.size.toNat = 0) :
    execCf id index body s = dropFrame s.fresh :=
  if_neg fun ha => Nat.lt_irrefl 0 (h ▸ s.rxActive_iff.1 ha)

section
variable (hp : s.rx.position.toNat < s.rx.size.toNat)
include hp

theorem execCf_of_short (hb : body.length < min 7 (s.rx.size.toNat - s.rx.position.toNat)) :
    execCf id index body s = dropFrame s.fresh := by
  rw [execCf, if_pos (s.rxActive_iff.2 (Nat.zero_lt_of_lt hp)), if_pos hp, consecutiveFields_short hb]

/-- A frame with enough bytes appends `min(7, remaining)` of them (41_frame_codec.md R124). -/
theorem execCf_of_enough (hb : min 7 (s.rx.size.toNat - s.rx.position.toNat) ≤ body.length)
    (hm : s.rx.size.toNat ≤ s.cfg.maxBuffer) :
    execCf id index body s = finishAppend
      (s.fresh.setRx (s.rx.appended (body.take (min 7 (s.rx.size.toNat - s.rx.position.toNat))))) := by
  rw [execCf, if_pos (s.rxActive_iff.2 (Nat.zero_lt_of_lt hp)), if_pos hp, consecutiveFields_valid hb]
  have hfits : s.rx.position.toNat + (body.take (min 7 (s.rx.size.toNat - s.rx.position.toNat))).length ≤
      s.cfg.maxBuffer := by rw [List.length_take]; omega
  simp only [appendChunk, State.fresh_cfg, State.fresh_rx, memWrite_ok hfits]
  rfl

end

/-- The frame that leaves a byte to come. -/
theorem execCf_of_remaining (hlt : s.rx.position.toNat + 7 < s.rx.size.toNat) (hb : 7 ≤ body.length)
    (hm : s.rx.size.toNat ≤ s.cfg.maxBuffer) :
    execCf id index body s =
      .next ((s.fresh.setRx (s.rx.appended (body.take 7))).enter .checkRead) := by
  have hlen : (body.take 7).length = 7 := List.length_take_of_le hb
  rw [execCf_of_enough id index (by omega) (by omega) hm, Nat.min_eq_left (by omega)]
  refine finishAppend_of_remaining ?_
  have hpos := Transfer.appended_position_toNat (r := s.rx) (chunk := body.take 7) (by omega)
  simp only [State.setRx_rx, hpos, hlen]
  exact Nat.ne_of_lt hlt

/-- The frame that holds the last bytes of the message delivers it (42_rx_reassembly.md R145). -/
theorem execCf_of_last {p : List Byte} (hr : s.rx.Reassembles p)
    (hp : s.rx.position.toNat < p.length) (h7 : p.length ≤ s.rx.position.toNat + 7)
    (hb : body.take (p.length - s.rx.position.toNat) = p.drop s.rx.position.toNat)
    (hm : p.length ≤ s.cfg.maxBuffer) :
    execCf id index body s =
      .next (((((s.fresh.setRx (s.rx.appended (p.drop s.rx.position.toNat))).deliver s.rx.address p
        p.length).clearRx).raise .msgDelivered).enter .idle) := by
  have hsize := hr.size
  have hlen := congrArg List.length hb
  rw [List.length_take, List.length_drop] at hlen
  have hpos := Transfer.appended_position_toNat (r := s.rx) (chunk := p.drop s.rx.position.toNat)
    (by rw [List.length_drop]; omega)
  have hdone := hr.appended hp.le (p.length - s.rx.position.toNat)
  rw [List.take_of_length_le (by rw [List.length_drop])] at hdone
  rw [execCf_of_enough id index (by omega) (by omega) (by omega), Nat.min_eq_right (by omega), hsize, hb]
  refine finishAppend_of_complete (s := s.fresh.setRx _) hdone ?_ hm
  show (s.rx.appended _).position.toNat = s.rx.size.toNat
  rw [hpos, List.length_drop]
  omega

end

/-! ## The statements about one frame -/

/-- Settles O12: the meaning only enters `CheckRead`. -/
theorem flowControlFrameIsIgnored : Obligations.FlowControlFrameIsIgnored := by
  unfold Obligations.FlowControlFrameIsIgnored
  exact fun id flag body s => rfl

/-- Settles O6: the field check accepts exactly such frames. -/
theorem singleFrameIsDeliveredOrDropped : Obligations.SingleFrameIsDeliveredOrDropped := by
  unfold Obligations.SingleFrameIsDeliveredOrDropped
  intro id size body s
  split
  · exact execSf_of_valid id ‹_›
  · exact execSf_of_invalid id ‹_›

/-- Settles O7: the stash is one sequence write at offset 0. -/
theorem firstFrameStartsAReassembly : Obligations.FirstFrameStartsAReassembly := by
  unfold Obligations.FirstFrameStartsAReassembly
  intro id sizeHi sizeLo chunk s hc h8 hm
  refine ⟨Memory.writeN s.rx.payload 0 chunk, ?_, ?_, fun i hi => ?_, fun a ha => ?_⟩
  · rw [← firstSize_eq]
    exact execFf_of_valid id hc h8 hm
  · rw [← firstSize_eq, firstSize_toNat]
  · simpa using Memory.read_writeN_inside s.rx.payload 0 chunk (i := i) (by omega)
  · exact Memory.read_writeN_outside s.rx.payload 0 chunk (.inr (by omega))

/-- Settles O9: with no reassembly the bytes are not looked at; with one, too few have no fields. -/
theorem unusableConsecutiveFrameIsDropped : Obligations.UnusableConsecutiveFrameIsDropped := by
  unfold Obligations.UnusableConsecutiveFrameIsDropped
  intro id index body s h
  obtain h0 | ⟨hp, hb⟩ := h
  · exact execCf_of_size_zero id index h0
  · exact execCf_of_short id index hp hb

/-- Settles O10: a frame after which a byte is to come appends seven bytes. -/
theorem consecutiveFrameAppends : Obligations.ConsecutiveFrameAppends := by
  unfold Obligations.ConsecutiveFrameAppends
  intro id index body s n hlt hb hm
  have hn : n = 7 := by omega
  clear_value n
  subst hn
  have hlen : (body.take 7).length = 7 := List.length_take_of_le hb
  refine ⟨Memory.writeN s.rx.payload s.rx.position.toNat (body.take 7), ?_, fun i hi => ?_, fun a ha => ?_⟩
  · have happ := Transfer.appended_eq s.rx (body.take 7)
    rw [hlen] at happ
    exact (execCf_of_remaining id index hlt hb hm).trans (by rw [happ]; rfl)
  · rw [Memory.read_writeN_inside _ _ _ (by omega), List.getElem?_take_of_lt hi]
  · exact Memory.read_writeN_outside _ _ _ (by omega)

/-- Settles O11: the message is the bytes stored before and then the frame's. -/
theorem lastConsecutiveFrameDeliversTheMessage : Obligations.LastConsecutiveFrameDeliversTheMessage := by
  unfold Obligations.LastConsecutiveFrameDeliversTheMessage
  intro id index body s hp h7 hb hm hw
  obtain ⟨stored, hstored, hbytes⟩ := Transfer.exists_stored hw
  generalize hrem : s.rx.size.toNat - s.rx.position.toNat = rem at *
  have hlen : (body.take rem).length = rem := List.length_take_of_le hb
  have hmsg : (stored ++ body.take rem).length = s.rx.size.toNat := by
    rw [List.length_append, hstored, hlen]; omega
  have hdrop : (stored ++ body.take rem).drop s.rx.position.toNat = body.take rem := List.drop_left' hstored
  have hprefix : ∀ i, i < s.rx.position.toNat →
      (stored ++ body.take rem)[i]? = Memory.read s.rx.payload i := fun i hi => by
    rw [List.getElem?_append_left (by omega), hbytes i hi]
  have hr : s.rx.Reassembles (stored ++ body.take rem) :=
    ⟨hmsg.symm, fun i hi => (hprefix i hi).symm⟩
  refine ⟨Memory.writeN s.rx.payload s.rx.position.toNat (body.take rem), stored ++ body.take rem, ?_, hmsg,
    hprefix, fun i hi => ?_, fun i hi => ?_, fun a ha => ?_⟩
  · have hlast := execCf_of_last id index hr (by omega) (by omega) (by rw [hmsg, hrem, hdrop]) (by omega)
    rw [hdrop, hmsg] at hlast
    exact hlast
  · rw [List.getElem?_append_right (by omega), hstored, Nat.add_sub_cancel_left, List.getElem?_take_of_lt hi]
  · rw [Memory.read_writeN_inside _ _ _ (by omega), List.getElem?_take_of_lt hi]
  · exact Memory.read_writeN_outside _ _ _ (by omega)

end Sys2Proof.Machine
end

section
/-! PROOF. The frames of a message, parsed in order, deliver exactly it (O56). The idea: parsing a frame runs the
meaning of its class, and along the consecutive frames the buffer holds the message's bytes below the position
while the frames still to come hold the bytes from it on. -/

namespace Sys2Proof.Machine

variable {s : State} {addr : Ident} {p : List Byte}

/-! ## The frames of a message are built frames -/

/-- The size register holds the length of any message it can declare (30_encoding.md R83). -/
theorem size_toNat_of_le {n : Nat} (h : n ≤ 4095) : (BitVec.ofNat 12 n).toNat = n := by
  rw [BitVec.toNat_ofNat, Nat.mod_eq_of_lt (by omega)]

theorem messageFrames_of_short (addr : Ident) (h : p.length ≤ 7) :
    messageFrames addr p = [encodeSingle addr p.length p] := by
  rw [messageFrames, if_pos h, encodeSingle_eq h]

theorem messageFrames_of_long (addr : Ident) (h7 : 7 < p.length) (h4 : p.length ≤ 4095) :
    messageFrames addr p =
      encodeFirst addr (BitVec.ofNat 12 p.length) (p.take 6) :: tailFrames addr p.length 1 (p.drop 6) := by
  rw [messageFrames, if_neg (by omega), encodeFirst_eq (List.length_take_of_le (by omega)),
    size_toNat_of_le h4]

theorem tailFrames_nil (addr : Ident) (fuel j : Nat) : tailFrames addr fuel j [] = [] := by
  cases fuel <;> rfl

theorem tailFrames_succ (addr : Ident) (fuel j : Nat) {rest : List Byte} (h : rest ≠ []) :
    tailFrames addr (fuel + 1) j rest =
      encodeConsecutive addr (BitVec.ofNat 4 j) (rest.take 7) (rest.take 7).length ::
        tailFrames addr fuel (j + 1) (rest.drop 7) := by
  rw [tailFrames, if_neg (by simpa using h), encodeConsecutive_eq rfl, List.length_take, BitVec.toNat_ofNat]

/-! ## Parsing a frame that was read -/

theorem frameOf_admissible (addr : Ident) (b : Byte) {body : List Byte} (h : body.length ≤ 7) :
    (frameOf addr b body).admissible = true := by
  rw [Frame.admissible_iff, frameOf_len_toNat addr b h]
  omega

theorem frameOf_wf (addr : Ident) (b : Byte) {body : List Byte} (h : body.length ≤ 7) :
    (frameOf addr b body).wf = true := by
  rw [Frame.wf, frameOf_len_toNat addr b h, frameOf, List.length_cons, decide_eq_true_eq]
  omega

/-- A frame that was read is parsed as its class (44_state_machine.md R185). -/
theorem exec_parseWhich_capture (s : State) (addr : Ident) (b : Byte) {body : List Byte}
    (h : body.length ≤ 7) :
    exec .parseWhich (s.capture (frameOf addr b body)) =
      exec (decodeClass addr b body) (s.capture (frameOf addr b body)) := by
  rw [← parseByClass_eq]
  exact (if_pos (frameOf_admissible addr b h)).trans (if_pos (frameOf_wf addr b h))

theorem exec_parseWhich_encodeSingle (s : State) (addr : Ident) (h7 : p.length ≤ 7) :
    exec .parseWhich (s.capture (encodeSingle addr p.length p)) =
      execSf addr (BitVec.ofNat 4 p.length) p (s.capture (encodeSingle addr p.length p)) := by
  rw [encodeSingle_eq_frameOf, exec_parseWhich_capture s addr _ h7, decodeClass_sf]
  rfl

theorem exec_parseWhich_encodeFirst (s : State) (addr : Ident) (size : BitVec 12) {chunk : List Byte}
    (h6 : chunk.length = 6) :
    exec .parseWhich (s.capture (encodeFirst addr size chunk)) =
      execFf addr (size.extractLsb' 8 4) (size.extractLsb' 0 8 :: chunk)
        (s.capture (encodeFirst addr size chunk)) := by
  rw [encodeFirst_eq_frameOf addr size h6, exec_parseWhich_capture s addr _ (by simp [h6]), decodeClass_ff]
  rfl

theorem exec_parseWhich_encodeConsecutive (s : State) (addr : Ident) (counter : BitVec 4) {chunk : List Byte}
    (h7 : chunk.length ≤ 7) :
    exec .parseWhich (s.capture (encodeConsecutive addr counter chunk chunk.length)) =
      execCf addr counter chunk (s.capture (encodeConsecutive addr counter chunk chunk.length)) := by
  rw [encodeConsecutive_eq_frameOf, exec_parseWhich_capture s addr _ h7, decodeClass_cf]
  rfl

/-- A message of one frame is delivered at once; RX is not touched (42_rx_reassembly.md R142). -/
theorem exec_parseWhich_single (s : State) (addr : Ident) (h1 : 1 ≤ p.length) (h7 : p.length ≤ 7) :
    ∃ t, exec .parseWhich (s.capture (encodeSingle addr p.length p)) = .next t ∧
      t.out.delivered = [{ address := addr, bytes := p, len := p.length }] ∧ t.state = .idle ∧
      t.tx = s.tx := by
  have hsize : (BitVec.ofNat 4 p.length).toNat = p.length := by
    rw [BitVec.toNat_ofNat, Nat.mod_eq_of_lt (by omega)]
  exact ⟨_, (exec_parseWhich_encodeSingle s addr h7).trans (execSf_of_valid addr (by omega)), rfl, rfl, rfl⟩

/-! ## Parsing frames one after another -/

theorem receiveAll_cons {f : Frame} {fs : List Frame} {t u : State} {ms : List Message}
    (hf : exec .parseWhich (s.capture f) = .next t) (hfs : receiveAll fs t = .next (u, ms)) :
    receiveAll (f :: fs) s = .next (u, t.out.delivered ++ ms) := by
  simp only [receiveAll, hf, hfs]

/-- Parsing the frames delivers the message `p` and nothing else, and ends in `Idle` with RX clear and TX as it
was (42_rx_reassembly.md R145, R151). -/
def FramesDeliver (addr : Ident) (p : List Byte) (fs : List Frame) (s : State) : Prop :=
  ∃ t, receiveAll fs s = .next (t, [{ address := addr, bytes := p, len := p.length }]) ∧
    t.state = .idle ∧ t.tx = s.tx ∧ t.rx.size.toNat = 0

/-- A frame that delivers nothing and leaves TX alone, before frames that deliver the message. -/
theorem FramesDeliver.cons {f : Frame} {fs : List Frame} {t : State} (h : FramesDeliver addr p fs t)
    (hf : exec .parseWhich (s.capture f) = .next t) (hquiet : t.out.delivered = []) (htx : t.tx = s.tx) :
    FramesDeliver addr p (f :: fs) s := by
  obtain ⟨u, hfs, hstate, hutx, hsize⟩ := h
  refine ⟨u, ?_, hstate, hutx.trans htx, hsize⟩
  rw [receiveAll_cons hf hfs, hquiet, List.nil_append]

/-- A read leaves the reassembly to the parsing of its frame; it writes the address only (10_state.md R23). -/
theorem Transfer.Reassembles.capture (h : s.rx.Reassembles p) (f : Frame) : (s.capture f).rx.Reassembles p :=
  ⟨h.size, h.bytes⟩

section
variable {chunk : List Byte} (hr : s.rx.Reassembles p) (hc : chunk = (p.drop s.rx.position.toNat).take 7)
  (hm : p.length ≤ s.cfg.maxBuffer)
include hr hc hm

/-- A consecutive frame with the next seven bytes of the message, when more are to come. -/
theorem exec_parseWhich_consecutive_of_remaining (addr : Ident) (counter : BitVec 4)
    (hlt : s.rx.position.toNat + 7 < p.length) :
    ∃ t, exec .parseWhich (s.capture (encodeConsecutive addr counter chunk chunk.length)) = .next t ∧
      t.out.delivered = [] ∧ t.tx = s.tx ∧ t.cfg = s.cfg ∧ t.rx.Reassembles p ∧
      t.rx.position.toNat = s.rx.position.toNat + 7 := by
  have hsize := hr.size
  have h7 : chunk.length = 7 := by rw [hc, List.length_take, List.length_drop]; omega
  have hparse := (exec_parseWhich_encodeConsecutive s addr counter h7.le).trans
    (execCf_of_remaining addr counter (hlt.trans_eq hsize.symm) h7.ge (hsize.trans_le hm))
  rw [List.take_of_length_le h7.le] at hparse
  refine ⟨_, hparse, rfl, rfl, rfl, ?_, ?_⟩
  · rw [hc]
    exact (hr.capture _).appended (by simp only [State.capture_rx]; omega) 7
  · exact (Transfer.appended_position_toNat (r := s.rx) (by omega)).trans (by rw [h7])

/-- A consecutive frame with the last bytes of the message. -/
theorem exec_parseWhich_consecutive_of_last (addr : Ident) (counter : BitVec 4) (hp : s.rx.position.toNat < p.length)
    (hlast : p.length ≤ s.rx.position.toNat + 7) :
    ∃ t, exec .parseWhich (s.capture (encodeConsecutive addr counter chunk chunk.length)) = .next t ∧
      t.out.delivered = [{ address := addr, bytes := p, len := p.length }] ∧ t.state = .idle ∧ t.tx = s.tx ∧
      t.rx.size.toNat = 0 := by
  have hall : chunk = p.drop s.rx.position.toNat :=
    hc.trans (List.take_of_length_le (by rw [List.length_drop]; omega))
  have h7 : chunk.length ≤ 7 := by rw [hc]; exact List.length_take_le _ _
  have hbody : chunk.take (p.length - s.rx.position.toNat) = p.drop s.rx.position.toNat := by
    rw [hall, List.take_of_length_le List.length_drop.le]
  exact ⟨_, (exec_parseWhich_encodeConsecutive s addr counter h7).trans
    (execCf_of_last addr counter (hr.capture _) hp hlast hbody hm), rfl, rfl, rfl, rfl⟩

end

/-- The consecutive frames of what is left of a message, parsed while it is reassembled. -/
theorem framesDeliver_tailFrames (fuel j : Nat) (hr : s.rx.Reassembles p)
    (hp : s.rx.position.toNat < p.length) (hfuel : p.length ≤ s.rx.position.toNat + fuel)
    (hm : p.length ≤ s.cfg.maxBuffer) :
    FramesDeliver addr p (tailFrames addr fuel j (p.drop s.rx.position.toNat)) s := by
  induction fuel generalizing s j with
  | zero => omega
  | succ fuel ih =>
    have hrest : (p.drop s.rx.position.toNat).length = p.length - s.rx.position.toNat := List.length_drop
    rw [tailFrames_succ addr fuel j (List.ne_nil_of_length_pos (by omega)), List.drop_drop]
    by_cases hlast : p.length ≤ s.rx.position.toNat + 7
    · obtain ⟨t, hexec, hdelivered, ht⟩ :=
        exec_parseWhich_consecutive_of_last hr rfl hm addr (BitVec.ofNat 4 j) hp hlast
      rw [List.drop_of_length_le hlast, tailFrames_nil]
      exact ⟨t, by rw [receiveAll_cons hexec rfl, hdelivered, List.append_nil], ht⟩
    · obtain ⟨t, hexec, hquiet, htx, hcfg, htr, hpos⟩ :=
        exec_parseWhich_consecutive_of_remaining hr rfl hm addr (BitVec.ofNat 4 j) (by omega)
      have htail := ih (j + 1) htr (by omega) (by omega) (by rw [hcfg]; exact hm)
      rw [hpos] at htail
      exact htail.cons hexec hquiet htx

/-- The first frame of a message, parsed over whatever reassembly there was. -/
theorem exec_parseWhich_first (s : State) (addr : Ident) (h8 : 8 ≤ p.length) (h4 : p.length ≤ 4095)
    (hm : p.length ≤ s.cfg.maxBuffer) :
    ∃ t, exec .parseWhich (s.capture (encodeFirst addr (BitVec.ofNat 12 p.length) (p.take 6))) = .next t ∧
      t.out.delivered = [] ∧ t.tx = s.tx ∧ t.cfg = s.cfg ∧ t.rx.Reassembles p ∧
      t.rx.position.toNat = 6 := by
  have h6 : (p.take 6).length = 6 := List.length_take_of_le (by omega)
  have hsize := size_toNat_of_le h4
  have hparse := exec_parseWhich_encodeFirst s addr (BitVec.ofNat 12 p.length) h6
  have hvalue := firstSize_toNat ((BitVec.ofNat 12 p.length).extractLsb' 8 4)
    ((BitVec.ofNat 12 p.length).extractLsb' 0 8)
  rw [firstSize_extractLsb', hsize] at hvalue
  rw [execFf_of_valid addr h6 (hvalue ▸ h8) (hvalue ▸ hm), firstSize_extractLsb'] at hparse
  exact ⟨_, hparse, rfl, rfl, rfl, Transfer.reassembles_stashed _ hsize (by omega), rfl⟩

/-- The frames of a message that takes more than one (43_tx_segmentation.md R168). -/
theorem framesDeliver_messageFrames (s : State) (addr : Ident) (h8 : 8 ≤ p.length) (h4 : p.length ≤ 4095)
    (hm : p.length ≤ s.cfg.maxBuffer) : FramesDeliver addr p (messageFrames addr p) s := by
  obtain ⟨t, hexec, hquiet, htx, hcfg, htr, hpos⟩ := exec_parseWhich_first s addr h8 h4 hm
  have htail := framesDeliver_tailFrames (addr := addr) p.length 1 htr (by omega) (by omega)
    (by rw [hcfg]; exact hm)
  rw [hpos] at htail
  rw [messageFrames_of_long addr h8 h4]
  exact htail.cons hexec hquiet htx

/-! ## The statement -/

/-- Settles O56: one frame, or a first frame and the consecutive frames of the rest. -/
theorem receivedFramesDeliverTheMessage : Obligations.ReceivedFramesDeliverTheMessage := by
  unfold Obligations.ReceivedFramesDeliverTheMessage
  intro s addr p hcfg h1 hm
  obtain ⟨⟨-, h4095⟩, -⟩ := hcfg
  by_cases h7 : p.length ≤ 7
  · obtain ⟨t, hexec, hdelivered, hstate, htx⟩ := exec_parseWhich_single s addr h1 h7
    refine ⟨t, ?_, hstate, htx, fun h8 => by omega⟩
    rw [messageFrames_of_short addr h7, receiveAll_cons hexec rfl, hdelivered, List.append_nil]
  · obtain ⟨t, hall, hstate, htx, hsize⟩ :=
      framesDeliver_messageFrames s addr (by omega) (hm.trans h4095) hm
    exact ⟨t, hall, hstate, htx, fun _ => hsize⟩

end Sys2Proof.Machine
end

section
/-! PROOF. A delivered message fits the buffer (O50). The idea: only ParseWhich delivers, in the two ways of
`Parsed` that do. -/

namespace Sys2Proof.Machine

section
variable {s t : State}

/-! ## The rows that deliver nothing -/

theorem execIdle_delivered (h : execIdle s = .next t) : t.out.delivered = [] := by
  obtain rfl | ⟨-, -, rfl⟩ | rfl := execIdle_cases h <;> rfl

theorem execCheckRead_delivered (h : execCheckRead s = .next t) : t.out.delivered = [] := by
  obtain rfl | rfl := execCheckRead_cases h <;> rfl

theorem execRead_delivered (h : execRead s = .next t) : t.out.delivered = [] := by
  obtain rfl | ⟨f, -, ⟨-, -, rfl | rfl⟩ | rfl⟩ := execRead_cases h <;> rfl

theorem execCheckSend_delivered (h : execCheckSend s = .next t) : t.out.delivered = [] := by
  obtain rfl | ⟨-, -, rfl⟩ | ⟨-, rfl⟩ | ⟨-, -, -, rfl⟩ | rfl := execCheckSend_cases h <;> rfl

theorem execSendSingle_delivered (h : execSendSingle s = .next t) : t.out.delivered = [] := by
  obtain rfl | ⟨-, -, p, -, rfl | rfl⟩ := execSendSingle_cases h <;> rfl

theorem execSendFirst_delivered (h : execSendFirst s = .next t) : t.out.delivered = [] := by
  obtain rfl | ⟨-, p, -, rfl | rfl⟩ := execSendFirst_cases h <;> rfl

theorem execSendConsecutive_delivered (h : execSendConsecutive s = .next t) : t.out.delivered = [] := by
  obtain rfl | ⟨-, -, -, k, c, -, -, ⟨-, rfl⟩ | ⟨-, rfl⟩ | rfl⟩ := execSendConsecutive_cases h <;> rfl

theorem execCheckCollision_delivered (h : execCheckCollision s = .next t) : t.out.delivered = [] := by
  obtain ⟨-, rfl | rfl⟩ | ⟨-, rfl | ⟨f, -, rfl | rfl | rfl | rfl⟩⟩ := execCheckCollision_cases h <;> rfl

/-! ## The row that delivers -/

/-- The command that led to `t` delivered nothing, or one message of 1 to `maxBuffer` bytes with
`EV_MSG_DELIVERED` and an entry of `Idle` (60_exceptions.md R276). -/
def DeliversFitting (maxBuffer : Nat) (t : State) : Prop :=
  t.out.delivered = [] ∨
    t.out.event = .msgDelivered ∧ t.state = .idle ∧
      ∃ (a : Ident) (bytes : List Byte), 1 ≤ bytes.length ∧ bytes.length ≤ maxBuffer ∧
        t.out.delivered = [{ address := a, bytes := bytes, len := bytes.length }]

/-- A buffer that takes a single frame is enough (30_encoding.md R82). -/
theorem Parsed.deliversFitting (h : Parsed s t) (hm : 7 ≤ s.cfg.maxBuffer) :
    DeliversFitting s.cfg.maxBuffer t := by
  cases h with
  | dropped | ignored | first | appended => exact .inl rfl
  | single id body h1 h7 => exact .inr ⟨rfl, rfl, id, body, h1, h7.trans hm, rfl⟩
  | completed chunk bytes hp hc he hfits hb =>
    refine .inr ⟨rfl, rfl, s.rx.address, bytes, by omega, by omega, ?_⟩
    rw [hb]
    rfl

/-- The row of a state delivers what fits. -/
theorem exec_stateInstr_deliversFitting {st : SeqState} (h : exec st.instr s = .next t)
    (hm : 7 ≤ s.cfg.maxBuffer) : DeliversFitting s.cfg.maxBuffer t := by
  cases st with
  | disabled => cases h; exact .inl rfl
  | idle => exact .inl (execIdle_delivered h)
  | checkRead => exact .inl (execCheckRead_delivered h)
  | read => exact .inl (execRead_delivered h)
  | parseWhich => exact (execParseWhich_cases h).deliversFitting hm
  | checkSend => exact .inl (execCheckSend_delivered h)
  | sendSingle => exact .inl (execSendSingle_delivered h)
  | sendFirst => exact .inl (execSendFirst_delivered h)
  | sendConsecutive => exact .inl (execSendConsecutive_delivered h)
  | checkCollision => exact .inl (execCheckCollision_delivered h)

/-- A TICK delivers nothing or what the row of its state does (47_host_commands.md R242). -/
theorem execTick_deliversFitting {now : Nat} (h : exec (.tick now) s = .next t)
    (hm : 7 ≤ s.cfg.maxBuffer) : DeliversFitting s.cfg.maxBuffer t := by
  obtain ⟨-, rfl⟩ | ⟨-, -, -, -, rfl⟩ | ⟨-, -, h⟩ := execTick_cases h
  · exact .inl rfl
  · exact .inl rfl
  · simpa using exec_stateInstr_deliversFitting h (by simpa using hm)

end

/-! ## The statement -/

/-- Settles O50: the one message a TICK can deliver fits, with its event and state. -/
theorem deliveredMessagesFitTheBuffer : Obligations.DeliveredMessagesFitTheBuffer := by
  unfold Obligations.DeliveredMessagesFitTheBuffer
  intro now s t m hi h hmem
  obtain ⟨⟨h64, -⟩, -⟩ := hi.cfg
  obtain hnone | ⟨hevent, hstate, a, bytes, h1, hfits, hone⟩ := execTick_deliversFitting h (by omega)
  · rw [hnone] at hmem
    cases hmem
  · rw [hone, List.mem_singleton] at hmem
    subst hmem
    exact ⟨rfl, h1, hfits, hevent, hstate⟩

end Sys2Proof.Machine
end

section
/-! PROOF. What each send state hands to the bus (O22, O23, O24). The idea: once `MemRead` has answered the
bytes, the step is the encoder's frame and one branch on the answer of the send; the encoder's equation gives the
frame's bytes. -/

namespace Sys2Proof.Machine

/-- `MemRead` of the first bytes of a buffer that holds them. -/
theorem memRead_zero_ok {maxBuffer n : Nat} {m : Memory} (hb : n ≤ maxBuffer) (h : Memory.holds m n) :
    ∃ bs, memRead maxBuffer m 0 n = .ok bs ∧ bs.length = n ∧ ∀ i, i < n → bs[i]? = Memory.read m i := by
  simpa only [Nat.zero_add] using memRead_ok (off := 0) (n.zero_add.trans_le hb)
    fun i hi => by rw [Nat.zero_add]; exact h i hi

section
variable {s : State}

/-! ## The send states, once the bytes are read -/

/-- `TxSingle` (43_tx_segmentation.md R161). -/
theorem execSendSingle_of_memRead {p : List Byte} (h1 : 1 ≤ s.tx.size.toNat) (h7 : s.tx.size.toNat ≤ 7)
    (hp : memRead s.cfg.maxBuffer s.tx.payload 0 s.tx.size.toNat = .ok p) :
    execSendSingle s = .next
      (if s.inp.answers.sendOk = true then
        completeTx (s.fresh.busSend (encodeSingle s.tx.address p.length p))
      else (s.fresh.busSend (encodeSingle s.tx.address p.length p)).takeError .busSendFail) := by
  obtain ⟨-, hlen, -⟩ := memRead_cases hp
  rw [execSendSingle, if_pos ⟨h1, h7⟩, txSingle, State.fresh_cfg, State.fresh_tx, hp, hlen,
    apply_ite Host.Outcome.next]
  rfl

/-- `TxFirst` (43_tx_segmentation.md R162). -/
theorem execSendFirst_of_memRead {p : List Byte} (h8 : 8 ≤ s.tx.size.toNat)
    (hp : memRead s.cfg.maxBuffer s.tx.payload 0 6 = .ok p) :
    execSendFirst s = .next
      (if s.inp.answers.sendOk = true then
        ((s.fresh.busSend (encodeFirst s.tx.address s.tx.size p)).setTx
          { s.tx with position := 6, counter := 1 }).enter .checkCollision
      else (s.fresh.busSend (encodeFirst s.tx.address s.tx.size p)).takeError .busSendFail) := by
  rw [execSendFirst, if_pos h8, txFirst, State.fresh_cfg, State.fresh_tx, hp, apply_ite Host.Outcome.next]
  rfl

/-- An advance that does not pass the size ends the transfer exactly there (43_tx_segmentation.md R163). -/
theorem advanceTx_eq {r : Transfer} {k : Nat} (htx : s.tx = r) (hk : r.position.toNat + k ≤ r.size.toNat) :
    advanceTx k s =
      if r.position.toNat + k = r.size.toNat then completeTx (s.setTx (r.advanced k))
      else (s.setTx (r.advanced k)).enter .checkCollision := by
  subst htx
  have hsize := s.tx.size.isLt
  have hpos : (s.tx.advanced k).position.toNat = s.tx.position.toNat + k := add_ofNat_toNat (by omega)
  have hend : s.tx.size.toNat ≤ (s.tx.advanced k).position.toNat ↔
      s.tx.position.toNat + k = s.tx.size.toNat := by omega
  exact if_congr hend rfl rfl

/-- `TxConsecutive` (43_tx_segmentation.md R163). -/
theorem execSendConsecutive_of_memRead {c : List Byte} (h8 : 8 ≤ s.tx.size.toNat)
    (h0 : 0 < s.tx.position.toNat) (hlt : s.tx.position.toNat < s.tx.size.toNat)
    (hc : memRead s.cfg.maxBuffer s.tx.payload s.tx.position.toNat
      (min 7 (s.tx.size.toNat - s.tx.position.toNat)) = .ok c) :
    execSendConsecutive s = .next
      (if s.inp.answers.sendOk = true then
        if s.tx.position.toNat + c.length = s.tx.size.toNat then
          completeTx ((s.fresh.busSend (encodeConsecutive s.tx.address s.tx.counter c c.length)).setTx
            (s.tx.advanced c.length))
        else
          ((s.fresh.busSend (encodeConsecutive s.tx.address s.tx.counter c c.length)).setTx
            (s.tx.advanced c.length)).enter .checkCollision
      else
        (s.fresh.busSend (encodeConsecutive s.tx.address s.tx.counter c c.length)).takeError
          .busSendFail) := by
  obtain ⟨-, hlen, -⟩ := memRead_cases hc
  have hadv := advanceTx_eq (r := s.tx) (k := c.length)
    (s := s.fresh.busSend (encodeConsecutive s.tx.address s.tx.counter c c.length)) rfl (by omega)
  rw [← hlen] at hc
  rw [execSendConsecutive, if_pos ⟨h8, h0, hlt⟩, ← hadv, apply_ite Host.Outcome.next]
  simp only [txConsecutive, chunkLength, State.fresh_cfg, State.fresh_tx, ← hlen, hc]
  rfl

/-- An advance with the new position and counter as numbers (43_tx_segmentation.md R163). -/
theorem Transfer.advanced_eq (r : Transfer) (k : Nat) :
    r.advanced k = { r with
      position := BitVec.ofNat 12 (r.position.toNat + k)
      counter  := BitVec.ofNat 4 ((r.counter.toNat + 1) % 16) } := by
  rw [← add_ofNat_eq, ← nextCounter_eq, Transfer.advanced]

end

/-! ## The statements about one frame -/

/-- Settles O22: the bytes read are the message, and both answers clear TX and enter `Idle`. -/
theorem sendSingleSendsTheWholeMessage : Obligations.SendSingleSendsTheWholeMessage := by
  unfold Obligations.SendSingleSendsTheWholeMessage
  intro s h1 h7 hm hw
  obtain ⟨p, hread, hlen, hbytes⟩ := memRead_zero_ok hm hw
  refine ⟨p, hlen, fun i hi => hbytes i (hlen ▸ hi), ?_⟩
  refine (execSendSingle_of_memRead h1 h7 hread).trans ?_
  rw [encodeSingle_eq (hlen.trans_le h7)]
  split <;> rfl

/-- Settles O23: the bytes read are the first six, whatever the position is. -/
theorem sendFirstSendsSixBytes : Obligations.SendFirstSendsSixBytes := by
  unfold Obligations.SendFirstSendsSixBytes
  intro s h8 hm hw
  obtain ⟨p, hread, hlen, hbytes⟩ := memRead_zero_ok hm hw
  refine ⟨p, hlen, hbytes, ?_⟩
  refine (execSendFirst_of_memRead h8 hread).trans ?_
  rw [encodeFirst_eq hlen]
  rfl

/-- Settles O24: the bytes read are the chunk, so the position reaches the size exactly at the last one. -/
theorem sendConsecutiveSendsTheNextChunk : Obligations.SendConsecutiveSendsTheNextChunk := by
  unfold Obligations.SendConsecutiveSendsTheNextChunk
  intro s h8 h0 hlt hm hw k
  have hk : s.tx.position.toNat + k ≤ s.tx.size.toNat := by omega
  obtain ⟨c, hread, hlen, hbytes⟩ := memRead_ok (m := s.tx.payload) (hk.trans hm)
    fun i hi => hw _ (by omega)
  refine ⟨c, hlen, hbytes, ?_⟩
  refine (execSendConsecutive_of_memRead h8 h0 hlt hread).trans ?_
  rw [encodeConsecutive_eq rfl, Transfer.advanced_eq, hlen]
  rfl

end Sys2Proof.Machine
end

section
/-! PROOF. An uninterrupted transfer hands exactly the frames of its message to the bus (O55). The idea: along the
run (`State.Transmits`) the timer is the sample of the last TICK, so that a TICK on time runs its state's row; from
`CheckCollision` two TICKs send the next consecutive frame, and the frames still to come are those of the message
from the position on. -/

namespace Sys2Proof.Machine

/-! ## How many frames a message takes -/

/-- Seven bytes a frame, the last one what remains (43_tx_segmentation.md R168). -/
theorem tailFrames_length (addr : Ident) {fuel : Nat} (j : Nat) {rest : List Byte} (h : rest.length ≤ fuel) :
    (tailFrames addr fuel j rest).length = (rest.length + 6) / 7 := by
  induction fuel generalizing j rest with
  | zero => rw [List.eq_nil_of_length_eq_zero (Nat.le_zero.1 h)]; rfl
  | succ fuel ih =>
    by_cases hne : rest = []
    · rw [hne]; rfl
    · have hpos := List.length_pos_iff.2 hne
      have hdrop : (rest.drop 7).length = rest.length - 7 := List.length_drop
      rw [tailFrames_succ addr fuel j hne, List.length_cons, ih (j + 1) (by omega)]
      omega

theorem messageFrames_length (addr : Ident) (p : List Byte) :
    (messageFrames addr p).length = frameCount p.length := by
  by_cases h7 : p.length ≤ 7
  · rw [messageFrames, if_pos h7, frameCount, if_pos h7]; rfl
  · have hdrop : (p.drop 6).length = p.length - 6 := List.length_drop
    rw [messageFrames, if_neg h7, frameCount, if_neg h7, List.length_cons, tailFrames_length addr 1 (by omega)]
    omega

section
variable {s t : State} {p : List Byte} {gap n : Nat}

/-! ## A transfer that holds its message -/

/-- The transfer is of the message `p`: its size, and its bytes in the buffer (10_state.md R32). -/
structure Transfer.Carries (r : Transfer) (p : List Byte) : Prop where
  size  : r.size.toNat = p.length
  bytes : ∀ i, i < p.length → Memory.read r.payload i = p[i]?

/-- `MemRead` of bytes of the message answers them. -/
theorem Transfer.Carries.memRead {r : Transfer} (h : r.Carries p) {maxBuffer off n : Nat}
    (hm : p.length ≤ maxBuffer) (hn : off + n ≤ p.length) :
    memRead maxBuffer r.payload off n = .ok ((p.drop off).take n) := by
  have hlen : ((p.drop off).take n).length = n := List.length_take_of_le (by rw [List.length_drop]; omega)
  have hread := Memory.readN_of_bytes (m := r.payload) (off := off) (bs := (p.drop off).take n) fun i hi => by
    rw [h.bytes _ (by omega), List.getElem?_take_of_lt (by omega), List.getElem?_drop]
  rw [hlen] at hread
  rw [Machine.memRead, if_pos (hn.trans hm), hread]

/-! ## TICKs on time -/

/-- The engine transmits `p` with nothing in the way: no inbound traffic, every send answered `ok`, and TICKs
`gap` apart that open the inter-frame gate before the timeout (44_state_machine.md R195). -/
structure State.Transmits (s : State) (p : List Byte) (gap : Nat) : Prop where
  carries : s.tx.Carries p
  fits    : p.length ≤ s.cfg.maxBuffer
  avail   : s.inp.answers.avail = false
  sendOk  : s.inp.answers.sendOk = true
  wait    : s.cfg.waitTime ≤ gap
  timeout : gap ≤ s.cfg.stateTimeout

/-- What the row of a state starts from in a TICK `gap` after the timer. -/
def State.ticked (s : State) (gap : Nat) : State :=
  { s with inp := { s.inp with now := s.timer + gap }, out := Outputs.quiet }

/-- A TICK neither before the timer nor beyond the timeout runs the row of its state (40_clock_timer.md R104,
R105). -/
theorem exec_tick_ticked (hs : s.state ≠ .disabled) (hgap : gap ≤ s.cfg.stateTimeout)
    (hclock : s.timer + gap < 2 ^ s.cfg.clockWidth) :
    exec (.tick (s.timer + gap)) s = exec s.state.instr (s.ticked gap) := by
  have hsample : s.fresh.sampleClock (s.timer + gap) = s.ticked gap := by
    rw [State.sampleClock, Params.sample, State.fresh_cfg, Nat.mod_eq_of_lt hclock]
    rfl
  have hnow : (s.ticked gap).inp.now = (s.ticked gap).timer + gap := rfl
  have hwrap : (s.ticked gap).wrapHandler = s.ticked gap :=
    if_neg fun hw => by have := (State.clockWrapped_iff _).1 hw; omega
  have hdue : ¬ (s.ticked gap).timedOut = true := fun hd => by
    obtain ⟨-, hlt⟩ := (State.timedOut_iff _).1 hd
    have hcfg : (s.ticked gap).cfg = s.cfg := rfl
    rw [hcfg] at hlt
    omega
  calc exec (.tick (s.timer + gap)) s
      = tickEnabled (s.fresh.sampleClock (s.timer + gap)) := if_neg hs
    _ = stateStep (s.ticked gap) := by
      rw [hsample, tickEnabled, hwrap]
      exact if_neg hdue
    _ = exec s.state.instr (s.ticked gap) := stateStep_eq _

theorem tickRun_succ {now : Nat} {u : State} {fs : List Frame} (ht : exec (.tick (now + gap)) s = .next t)
    (hu : tickRun gap n (now + gap) t = .next (u, fs)) :
    tickRun gap (n + 1) now s = .next (u, t.out.sent ++ fs) := by
  simp only [tickRun, ht, hu]

/-- Unless the clock wraps before, `n` TICKs from `s` hand `fs` to the bus and complete the transfer
(44_state_machine.md R195). -/
def RunSends (gap n : Nat) (s : State) (fs : List Frame) : Prop :=
  s.timer + n * gap < 2 ^ s.cfg.clockWidth →
    ∃ t, tickRun gap n s.timer s = .next (t, fs) ∧ t.state = .idle ∧ t.timer = 0 ∧ t.tx = s.tx.clear ∧
      t.out.event = .txComplete

theorem State.Transmits.congr (h : s.Transmits p gap) (hcfg : t.cfg = s.cfg)
    (hanswers : t.inp.answers = s.inp.answers) (hcarries : t.tx.Carries p) : t.Transmits p gap where
  carries := hcarries
  fits    := hcfg ▸ h.fits
  avail   := hanswers ▸ h.avail
  sendOk  := hanswers ▸ h.sendOk
  wait    := hcfg ▸ h.wait
  timeout := hcfg ▸ h.timeout

/-- The engine after it handed `f` to the bus, the transfer now `r` and not at its end
(43_tx_segmentation.md R162, R163). -/
def State.sentOn (s : State) (f : Frame) (r : Transfer) : State :=
  ((s.busSend f).setTx r).enter .checkCollision

theorem State.Transmits.ticked_sentOn (h : s.Transmits p gap) (f : Frame) {r : Transfer} (hr : r.Carries p) :
    ((s.ticked gap).sentOn f r).Transmits p gap :=
  h.congr rfl rfl hr

theorem State.Transmits.ticked_enter (h : s.Transmits p gap) (st : SeqState) :
    ((s.ticked gap).enter st).Transmits p gap :=
  h.congr rfl rfl h.carries

section
variable {st : SeqState} (h : s.Transmits p gap) (hs : s.state = st) (hst : st ≠ .disabled)
include h hs hst

/-- A TICK that enters a state other than `Idle`, before a run that completes the transfer. -/
theorem State.Transmits.runSends_cons {fs : List Frame}
    (hx : s.timer + gap < 2 ^ s.cfg.clockWidth → exec st.instr (s.ticked gap) = .next t)
    (htimer : t.timer = s.timer + gap) (hcfg : t.cfg = s.cfg) (htx : t.tx.clear = s.tx.clear)
    (hrun : RunSends gap n t fs) : RunSends gap (n + 1) s (t.out.sent ++ fs) := by
  intro hclock
  rw [Nat.succ_mul] at hclock
  have hfirst : s.timer + gap < 2 ^ s.cfg.clockWidth := by omega
  obtain ⟨u, hu, hstate, hzero, hclear, hevent⟩ := hrun (by rw [htimer, hcfg]; omega)
  have htick := (exec_tick_ticked (hs ▸ hst) h.timeout hfirst).trans (hs ▸ hx hfirst)
  exact ⟨u, tickRun_succ htick (htimer ▸ hu), hstate, hzero, hclear.trans htx, hevent⟩

/-- The TICK that sends the last frame. -/
theorem State.Transmits.runSends_last (hx : exec st.instr (s.ticked gap) = .next (completeTx t))
    (htx : t.tx.clear = s.tx.clear) : RunSends gap 1 s t.out.sent := by
  intro hclock
  rw [Nat.one_mul] at hclock
  have htick := (exec_tick_ticked (hs ▸ hst) h.timeout hclock).trans (hs ▸ hx)
  have hrun := tickRun_succ (n := 0) htick rfl
  rw [List.append_nil] at hrun
  exact ⟨completeTx t, hrun, rfl, rfl, htx, rfl⟩

end

/-! ## The rows of a transfer -/

theorem execCheckSend_of_short (h1 : 1 ≤ s.tx.size.toNat) (h7 : s.tx.size.toNat ≤ 7) :
    execCheckSend s = .next (s.fresh.enter .sendSingle) :=
  (if_neg (Nat.ne_of_gt h1)).trans (if_pos h7)

theorem execCheckSend_of_start (h8 : 8 ≤ s.tx.size.toNat) (h0 : s.tx.position.toNat = 0) :
    execCheckSend s = .next (s.fresh.enter .sendFirst) :=
  (if_neg (by simp only [State.fresh_tx]; omega)).trans
    ((if_neg (by simp only [State.fresh_tx]; omega)).trans (if_pos h0))

/-- With no frame waiting and the inter-frame gate open, the transfer goes on (45_collision.md R214). -/
theorem execCheckCollision_of_quiet (ha : s.inp.answers.avail = false) (hw : s.waitOk = true) :
    execCheckCollision s = .next (s.fresh.askedAvailable.enter .sendConsecutive) :=
  (if_neg (Bool.eq_false_iff.1 ha)).trans (congrArg Host.Outcome.next (if_pos hw))

section
variable (h : s.Transmits p gap)
include h

/-- A TICK `gap` after the timer finds the inter-frame gate open (40_clock_timer.md R109). -/
theorem State.Transmits.waitOk_ticked (hclock : s.timer + gap < 2 ^ s.cfg.clockWidth) :
    (s.ticked gap).waitOk = true := by
  have helapsed : Params.elapsed s.cfg (s.timer + gap) s.timer = gap := by
    rw [Params.elapsed_of_le s.cfg (Nat.le_add_right _ _) hclock, Nat.add_sub_cancel_left]
  exact decide_eq_true (h.wait.trans_eq helapsed.symm)

/-- The only frame of a short message. -/
theorem State.Transmits.exec_sendSingle (h1 : 1 ≤ p.length) (h7 : p.length ≤ 7) :
    exec .sendSingle (s.ticked gap) =
      .next (completeTx ((s.ticked gap).busSend (encodeSingle s.tx.address p.length p))) := by
  have hsize := h.carries.size
  have hread := h.carries.memRead (off := 0) h.fits (Nat.zero_add _).le
  rw [List.drop_zero, List.take_length, ← hsize] at hread
  exact (execSendSingle_of_memRead (s := s.ticked gap) (h1.trans_eq hsize.symm) (hsize.trans_le h7)
    hread).trans (congrArg Host.Outcome.next (if_pos h.sendOk))

/-- The first frame of a longer one. -/
theorem State.Transmits.exec_sendFirst (h8 : 8 ≤ p.length) :
    exec .sendFirst (s.ticked gap) =
      .next ((s.ticked gap).sentOn (encodeFirst s.tx.address s.tx.size (p.take 6))
        { s.tx with position := 6, counter := 1 }) := by
  have hread := h.carries.memRead (off := 0) (n := 6) h.fits (by omega)
  rw [List.drop_zero] at hread
  exact (execSendFirst_of_memRead (s := s.ticked gap) (h8.trans_eq h.carries.size.symm) hread).trans
    (congrArg Host.Outcome.next (if_pos h.sendOk))

/-- The next consecutive frame: seven bytes from the position, or what remains. -/
theorem State.Transmits.exec_sendConsecutive (h8 : 8 ≤ p.length) (h0 : 0 < s.tx.position.toNat)
    (hlt : s.tx.position.toNat < p.length) {c : List Byte} (hc : c = (p.drop s.tx.position.toNat).take 7) :
    exec .sendConsecutive (s.ticked gap) = .next
      (if s.tx.position.toNat + c.length = p.length then
        completeTx (((s.ticked gap).busSend
          (encodeConsecutive s.tx.address s.tx.counter c c.length)).setTx (s.tx.advanced c.length))
      else
        (s.ticked gap).sentOn (encodeConsecutive s.tx.address s.tx.counter c c.length)
          (s.tx.advanced c.length)) := by
  have hsize := h.carries.size
  have hread := h.carries.memRead (off := s.tx.position.toNat)
    (n := min 7 (s.tx.size.toNat - s.tx.position.toNat)) h.fits (by omega)
  have hrest : (p.drop s.tx.position.toNat).length = s.tx.size.toNat - s.tx.position.toNat := by
    rw [List.length_drop, hsize]
  rw [← List.take_take, ← hrest, List.take_length, hrest, ← hc] at hread
  rw [← hsize]
  exact (execSendConsecutive_of_memRead (s := s.ticked gap) (h8.trans_eq hsize.symm) h0
    (hlt.trans_eq hsize.symm) hread).trans (congrArg Host.Outcome.next (if_pos h.sendOk))

/-! ## Frame after frame -/

/-- The two TICKs of a message of one frame (43_tx_segmentation.md R161). -/
theorem State.Transmits.runSends_single (hs : s.state = .checkSend) (h1 : 1 ≤ p.length)
    (h7 : p.length ≤ 7) : RunSends gap 2 s [encodeSingle s.tx.address p.length p] := by
  have hsize := h.carries.size
  have hready := h.ticked_enter .sendSingle
  have hpath := execCheckSend_of_short (s := s.ticked gap) (h1.trans_eq hsize.symm) (hsize.trans_le h7)
  exact h.runSends_cons hs nofun (fun _ => hpath) rfl rfl rfl
    (hready.runSends_last rfl nofun (hready.exec_sendSingle h1 h7) rfl)

/-- The TICK between two frames (45_collision.md R214). -/
theorem State.Transmits.runSends_pace (hs : s.state = .checkCollision) {fs : List Frame}
    (hrun : RunSends gap n ((s.ticked gap).askedAvailable.enter .sendConsecutive) fs) :
    RunSends gap (n + 1) s fs :=
  h.runSends_cons hs nofun (t := (s.ticked gap).askedAvailable.enter .sendConsecutive)
    (fun hclock => execCheckCollision_of_quiet (s := s.ticked gap) h.avail (h.waitOk_ticked hclock))
    rfl rfl rfl hrun

section
variable (hs : s.state = .checkCollision) (h8 : 8 ≤ p.length) (h0 : 0 < s.tx.position.toNat)
  (hlt : s.tx.position.toNat < p.length) {c : List Byte} (hc : c = (p.drop s.tx.position.toNat).take 7)
include hs h8 h0 hlt hc

/-- The two TICKs of the last consecutive frame. -/
theorem State.Transmits.runSends_lastConsecutive (hlast : p.length ≤ s.tx.position.toNat + 7) :
    RunSends gap 2 s [encodeConsecutive s.tx.address s.tx.counter c c.length] := by
  have hend : s.tx.position.toNat + c.length = p.length := by
    rw [hc, List.length_take, List.length_drop]; omega
  have hready : ((s.ticked gap).askedAvailable.enter .sendConsecutive).Transmits p gap :=
    h.congr rfl rfl h.carries
  have hsend := (hready.exec_sendConsecutive h8 h0 hlt hc).trans (congrArg _ (if_pos hend))
  exact h.runSends_pace hs (hready.runSends_last rfl nofun hsend rfl)

/-- The two TICKs of a consecutive frame after which a byte is to come. -/
theorem State.Transmits.runSends_nextConsecutive (hmore : s.tx.position.toNat + 7 < p.length) :
    ∃ t : State, t.Transmits p gap ∧ t.state = .checkCollision ∧ t.tx = s.tx.advanced 7 ∧
      ∀ n fs, RunSends gap n t fs →
        RunSends gap (n + 2) s (encodeConsecutive s.tx.address s.tx.counter c c.length :: fs) := by
  have hlen : c.length = 7 := by rw [hc, List.length_take, List.length_drop]; omega
  have hnot : ¬ s.tx.position.toNat + c.length = p.length := by omega
  have hready : ((s.ticked gap).askedAvailable.enter .sendConsecutive).Transmits p gap :=
    h.congr rfl rfl h.carries
  have hsend := (hready.exec_sendConsecutive h8 h0 hlt hc).trans (congrArg _ (if_neg hnot))
  exact ⟨_, hready.ticked_sentOn _ (r := s.tx.advanced c.length) ⟨h.carries.size, h.carries.bytes⟩, rfl,
    congrArg s.tx.advanced hlen, fun n fs hrun =>
      h.runSends_pace hs (hready.runSends_cons rfl nofun (fun _ => hsend) rfl rfl rfl hrun)⟩

end

end

theorem nextCounter_ofNat (j : Nat) : nextCounter (BitVec.ofNat 4 j) = BitVec.ofNat 4 (j + 1) :=
  (BitVec.ofNat_add j 1).symm

/-- The TICKs of the consecutive frames, two each, from the position on (43_tx_segmentation.md R168). -/
theorem State.Transmits.runSends_tail {fuel j : Nat} (h : s.Transmits p gap)
    (hs : s.state = .checkCollision) (h8 : 8 ≤ p.length) (h0 : 0 < s.tx.position.toNat)
    (hlt : s.tx.position.toNat < p.length) (hj : s.tx.counter = BitVec.ofNat 4 j)
    (hfuel : p.length ≤ s.tx.position.toNat + fuel) :
    RunSends gap (2 * (tailFrames s.tx.address fuel j (p.drop s.tx.position.toNat)).length) s
      (tailFrames s.tx.address fuel j (p.drop s.tx.position.toNat)) := by
  induction fuel generalizing s j with
  | zero => omega
  | succ fuel ih =>
    have hrest : p.drop s.tx.position.toNat ≠ [] :=
      List.ne_nil_of_length_pos (by rw [List.length_drop]; omega)
    rw [tailFrames_succ s.tx.address fuel j hrest, ← hj, List.drop_drop]
    by_cases hlast : p.length ≤ s.tx.position.toNat + 7
    · rw [List.drop_of_length_le hlast, tailFrames_nil]
      exact h.runSends_lastConsecutive hs h8 h0 hlt rfl hlast
    · obtain ⟨t, ht, hstate, htx, hframe⟩ := h.runSends_nextConsecutive hs h8 h0 hlt rfl (by omega)
      have hpos : t.tx.position.toNat = s.tx.position.toNat + 7 := by
        rw [htx, Transfer.advanced_position_toNat (by rw [h.carries.size]; omega)]
      have hcounter : t.tx.counter = BitVec.ofNat 4 (j + 1) := by
        rw [htx, ← nextCounter_ofNat, ← hj, Transfer.advanced]
      have htail := ih ht hstate (by omega) (by omega) hcounter (by omega)
      rw [hpos, htx, Transfer.advanced_address] at htail
      exact hframe _ _ htail

/-- The two TICKs of a first frame and those of the rest (43_tx_segmentation.md R162, R168). -/
theorem State.Transmits.runSends_long (h : s.Transmits p gap) (hs : s.state = .checkSend)
    (h8 : 8 ≤ p.length) (h0 : s.tx.position.toNat = 0) :
    RunSends gap (2 * (messageFrames s.tx.address p).length) s (messageFrames s.tx.address p) := by
  have hsize := h.carries.size
  have hlt := s.tx.size.isLt
  have hof : BitVec.ofNat 12 p.length = s.tx.size := by
    rw [← hsize, BitVec.ofNat_toNat, BitVec.setWidth_eq]
  have hready := h.ticked_enter .sendFirst
  have hsent := hready.ticked_sentOn (encodeFirst s.tx.address s.tx.size (p.take 6))
    (r := { s.tx with position := 6, counter := 1 }) ⟨hsize, h.carries.bytes⟩
  have htail := hsent.runSends_tail (fuel := p.length) (j := 1) rfl h8 (Nat.zero_lt_succ 5)
    (show 6 < p.length by omega) rfl (Nat.le_add_left _ _)
  have hpath := execCheckSend_of_start (s := s.ticked gap) (h8.trans_eq hsize.symm) h0
  rw [messageFrames_of_long s.tx.address h8 (by omega), hof]
  exact h.runSends_cons hs nofun (fun _ => hpath) rfl rfl rfl
    (hready.runSends_cons rfl nofun (fun _ => hready.exec_sendFirst h8) rfl rfl rfl htail)

end

/-! ## The statement -/

/-- Settles O55: one frame, or a first frame and the consecutive frames of the rest, two TICKs each. -/
theorem uninterruptedTransferSendsTheMessage : Obligations.UninterruptedTransferSendsTheMessage := by
  unfold Obligations.UninterruptedTransferSendsTheMessage
  intro s p gap hi hs h1 hsize h0 hbytes havail hsend hwait htimeout hclock
  have h : s.Transmits p gap :=
    ⟨⟨hsize, hbytes⟩, hsize ▸ hi.tx.fits, havail, hsend, hwait, htimeout⟩
  have hcount := messageFrames_length s.tx.address p
  have hrun : RunSends gap (2 * frameCount p.length) s (messageFrames s.tx.address p) := by
    rw [← hcount]
    by_cases h7 : p.length ≤ 7
    · rw [messageFrames_of_short s.tx.address h7]
      exact h.runSends_single hs h1 h7
    · exact h.runSends_long hs (by omega) h0
  exact ⟨hcount, hrun hclock⟩

end Sys2Proof.Machine
end

section
/-! PROOF. What Idle, CheckRead, Read and ParseWhich do, and that Disabled does nothing (O14 to O17, O19, O20).
The idea: each branch of a step is chosen by an answer of a hook or by a gate that has a proposition, and ParseWhich
is the meaning of the class that `rxf` decodes to; a literal frame is one its encoder built, so it decodes to its
class. -/

namespace Sys2Proof.Machine

variable {s : State}

/-! ## Disabled and the polling states -/

theorem execTick_of_disabled (now : Nat) (h : s.state = .disabled) :
    execTick now s = .next (s.fresh.sampleClock now) :=
  if_pos h

/-- Settles O14: the step only starts a command, the TICK also takes its sample. -/
theorem disabledDoesNothing : Obligations.DisabledDoesNothing := by
  unfold Obligations.DisabledDoesNothing
  exact fun s => ⟨rfl, fun now h => execTick_of_disabled now h⟩

/-- The gate of Idle: no reassembly, a pending transfer, the holdoff open (44_state_machine.md R181). -/
theorem State.idleGate_iff (s : State) :
    (!s.rxActive && s.txPending && s.holdOk) = true ↔
      s.rx.size.toNat = 0 ∧ 0 < s.tx.size.toNat ∧ (s.hold.active = false ∨
        s.cfg.holdoffDelay ≤
          (s.inp.now + 2 ^ s.cfg.clockWidth - s.hold.start % 2 ^ s.cfg.clockWidth) % 2 ^ s.cfg.clockWidth) := by
  have hidle : (!s.rxActive) = true ↔ s.rx.size.toNat = 0 := by simp [State.rxActive]
  rw [Bool.and_eq_true, Bool.and_eq_true, hidle, State.txPending_iff, State.holdOk_iff, and_assoc]

/-- Settles O15: the answer of `BusAvailable` first, then the gate. -/
theorem idlePrefersReceiveThenPendingSend : Obligations.IdlePrefersReceiveThenPendingSend := by
  unfold Obligations.IdlePrefersReceiveThenPendingSend
  intro s
  simp only [apply_ite Host.Outcome.next]
  exact if_congr Iff.rfl rfl (if_congr s.fresh.askedAvailable.idleGate_iff rfl rfl)

/-- Settles O16: the answer of `BusAvailable` decides. -/
theorem checkReadPolls : Obligations.CheckReadPolls := by
  unfold Obligations.CheckReadPolls
  intro s
  rw [apply_ite Host.Outcome.next]
  rfl

/-! ## Read -/

theorem execRead_of_error (h : s.inp.answers.read = none) :
    execRead s = .next ((s.fresh.askedRead.raise .readRetry).enter .checkRead) := by
  simp only [execRead, s.fresh.askedRead.busRead_none h]

theorem execRead_of_notInFlight {f : BusFrame} (h : s.inp.answers.read = some f)
    (htx : ¬ (0 < s.tx.size.toNat ∧ 0 < s.tx.position.toNat)) :
    execRead s = .next ((s.fresh.askedRead.capture (BusFrame.captured f)).enter .parseWhich) := by
  simp only [execRead, s.fresh.askedRead.busRead_some h]
  exact if_neg fun hg => htx ((State.txInFlight_iff _).1 hg)

/-- Settles O17: the answer of `BusRead` decides, and no transfer is in flight. -/
theorem readFetchesAFrame : Obligations.ReadFetchesAFrame := by
  unfold Obligations.ReadFetchesAFrame
  exact fun s => ⟨execRead_of_error, fun f hf htx => execRead_of_notInFlight hf (by omega)⟩

/-! ## ParseWhich -/

/-- Everything an accepted frame says (41_frame_codec.md R121, 30_encoding.md R87). -/
theorem decodeFrame_cases {f : Frame} {i : Instr} (h : decodeFrame f = .ok i) :
    f.admissible = true ∧ f.wf = true ∧ ∃ b body, f.data = b :: body ∧ i = decodeClass f.id b body := by
  cases ha : f.admissible with
  | false => simp [decodeFrame, ha] at h
  | true =>
    cases hw : f.wf with
    | false => simp [decodeFrame, ha, hw] at h
    | true =>
      obtain ⟨b, body, hd, hl, h7⟩ := Frame.data_of_admissible ha hw
      rw [decodeFrame_cons hd hl h7] at h
      exact ⟨rfl, rfl, b, body, hd, (Except.ok.inj h).symm⟩

/-- A frame that decodes is parsed as its class (44_state_machine.md R185). -/
theorem execParseWhich_of_decodeFrame_ok {i : Instr} (h : decodeFrame s.rxf = .ok i) :
    execParseWhich s = exec i s := by
  obtain ⟨ha, hw, b, body, hd, rfl⟩ := decodeFrame_cases h
  rw [execParseWhich, if_pos ha, if_pos hw, hd, ← parseByClass_eq]

/-- No byte of a frame of another length is looked at (41_frame_codec.md R121). -/
theorem execParseWhich_of_inadmissible (h : ¬ s.rxf.admissible = true) :
    execParseWhich s = dropFrame s.fresh :=
  if_neg h

/-- Settles O19: the parser's classes are the decoder's, and an inadmissible length is dropped. -/
theorem parseWhichRunsTheDecodedFrame : Obligations.ParseWhichRunsTheDecodedFrame := by
  unfold Obligations.ParseWhichRunsTheDecodedFrame
  refine fun s => ⟨fun i => execParseWhich_of_decodeFrame_ok,
    fun hlen => execParseWhich_of_inadmissible ?_⟩
  rw [Frame.admissible_iff]
  omega

/-- A frame written out as one byte of its length and as many bytes is a single frame (30_encoding.md R82). -/
theorem decodeFrame_of_singleBytes {f : Frame} {bs : List Byte} (h7 : bs.length ≤ 7)
    (hlen : f.len = BitVec.ofNat 4 (1 + bs.length)) (hdata : f.data = BitVec.ofNat 8 bs.length :: bs) :
    decodeFrame f = .ok (.sf f.id (BitVec.ofNat 4 bs.length) bs) := by
  have hf : f = encodeSingle f.id bs.length bs := by rw [encodeSingle_eq h7, ← hlen, ← hdata]
  rw [hf]
  exact decodeFrame_encodeSingle f.id h7

/-- A frame written out as tag 1, a size in two fields and six bytes is a first frame (30_encoding.md R83). -/
theorem decodeFrame_of_firstBytes {f : Frame} {size : Nat} {chunk : List Byte} (h4 : size ≤ 4095)
    (hc : chunk.length = 6) (hlen : f.len = 8)
    (hdata : f.data = BitVec.ofNat 8 (0x10 + size / 256) :: BitVec.ofNat 8 (size % 256) :: chunk) :
    decodeFrame f = .ok (.ff f.id ((BitVec.ofNat 12 size).extractLsb' 8 4)
      ((BitVec.ofNat 12 size).extractLsb' 0 8 :: chunk)) := by
  have hf : f = encodeFirst f.id (BitVec.ofNat 12 size) chunk := by
    rw [encodeFirst_eq hc, size_toNat_of_le h4, ← hlen, ← hdata]
  rw [hf]
  exact decodeFrame_encodeFirst f.id _ hc

/-- Settles O20: such frames decode to a valid single frame and a valid first frame. -/
theorem parseWhichCompletesOnFrameBytes : Obligations.ParseWhichCompletesOnFrameBytes := by
  unfold Obligations.ParseWhichCompletesOnFrameBytes
  refine fun s => ⟨fun bs h1 h7 hlen hdata => ?_, fun size chunk h8 h4 hm hc hlen hdata => ?_⟩
  · have hsize : (BitVec.ofNat 4 bs.length).toNat = bs.length := by
      rw [BitVec.toNat_ofNat, Nat.mod_eq_of_lt (by omega)]
    exact (execParseWhich_of_decodeFrame_ok (decodeFrame_of_singleBytes h7 hlen hdata)).trans
      (execSf_of_valid s.rxf.id (by omega))
  · have hvalue := firstSize_toNat ((BitVec.ofNat 12 size).extractLsb' 8 4)
      ((BitVec.ofNat 12 size).extractLsb' 0 8)
    rw [firstSize_extractLsb', size_toNat_of_le h4] at hvalue
    obtain ⟨m, hexec, -, hstashed, hkept⟩ :=
      firstFrameStartsAReassembly s.rxf.id _ _ chunk s hc (hvalue ▸ h8) (hvalue ▸ hm)
    rw [← hvalue] at hexec
    exact ⟨m, (execParseWhich_of_decodeFrame_ok (decodeFrame_of_firstBytes h4 hc hlen hdata)).trans hexec,
      hstashed, hkept⟩

end Sys2Proof.Machine
end

section
/-! PROOF. The path of a pending transfer, and the branches of the send states that cannot occur (O21, O25). The
idea: each is one branch of a chain of comparisons of `tx.size` and `tx.position`. -/

namespace Sys2Proof.Machine

variable {s : State}

/-- Settles O21: the meaning's comparisons, in their order. -/
theorem checkSendChoosesThePath : Obligations.CheckSendChoosesThePath := by
  unfold Obligations.CheckSendChoosesThePath
  intro s
  simp only [apply_ite Host.Outcome.next]
  rfl

theorem execSendSingle_of_dead (h : ¬ (1 ≤ s.tx.size.toNat ∧ s.tx.size.toNat ≤ 7)) :
    execSendSingle s = deadSend s.fresh :=
  if_neg h

theorem execSendFirst_of_dead (h : s.tx.size.toNat < 8) : execSendFirst s = deadSend s.fresh :=
  if_neg (Nat.not_le.2 h)

theorem execSendConsecutive_of_dead
    (h : ¬ (8 ≤ s.tx.size.toNat ∧ 0 < s.tx.position.toNat ∧ s.tx.position.toNat < s.tx.size.toNat)) :
    execSendConsecutive s = deadSend s.fresh :=
  if_neg h

/-- Settles O25: outside its guard each send state is the same branch. -/
theorem deadSendBranchesClearAndIdle : Obligations.DeadSendBranchesClearAndIdle := by
  unfold Obligations.DeadSendBranchesClearAndIdle
  rintro s i (⟨rfl, h⟩ | ⟨rfl, h⟩ | ⟨rfl, h⟩)
  · exact execSendSingle_of_dead h
  · exact execSendFirst_of_dead h
  · exact execSendConsecutive_of_dead h

end Sys2Proof.Machine
end

section
/-! PROOF. Where a TICK can go and which hooks it calls (O42, O43). The idea: a TICK does nothing in `Disabled`, is
ended by the timeout, or runs its state's row; the row goes where the transition table says and calls the hooks its
state is listed with. -/

namespace Sys2Proof

/-! ## The hooks of a state -/

/-- The states whose row calls `BusAvailable` (44_state_machine.md R194). -/
def SeqState.polls (st : SeqState) : Bool :=
  decide (st = .idle ∨ st = .checkRead ∨ st = .checkCollision)

/-- The states whose row calls `BusRead`, given the answer of `BusAvailable` (44_state_machine.md R194). -/
def SeqState.reads (st : SeqState) (avail : Bool) : Bool :=
  decide (st = .read ∨ (st = .checkCollision ∧ avail = true))

/-- The states whose row may call `BusSend` (44_state_machine.md R194). -/
def SeqState.sends (st : SeqState) : Bool :=
  decide (st = .sendSingle ∨ st = .sendFirst ∨ st = .sendConsecutive)

/-- The state whose row may call the sink (44_state_machine.md R194). -/
def SeqState.delivers (st : SeqState) : Bool := decide (st = .parseWhich)

theorem SeqState.reads_eq_false_of_sends {st : SeqState} (h : st.sends = true) (avail : Bool) :
    st.reads avail = false := by
  obtain rfl | rfl | rfl := of_decide_eq_true h <;> simp [SeqState.reads]

end Sys2Proof

namespace Sys2Proof.Machine

section
variable {s t : State}

/-! ## Where a row goes -/

theorem Parsed.goes (h : Parsed s t) : tickGoes .parseWhich t.state = true := by
  cases h <;> rfl

/-- The row of the current state goes where the table says, a stay included (44_state_machine.md R192). -/
theorem exec_stateInstr_goes (h : exec s.state.instr s = .next t) : tickGoes s.state t.state = true := by
  cases hs : s.state <;> rw [hs] at h
  case disabled =>
    cases h
    simp [tickGoes, hs]
  case idle => obtain rfl | ⟨-, -, rfl⟩ | rfl := execIdle_cases h <;> simp [tickGoes, hs]
  case checkRead => obtain rfl | rfl := execCheckRead_cases h <;> simp [tickGoes, hs]
  case read => obtain rfl | ⟨f, -, ⟨-, -, rfl | rfl⟩ | rfl⟩ := execRead_cases h <;> rfl
  case parseWhich => exact (execParseWhich_cases h).goes
  case checkSend =>
    obtain rfl | ⟨-, -, rfl⟩ | ⟨-, rfl⟩ | ⟨-, -, -, rfl⟩ | rfl := execCheckSend_cases h <;> rfl
  case sendSingle => obtain rfl | ⟨-, -, p, -, rfl | rfl⟩ := execSendSingle_cases h <;> rfl
  case sendFirst => obtain rfl | ⟨-, p, -, rfl | rfl⟩ := execSendFirst_cases h <;> rfl
  case sendConsecutive =>
    obtain rfl | ⟨-, -, -, k, c, -, -, ⟨-, rfl⟩ | ⟨-, rfl⟩ | rfl⟩ := execSendConsecutive_cases h <;> rfl
  case checkCollision =>
    obtain ⟨-, rfl | rfl⟩ | ⟨-, rfl | ⟨f, -, rfl | rfl | rfl | rfl⟩⟩ := execCheckCollision_cases h <;>
      simp [tickGoes, hs]

/-! ## Which hooks a row calls -/

/-- The calls of a command that put out `o` are those of the row of `st`, when `BusAvailable` answers `avail`
(44_state_machine.md R194). -/
structure HookCalls (st : SeqState) (avail : Bool) (o : Outputs) : Prop where
  available : o.availCalls = st.polls.toNat
  read      : o.readCalls = (st.reads avail).toNat
  sent      : o.sent.length ≤ st.sends.toNat
  delivered : o.delivered.length ≤ st.delivers.toNat

@[simp] theorem Outputs.quiet_delivered : Outputs.quiet.delivered = [] := rfl

theorem length_le_toNat_of_eq_nil {α : Type} {l : List α} {b : Bool} (h : l = []) : l.length ≤ b.toNat := by
  rw [h]
  exact Nat.zero_le _

theorem eq_true_of_length_le_toNat {α : Type} {l : List α} {b : Bool} (h : l.length ≤ b.toNat)
    (hne : l ≠ []) : b = true := by
  cases b with
  | true => rfl
  | false => exact absurd (List.eq_nil_of_length_eq_zero (Nat.le_zero.1 h)) hne

theorem SendsFrom.length_le_one {r : Transfer} {o : Outputs} (h : SendsFrom r o) : o.sent.length ≤ 1 := by
  obtain hnone | ⟨f, hone, -⟩ := h
  · rw [hnone]
    exact Nat.zero_le 1
  · rw [hone]
    exact Nat.le_refl 1

theorem Parsed.delivered_length_le_one (h : Parsed s t) : t.out.delivered.length ≤ 1 := by
  cases h <;> simp

theorem Parsed.polls (h : Parsed s t) : t.out.availCalls = 0 ∧ t.out.readCalls = 0 := by
  cases h <;> exact ⟨rfl, rfl⟩

/-- How often the row of a state polls and reads. -/
theorem exec_stateInstr_polls {st : SeqState} (h : exec st.instr s = .next t) :
    t.out.availCalls = st.polls.toNat ∧ t.out.readCalls = (st.reads s.inp.answers.avail).toNat := by
  cases st with
  | disabled => cases h; exact ⟨rfl, rfl⟩
  | idle => obtain rfl | ⟨-, -, rfl⟩ | rfl := execIdle_cases h <;> exact ⟨rfl, rfl⟩
  | checkRead => obtain rfl | rfl := execCheckRead_cases h <;> exact ⟨rfl, rfl⟩
  | read => obtain rfl | ⟨f, -, ⟨-, -, rfl | rfl⟩ | rfl⟩ := execRead_cases h <;> exact ⟨rfl, rfl⟩
  | parseWhich => exact (execParseWhich_cases h).polls
  | checkSend =>
    obtain rfl | ⟨-, -, rfl⟩ | ⟨-, rfl⟩ | ⟨-, -, -, rfl⟩ | rfl := execCheckSend_cases h <;>
      exact ⟨rfl, rfl⟩
  | sendSingle => obtain rfl | ⟨-, -, p, -, rfl | rfl⟩ := execSendSingle_cases h <;> exact ⟨rfl, rfl⟩
  | sendFirst => obtain rfl | ⟨-, p, -, rfl | rfl⟩ := execSendFirst_cases h <;> exact ⟨rfl, rfl⟩
  | sendConsecutive =>
    obtain rfl | ⟨-, -, -, k, c, -, -, ⟨-, rfl⟩ | ⟨-, rfl⟩ | rfl⟩ := execSendConsecutive_cases h <;>
      exact ⟨rfl, rfl⟩
  | checkCollision =>
    obtain ⟨ha, rfl | rfl⟩ | ⟨ha, rfl | ⟨f, -, rfl | rfl | rfl | rfl⟩⟩ := execCheckCollision_cases h <;>
      rw [ha] <;> exact ⟨rfl, rfl⟩

/-- At most one frame is handed to the bus, and by a send state only. -/
theorem exec_stateInstr_sent_length {st : SeqState} (h : exec st.instr s = .next t) :
    t.out.sent.length ≤ st.sends.toNat := by
  cases st with
  | disabled => cases h; exact Nat.le_refl 0
  | idle => exact length_le_toNat_of_eq_nil (execIdle_sent h)
  | checkRead => exact length_le_toNat_of_eq_nil (execCheckRead_sent h)
  | read => exact length_le_toNat_of_eq_nil (execRead_sent h)
  | parseWhich => exact length_le_toNat_of_eq_nil (execParseWhich_cases h).sent
  | checkSend => exact length_le_toNat_of_eq_nil (execCheckSend_sent h)
  | sendSingle => exact (execSendSingle_sent h).length_le_one
  | sendFirst => exact (execSendFirst_sent h).length_le_one
  | sendConsecutive => exact (execSendConsecutive_sent h).length_le_one
  | checkCollision => exact length_le_toNat_of_eq_nil (execCheckCollision_sent h)

/-- At most one message is delivered, and by ParseWhich only. -/
theorem exec_stateInstr_delivered_length {st : SeqState} (h : exec st.instr s = .next t) :
    t.out.delivered.length ≤ st.delivers.toNat := by
  cases st with
  | disabled => cases h; exact Nat.le_refl 0
  | idle => exact length_le_toNat_of_eq_nil (execIdle_delivered h)
  | checkRead => exact length_le_toNat_of_eq_nil (execCheckRead_delivered h)
  | read => exact length_le_toNat_of_eq_nil (execRead_delivered h)
  | parseWhich => exact (execParseWhich_cases h).delivered_length_le_one
  | checkSend => exact length_le_toNat_of_eq_nil (execCheckSend_delivered h)
  | sendSingle => exact length_le_toNat_of_eq_nil (execSendSingle_delivered h)
  | sendFirst => exact length_le_toNat_of_eq_nil (execSendFirst_delivered h)
  | sendConsecutive => exact length_le_toNat_of_eq_nil (execSendConsecutive_delivered h)
  | checkCollision => exact length_le_toNat_of_eq_nil (execCheckCollision_delivered h)

theorem exec_stateInstr_hookCalls {st : SeqState} (h : exec st.instr s = .next t) :
    HookCalls st s.inp.answers.avail t.out :=
  ⟨(exec_stateInstr_polls h).1, (exec_stateInstr_polls h).2, exec_stateInstr_sent_length h,
    exec_stateInstr_delivered_length h⟩

/-- A TICK puts out nothing but the timeout, or calls the hooks of its state (47_host_commands.md R242). -/
theorem execTick_hookCalls {now : Nat} (h : exec (.tick now) s = .next t) :
    t.out = Outputs.only .timeout ∨
      (t.out.event ≠ .timeout ∧ HookCalls s.state s.inp.answers.avail t.out) := by
  obtain ⟨hd, rfl⟩ | ⟨-, -, -, -, rfl⟩ | ⟨-, -, hrow⟩ := execTick_cases h
  · rw [hd]
    exact .inr ⟨nofun, rfl, rfl, Nat.le_refl 0, Nat.le_refl 0⟩
  · exact .inl rfl
  · exact .inr ⟨exec_stateInstr_event_ne_timeout hrow, by simpa using exec_stateInstr_hookCalls hrow⟩

end

/-! ## What the calls of a state say -/

section
variable {st : SeqState} {avail : Bool} {o : Outputs} (h : HookCalls st avail o)
include h

theorem HookCalls.atMostOneEach :
    o.availCalls ≤ 1 ∧ o.readCalls ≤ 1 ∧ o.sent.length ≤ 1 ∧ o.delivered.length ≤ 1 :=
  ⟨h.available.trans_le (Bool.toNat_le _), h.read.trans_le (Bool.toNat_le _), h.sent.trans (Bool.toNat_le _),
    h.delivered.trans (Bool.toNat_le _)⟩

theorem HookCalls.polled_iff :
    o.availCalls = 1 ↔ st = .idle ∨ st = .checkRead ∨ st = .checkCollision := by
  rw [h.available, Bool.toNat_eq_one]
  exact decide_eq_true_iff

theorem HookCalls.read_iff : o.readCalls = 1 ↔ st = .read ∨ (st = .checkCollision ∧ avail = true) := by
  rw [h.read, Bool.toNat_eq_one]
  exact decide_eq_true_iff

theorem HookCalls.sends (hne : o.sent ≠ []) : st.sends = true := eq_true_of_length_le_toNat h.sent hne

theorem HookCalls.delivers (hne : o.delivered ≠ []) : st = .parseWhich :=
  of_decide_eq_true (eq_true_of_length_le_toNat h.delivered hne)

/-- No state both reads and sends. -/
theorem HookCalls.notReadAndSent : o.readCalls = 0 ∨ o.sent = [] := by
  by_cases hne : o.sent = []
  · exact .inr hne
  · refine .inl ?_
    rw [h.read, SeqState.reads_eq_false_of_sends (h.sends hne), Bool.toNat_false]

end

/-! ## The statements -/

/-- Settles O42: the timeout enters `Idle`, and every other TICK goes as its row or stays in `Disabled`. -/
theorem ticksFollowTheTransitionTable : Obligations.TicksFollowTheTransitionTable := by
  unfold Obligations.TicksFollowTheTransitionTable
  intro now s t h
  obtain ⟨hd, rfl⟩ | ⟨-, -, -, -, rfl⟩ | ⟨-, -, hrow⟩ := execTick_cases h
  · exact ⟨nofun, fun _ => by simp [tickGoes, hd]⟩
  · exact ⟨fun _ => rfl, fun hne => absurd rfl hne⟩
  · refine ⟨fun he => absurd he (exec_stateInstr_event_ne_timeout hrow), fun _ => ?_⟩
    have hs : (s.fresh.sampleClock now).wrapHandler.state = s.state := State.wrapHandler_state _
    rw [← hs] at hrow ⊢
    exact exec_stateInstr_goes hrow

/-- Settles O43: the timeout's outputs are written out, every other TICK's are its state's. -/
theorem hookCallsFollowTheStateTable : Obligations.HookCallsFollowTheStateTable := by
  unfold Obligations.HookCallsFollowTheStateTable
  intro now s t h
  obtain htimeout | ⟨hne, hcalls⟩ := execTick_hookCalls h
  · rw [htimeout]
    exact ⟨Nat.zero_le 1, Nat.zero_le 1, Nat.zero_le 1, Nat.zero_le 1, .inl rfl,
      fun _ => ⟨rfl, rfl, rfl, rfl⟩, fun hne => absurd rfl hne⟩
  · obtain ⟨havail, hread, hsent, hdelivered⟩ := hcalls.atMostOneEach
    exact ⟨havail, hread, hsent, hdelivered, hcalls.notReadAndSent, fun he => absurd he hne, fun _ =>
      ⟨hcalls.polled_iff, hcalls.read_iff, fun hs => of_decide_eq_true (hcalls.sends hs), hcalls.delivers⟩⟩

end Sys2Proof.Machine
end

section
/-! PROOF. The two rows that meet a foreign frame with a transfer in flight: Read (O18) and CheckCollision (O26 to
O28), and two engines whose first frames collide (O57). The idea: a row reads the frame, a comparison chooses
between two branches, and each branch is written out by its field lemmas. For the pair, both TICKs run the row of
CheckCollision, each engine compares its address with the other's, and exactly one of the two comparisons holds. -/

namespace Sys2Proof.Machine

variable {s : State} {f : BusFrame}

/-! ## Rows that read the bus

The two ways such a row starts, as one record each: a chain of updates on top of it then unfolds
without repeating the start in every field. -/

theorem State.fresh_askedRead_eq (s : State) :
    s.fresh.askedRead = { s with out := { Outputs.quiet with readCalls := 1 } } := rfl

theorem State.fresh_askedAvailable_askedRead_eq (s : State) :
    s.fresh.askedAvailable.askedRead =
      { s with out := { Outputs.quiet with availCalls := 1, readCalls := 1 } } := rfl

/-! ## Read with a transfer in flight -/

theorem execRead_of_inFlight (h : s.inp.answers.read = some f) (hsize : 0 < s.tx.size.toNat)
    (hpos : 0 < s.tx.position.toNat) :
    execRead s = .next (readCollision (s.fresh.askedRead.capture (BusFrame.captured f))) := by
  simp only [execRead, s.fresh.askedRead.busRead_some h]
  exact if_pos ((State.txInFlight_iff _).2 ⟨hsize, hpos⟩)

/-- Settles O18: `ReadCollision` compares the identifier of the frame just read. -/
theorem readCollisionRewindsAndResolves : Obligations.ReadCollisionRewindsAndResolves := by
  unfold Obligations.ReadCollisionRewindsAndResolves
  intro s f hf hsize hpos
  refine (execRead_of_inFlight hf hsize hpos).trans (congrArg Host.Outcome.next ?_)
  rw [State.fresh_askedRead_eq]
  exact if_congr (State.weWin_iff _) rfl rfl

/-! ## Which frames collide -/

/-- A frame collides by its length and its first lane alone (45_collision.md R214). -/
theorem BusFrame.captured_collides_iff {b : Byte} {rest : List Byte} (h : f.lanes.toList = b :: rest) :
    Frame.collides (BusFrame.captured f) = true ↔
      (1 ≤ f.len.toNat ∧ f.len.toNat ≤ 8) ∧ 0x10 ≤ b.toNat ∧ b.toNat ≤ 0x2F := by
  have hadm : (BusFrame.captured f).admissible = true ↔ 1 ≤ f.len.toNat ∧ f.len.toNat ≤ 8 :=
    Frame.admissible_iff _
  obtain hzero | ⟨n, hn⟩ : f.len.toNat = 0 ∨ ∃ n, f.len.toNat = n + 1 := by cases f.len.toNat <;> simp
  · have hno : ¬ (BusFrame.captured f).admissible = true := by rw [hadm]; omega
    simp [Frame.collides, hno, hzero]
  · have hdata : (BusFrame.captured f).data = b :: rest.take n := by
      simp [BusFrame.captured, h, hn]
    rw [Frame.collides_cons hdata, hadm]

/-! ## CheckCollision -/

/-- A command starts, its poll finds a frame, and it reads the frame. -/
def State.received (s : State) (f : BusFrame) : State :=
  s.fresh.askedAvailable.askedRead.capture (BusFrame.captured f)

@[simp] theorem State.received_cfg : (s.received f).cfg = s.cfg := rfl
@[simp] theorem State.received_rx : (s.received f).rx = { s.rx with address := f.id } := rfl
@[simp] theorem State.received_tx : (s.received f).tx = s.tx := rfl
@[simp] theorem State.received_out :
    (s.received f).out = { Outputs.quiet with availCalls := 1, readCalls := 1 } := rfl

theorem execCheckCollision_of_noFrame (ha : s.inp.answers.avail = false) :
    execCheckCollision s = .next (paceConsecutive s.fresh.askedAvailable) :=
  if_neg (Bool.eq_false_iff.1 ha)

section
variable (ha : s.inp.answers.avail = true)
include ha

theorem execCheckCollision_of_error (hr : s.inp.answers.read = none) :
    execCheckCollision s = .next (s.fresh.askedAvailable.askedRead.takeError .busReadFail) := by
  simp only [execCheckCollision, s.fresh.askedAvailable.askedRead.busRead_none hr]
  exact if_pos ha

theorem execCheckCollision_of_frame (hr : s.inp.answers.read = some f) :
    execCheckCollision s = .next
      (if Frame.collides (BusFrame.captured f) = true then resolveCollision (s.received f)
      else paceConsecutive (s.received f)) := by
  simp only [execCheckCollision, s.fresh.askedAvailable.askedRead.busRead_some hr]
  rw [apply_ite Host.Outcome.next]
  exact if_pos ha

theorem execCheckCollision_of_collides (hr : s.inp.answers.read = some f)
    (hc : Frame.collides (BusFrame.captured f) = true) :
    execCheckCollision s = .next (resolveCollision (s.received f)) := by
  rw [execCheckCollision_of_frame ha hr, if_pos hc]

theorem execCheckCollision_of_not_collides (hr : s.inp.answers.read = some f)
    (hc : ¬ Frame.collides (BusFrame.captured f) = true) :
    execCheckCollision s = .next (paceConsecutive (s.received f)) := by
  rw [execCheckCollision_of_frame ha hr, if_neg hc]

end

/-- Settles O26: the error of a failed read, written out. -/
theorem collisionCheckReadFailureEndsBoth : Obligations.CollisionCheckReadFailureEndsBoth := by
  unfold Obligations.CollisionCheckReadFailureEndsBoth
  intro s ha hr
  refine (execCheckCollision_of_error ha hr).trans (congrArg Host.Outcome.next ?_)
  rw [State.fresh_askedAvailable_askedRead_eq, State.takeError_busReadFail]
  rfl

/-- Settles O27: such a frame collides, and the addresses are compared. -/
theorem collisionCheckResolvesByAddress : Obligations.CollisionCheckResolvesByAddress := by
  unfold Obligations.CollisionCheckResolvesByAddress
  intro s f b rest ha hr h1 h8 hlanes hlow hhigh
  have hc := (BusFrame.captured_collides_iff hlanes).2 ⟨⟨h1, h8⟩, hlow, hhigh⟩
  refine (execCheckCollision_of_collides ha hr hc).trans (congrArg Host.Outcome.next ?_)
  rw [State.received, State.fresh_askedAvailable_askedRead_eq]
  exact if_congr (State.weWin_iff _) rfl rfl

/-- Settles O28: no frame, or one that does not collide, and then the inter-frame gate. -/
theorem collisionCheckPacesTheNextFrame : Obligations.CollisionCheckPacesTheNextFrame := by
  unfold Obligations.CollisionCheckPacesTheNextFrame
  refine fun s => ⟨fun ha => ?_, fun f b rest ha hr hlanes hno => ?_⟩
  · exact (execCheckCollision_of_noFrame ha).trans
      (congrArg Host.Outcome.next (if_congr (State.waitOk_iff _) rfl rfl))
  · have hc : ¬ Frame.collides (BusFrame.captured f) = true := by
      rw [BusFrame.captured_collides_iff hlanes]
      omega
    exact (execCheckCollision_of_not_collides ha hr hc).trans
      (congrArg Host.Outcome.next (if_congr (State.waitOk_iff _) rfl rfl))

/-! ## Two engines in CheckCollision -/

/-- A TICK that is not due to time out runs the row of the current state after the prologue (40_clock_timer.md
R104, R105). -/
theorem execTick_of_onTime {now : Nat} (hs : s.state ≠ .disabled)
    (hnow : now % 2 ^ s.cfg.clockWidth ≤ s.timer + s.cfg.stateTimeout) :
    execTick now s = exec s.state.instr (s.fresh.sampleClock now).wrapHandler := by
  have hdue : ¬ (s.fresh.sampleClock now).wrapHandler.timedOut = true := by
    rw [State.timedOut_iff]
    simp only [State.wrapHandler_timer, State.wrapHandler_cfg, State.wrapHandler_inp, State.sampleClock_timer,
      State.sampleClock_cfg, State.sampleClock_inp, State.fresh_timer, State.fresh_cfg, Params.sample]
    omega
  calc execTick now s
      = tickEnabled (s.fresh.sampleClock now) := if_neg hs
    _ = stateStep (s.fresh.sampleClock now).wrapHandler := if_neg hdue
    _ = exec s.state.instr (s.fresh.sampleClock now).wrapHandler := by
      rw [stateStep_eq, State.wrapHandler_state, State.sampleClock_state, State.fresh_state]

theorem resolveCollision_of_weWin (h : s.weWin = true) :
    resolveCollision s = ((s.rewindTx).raise .collisionWin).enter .sendFirst :=
  if_pos h

theorem resolveCollision_of_not_weWin (h : ¬ s.weWin = true) :
    resolveCollision s = (s.raise .collisionYield).enter .checkRead :=
  if_neg h

/-- Resolving a collision calls no hook. -/
theorem resolveCollision_hooks (s : State) :
    (resolveCollision s).out.readCalls = s.out.readCalls ∧ (resolveCollision s).out.sent = s.out.sent := by
  obtain h | h := resolveCollision_cases s <;> rw [h] <;> exact ⟨rfl, rfl⟩

/-- A first frame of full length, put on the bus, collides whatever the lanes above its bytes carry. -/
theorem Frame.onBus_collides {g : Frame} {b : Byte} {d : List Byte} (hlen : g.len.toNat = 8)
    (hdata : g.data = b :: d) (htag : b.toNat / 16 = 1) (lanes : Vector Byte 8) :
    Frame.collides (BusFrame.captured (Frame.onBus g lanes)) = true := by
  obtain ⟨rest, hlanes⟩ := Frame.onBus_lanes_cons hdata lanes
  rw [BusFrame.captured_collides_iff hlanes, Frame.onBus_len]
  omega

/-- A TICK on time in CheckCollision that reads a colliding frame resolves the collision (45_collision.md R214). -/
theorem execTick_of_collides {now : Nat} (hs : s.state = .checkCollision)
    (hnow : now % 2 ^ s.cfg.clockWidth ≤ s.timer + s.cfg.stateTimeout) (ha : s.inp.answers.avail = true)
    (hr : s.inp.answers.read = some f) (hc : Frame.collides (BusFrame.captured f) = true) :
    execTick now s = .next (resolveCollision ((s.fresh.sampleClock now).wrapHandler.received f)) := by
  rw [execTick_of_onTime (hs ▸ nofun) hnow, hs]
  exact execCheckCollision_of_collides (by simpa using ha) (by simpa using hr) hc

/-- What a TICK of an engine in CheckCollision leaves, the peer's first frame at the head of its queue: the state
`u` in which it read that frame, resolved by the frame's identifier. The frame is consumed and none is sent. -/
theorem tickWith_firstFrame {now : Nat} {env : BusInputs} {g : Frame} {b : Byte} {d : List Byte}
    (hfail : env.readFails = false) (hs : s.state = .checkCollision)
    (hnow : now % 2 ^ s.cfg.clockWidth ≤ s.timer + s.cfg.stateTimeout)
    (hlen : g.len.toNat = 8) (hdata : g.data = b :: d) (htag : b.toNat / 16 = 1) (rest : List Frame) :
    ∃ u, tickWith now (g :: rest) env s = .next (resolveCollision u) ∧
      inboxAfter (g :: rest) env (resolveCollision u) = rest ∧ carried env (resolveCollision u) = [] ∧
      (u.weWin = true ↔ s.cfg.ownAddress.toNat < g.id.toNat) ∧ u.tx = s.tx := by
  have hc := Frame.onBus_collides hlen hdata htag env.lanes
  rw [tickWith, adapterAnswers_cons hfail]
  refine ⟨_, execTick_of_collides hs hnow rfl rfl hc, ?_, ?_, ?_, ?_⟩
  · simp [inboxAfter, (resolveCollision_hooks _).1, hfail]
  · simp [carried, (resolveCollision_hooks _).2]
  · simp
  · simp

/-- Settles O57: each engine compares its address with the other's, so A's comparison wins and B's does not. -/
theorem lowerAddressProceedsHigherYields : Obligations.LowerAddressProceedsHigherYields := by
  unfold Obligations.LowerAddressProceedsHigherYields
  intro p now envA envB fa fb restA restB da db ba bb hA hB hfailA hfailB hsA hsB hnowA hnowB hfa hfb hlt
    hlenA hdataA htagA hlenB hdataB htagB
  obtain ⟨u, hu, hinboxA, hcarriedA, hwinA, -⟩ :=
    tickWith_firstFrame hfailA hsA hnowA hlenB hdataB htagB restA
  obtain ⟨v, hv, hinboxB, hcarriedB, hwinB, htxB⟩ :=
    tickWith_firstFrame hfailB hsB hnowB hlenA hdataA htagA restB
  have hwin : u.weWin = true := hwinA.2 (hfb ▸ hlt)
  have hlose : ¬ v.weWin = true := fun h => Nat.lt_asymm hlt (hfa ▸ hwinB.1 h)
  rw [← hA] at hu hinboxA
  have htickA := Pair.tickA_next hu
  rw [hinboxA, hcarriedA, List.append_nil, resolveCollision_of_weWin hwin] at htickA
  rw [← hB] at hv hinboxB
  rw [resolveCollision_of_not_weWin hlose] at hv hinboxB hcarriedB
  refine ⟨_, _, htickA, Pair.tickB_next hv, rfl, rfl, ?_, rfl, rfl, hinboxB, htxB⟩
  rw [hcarriedB, List.append_nil]

end Sys2Proof.Machine
end

section
/-! PROOF. The publish message (O58). The idea: within a MAX_BUFFER of at most 65535 the bounds on the two lengths
follow from the bound on the whole message, and a 16-bit length is what its two bytes say. -/

namespace Sys2Proof.Machine

/-- An unsigned 16-bit length is written as a low byte and a high byte (46_pubsub_layer.md R230). -/
theorem littleEndian16_eq_pair {n : Nat} (h : n ≤ 65535) :
    ∃ lo hi : Byte, littleEndian16 n = [lo, hi] ∧ lo.toNat + 256 * hi.toNat = n := by
  have hhi : n / 256 < 2 ^ 8 := by omega
  refine ⟨_, _, rfl, ?_⟩
  rw [BitVec.toNat_ofNat, BitVec.toNat_ofNat, Nat.mod_eq_of_lt hhi, Nat.mod_add_div]

section

variable {maxBuffer : Nat} {topic payload : List Byte}

theorem publishBytes_of_overflow (h : maxBuffer < 5 + topic.length + payload.length) :
    publishBytes maxBuffer topic payload = none :=
  if_pos (.inr (.inr h))

theorem publishBytes_of_fits (hmax : maxBuffer ≤ 65535) (h : 5 + topic.length + payload.length ≤ maxBuffer) :
    publishBytes maxBuffer topic payload = some (publishMessage topic payload) :=
  if_neg (by omega)

end

/-- Settles O58: within MAX_BUFFER both lengths are 16-bit, so their two bytes carry them; above it there is no
message. -/
theorem publishMessageLayout : Obligations.PublishMessageLayout := by
  unfold Obligations.PublishMessageLayout
  intro maxBuffer topic payload hmax
  refine ⟨publishBytes_of_overflow, fun hfits => ?_⟩
  obtain ⟨lo, hi, htopic, hlohi⟩ := littleEndian16_eq_pair (n := topic.length) (by omega)
  obtain ⟨lo', hi', hpayload, hlohi'⟩ := littleEndian16_eq_pair (n := payload.length) (by omega)
  refine ⟨lo, hi, lo', hi', ?_, hlohi, hlohi'⟩
  rw [publishBytes_of_fits (by omega) hfits, publishMessage, htopic, hpayload]
  rfl

end Sys2Proof.Machine
end

section
/-! PROOF. The host's commands, and the two waits that no TICK ends (O1, O2, O4, O5, O53, O54). The idea: one
equation per way a command can go, each under the guard of its branch; a hazard is the TICK equation at timer 0,
where neither the wraparound handler nor the timeout can act. -/

namespace Sys2Proof.Machine

variable {s : State}

/-! ## BEGIN -/

/-- Settles O1: each branch of BEGIN, written out. -/
theorem beginEnablesADisabledEngineOnly : Obligations.BeginEnablesADisabledEngineOnly := by
  unfold Obligations.BeginEnablesADisabledEngineOnly
  intro s
  rw [apply_ite Host.Outcome.next]
  rfl

/-! ## TICK -/

/-- An enabled TICK is the timeout or the row of the current state, both after the sample and the wraparound
handler (40_clock_timer.md R107). -/
theorem execTick_of_enabled (now : Nat) (hs : s.state ≠ .disabled) :
    execTick now s =
      if (s.fresh.sampleClock now).wrapHandler.timedOut = true then
        .next ((s.fresh.sampleClock now).wrapHandler.takeError .timeout)
      else exec s.state.instr (s.fresh.sampleClock now).wrapHandler := by
  calc execTick now s
      = tickEnabled (s.fresh.sampleClock now) := if_neg hs
    _ = _ := by
      rw [tickEnabled, stateStep_eq, State.wrapHandler_state, State.sampleClock_state, State.fresh_state]

/-- What the prologue leaves: the sample, and the timer lowered to it (40_clock_timer.md R101, R104). -/
theorem State.tickPrologue_eq (s : State) (now : Nat) :
    (s.fresh.sampleClock now).wrapHandler =
      { s with
        timer := if s.timer > now % 2 ^ s.cfg.clockWidth then now % 2 ^ s.cfg.clockWidth else s.timer
        inp := { s.inp with now := now % 2 ^ s.cfg.clockWidth }
        out := Outputs.quiet } := by
  have hmin : (if s.timer > now % 2 ^ s.cfg.clockWidth then now % 2 ^ s.cfg.clockWidth else s.timer)
      = min s.timer (now % 2 ^ s.cfg.clockWidth) := by
    split <;> omega
  rw [hmin, State.wrapHandler_eq]
  rfl

/-- Settles O2: the prologue's state, and its timeout test as a proposition. -/
theorem tickRunsHandlerThenTimeoutThenStep : Obligations.TickRunsHandlerThenTimeoutThenStep := by
  unfold Obligations.TickRunsHandlerThenTimeoutThenStep
  intro now s
  by_cases hs : s.state = .disabled
  · exact (execTick_of_disabled now hs).trans (if_pos hs).symm
  · refine (execTick_of_enabled now hs).trans (Eq.trans ?_ (if_neg hs).symm)
    rw [State.tickPrologue_eq]
    exact if_congr (State.timedOut_iff _) rfl rfl

/-- With the timer at 0 neither the wraparound handler nor the timeout acts, at any clock value
(40_clock_timer.md R104, R105). -/
theorem execTick_of_timer_zero (now : Nat) (hs : s.state ≠ .disabled) (h0 : s.timer = 0) :
    execTick now s = exec s.state.instr (s.fresh.sampleClock now) := by
  have hwrap : (s.fresh.sampleClock now).wrapHandler = s.fresh.sampleClock now := by
    refine if_neg fun hc => ?_
    have hlt : now % 2 ^ s.cfg.clockWidth < s.timer := (State.clockWrapped_iff _).1 hc
    omega
  rw [execTick_of_enabled now hs, hwrap]
  refine if_neg fun hc => ?_
  have hpos : 0 < s.timer := ((State.timedOut_iff _).1 hc).1
  omega

/-! ## SEND -/

section
variable {maxBuffer len : Nat} {bytes : Option (List Byte)}

/-- The argument check of SEND (47_host_commands.md R243). -/
theorem sendInvalid_iff :
    sendInvalid maxBuffer len bytes = true ↔
      bytes = none ∨ len = 0 ∨ 4095 < len ∨ maxBuffer < len := by
  simp [sendInvalid, or_assoc]

theorem sendInvalid_eq_false (hb : bytes ≠ none) (h0 : 0 < len) (h4 : len ≤ 4095) (hm : len ≤ maxBuffer) :
    sendInvalid maxBuffer len bytes = false := by
  rw [← Bool.not_eq_true, sendInvalid_iff]
  rintro (h | h | h | h)
  · exact hb h
  all_goals omega

end

section
variable {len : Nat} {bytes : Option (List Byte)} (now : Nat) (addr : Ident)

theorem execSend_of_invalid (h : sendInvalid s.cfg.maxBuffer len bytes = true) :
    execSend now addr len bytes s = .next ((s.fresh.sampleClock now).raise .invalidArgument) :=
  if_pos h

/-- Good arguments outside `Idle`, `Disabled` included (47_host_commands.md R244). -/
theorem execSend_of_busy (h : sendInvalid s.cfg.maxBuffer len bytes = false) (hs : s.state ≠ .idle) :
    execSend now addr len bytes s = .next ((s.fresh.sampleClock now).raise .busy) :=
  (if_neg (Bool.eq_false_iff.1 h)).trans (if_neg hs)

/-- The state after an accepted SEND (47_host_commands.md R245). -/
def State.sendLoaded (s : State) (now : Nat) (addr : Ident) (bs : List Byte) : State :=
  (((s.fresh.sampleClock now).setTx
    { address := addr, size := BitVec.ofNat 12 bs.length, position := 0, counter := 0
      payload := Memory.writeN s.tx.payload 0 bs }).raise .sendAccepted).enter .checkSend

theorem execSend_of_idle {bs : List Byte} (h : sendInvalid s.cfg.maxBuffer bs.length (some bs) = false)
    (hm : bs.length ≤ s.cfg.maxBuffer) (hs : s.state = .idle) :
    execSend now addr bs.length (some bs) s = .next (s.sendLoaded now addr bs) := by
  have hw : memWrite s.cfg.maxBuffer s.tx.payload 0 bs = .ok (Memory.writeN s.tx.payload 0 bs) :=
    memWrite_ok (by omega)
  calc execSend now addr bs.length (some bs) s
      = loadTx addr bs.length bs (s.fresh.sampleClock now) :=
        (if_neg (Bool.eq_false_iff.1 h)).trans (if_pos hs)
    _ = .next (s.sendLoaded now addr bs) := by
      simp only [loadTx, State.sampleClock_cfg, State.sampleClock_tx, State.fresh_cfg, State.fresh_tx, hw]
      rfl

end

/-- The bytes of an accepted SEND are the buffer's first ones (47_host_commands.md R245). -/
theorem State.sendLoaded_payload (s : State) (now : Nat) (addr : Ident) {bs : List Byte} {i : Nat}
    (hi : i < bs.length) : Memory.read (s.sendLoaded now addr bs).tx.payload i = bs[i]? := by
  have h := Memory.read_writeN_inside s.tx.payload 0 bs hi
  rwa [Nat.zero_add] at h

/-- Settles O4: the argument check comes first, then the state check. -/
theorem sendIsRefusedWithoutEffect : Obligations.SendIsRefusedWithoutEffect := by
  unfold Obligations.SendIsRefusedWithoutEffect
  exact fun now addr len bytes s => ⟨fun h => execSend_of_invalid now addr (sendInvalid_iff.2 h),
    fun hb h0 h4 hm hs => execSend_of_busy now addr (sendInvalid_eq_false hb h0 h4 hm) hs⟩

/-- Settles O5: the message is one sequence write at offset 0, and no size above 4095 is narrowed. -/
theorem sendLoadsTheTransfer : Obligations.SendLoadsTheTransfer := by
  unfold Obligations.SendLoadsTheTransfer
  intro now addr bs s h0 h4 hm hs
  refine ⟨_, execSend_of_idle now addr (sendInvalid_eq_false nofun h0 h4 hm) hm hs, size_toNat_of_le h4,
    fun i hi => s.sendLoaded_payload now addr hi, fun a ha => ?_⟩
  exact Memory.read_writeN_outside s.tx.payload 0 bs (.inr (by omega))

/-! ## Waits that no TICK ends -/

/-- Settles O53: the row polls and stays, and SEND is refused outside `Idle`. -/
theorem zeroTimerDisablesTheTimeout : Obligations.ZeroTimerDisablesTheTimeout := by
  unfold Obligations.ZeroTimerDisablesTheTimeout
  intro now s hs h0 ha
  refine ⟨?_, fun addr bs hpos h4 hm => ?_⟩
  · calc execTick now s
        = exec .checkRead (s.fresh.sampleClock now) := by
          rw [execTick_of_timer_zero now (hs ▸ nofun) h0, hs, SeqState.instr]
      _ = .next (s.fresh.sampleClock now).askedAvailable := if_neg (Bool.eq_false_iff.1 ha)
  · have hvalid := sendInvalid_eq_false (bytes := some bs) nofun hpos h4 hm
    exact ⟨_, execSend_of_busy now addr hvalid (hs ▸ nofun), rfl, rfl⟩

/-- Idle stays while a reassembly runs and no frame waits (44_state_machine.md R181). -/
theorem execIdle_of_reassembly (ha : s.inp.answers.avail = false) (hrx : 0 < s.rx.size.toNat) :
    execIdle s = .next s.fresh.askedAvailable := by
  have hgate : ¬ (!s.rxActive && s.txPending && s.holdOk) = true := by
    rw [State.idleGate_iff]
    omega
  exact (if_neg (Bool.eq_false_iff.1 ha)).trans (if_neg hgate)

/-- Settles O54: the invariant keeps the timer of `Idle` at 0, and a running reassembly closes the gate. -/
theorem idleWithAReassemblyWaits : Obligations.IdleWithAReassemblyWaits := by
  unfold Obligations.IdleWithAReassemblyWaits
  intro now s hi hs hrx ha
  calc execTick now s
      = execIdle (s.fresh.sampleClock now) := by
        rw [execTick_of_timer_zero now (hs ▸ nofun) (hi.stopped (.inl hs)), hs]
        rfl
    _ = .next (s.fresh.sampleClock now).askedAvailable := execIdle_of_reassembly ha hrx

end Sys2Proof.Machine
end

section
/-! PROOF. What a TICK always does: it completes and keeps the invariant (O39), it never enters `Disabled` and does
not leave it (O41), and an error it reports is the one entry `takeError`, from the state of the error's kind (O49).
The idea for the errors: the event a TICK reports names the kind, a kind is reported by few states, and there the
next state is `takeError` of a state with the same registers. -/

namespace Sys2Proof

open Machine

/-- The acceptance is no row's event; SEND raises it (47_host_commands.md R245). -/
theorem SeqState.sendAccepted_notMem_rowEvents (st : SeqState) : Event.sendAccepted ∉ st.rowEvents := by
  cases st <;> decide

end Sys2Proof

namespace Sys2Proof.Machine

variable {s t : State}

/-- Settles O39: a TICK and a row complete under the invariant, and whatever they answer meets it. -/
theorem everyTickCompletesUnderTheInvariant : Obligations.EveryTickCompletesUnderTheInvariant := by
  unfold Obligations.EveryTickCompletesUnderTheInvariant
  intro now s hi
  obtain ⟨t, ht⟩ := execTick_completes hi now
  obtain ⟨u, hu⟩ := exec_stateInstr_completes hi s.state
  exact ⟨⟨t, ht, execTick_inv hi ht⟩, u, hu, exec_stateInstr_inv hi hu⟩

/-! ## Disabled -/

/-- A command stays in its state, or enters one other than `Disabled`. -/
def StaysOrEnables (s t : State) : Prop := t.state = s.state ∨ t.state ≠ .disabled

theorem StaysOrEnables.ne_disabled (h : StaysOrEnables s t) (hs : s.state ≠ .disabled) :
    t.state ≠ .disabled := by
  obtain hstay | hne := h
  · rwa [hstay]
  · exact hne

theorem Parsed.staysOrEnables (h : Parsed s t) : StaysOrEnables s t := by
  cases h <;> exact .inr nofun

theorem execSend_staysOrEnables {now : Nat} {addr : Ident} {len : Nat} {bytes : Option (List Byte)}
    (h : execSend now addr len bytes s = .next t) : StaysOrEnables s t := by
  obtain rfl | ⟨-, rfl⟩ | ⟨-, -, -, -, bs, -, -, rfl⟩ := execSend_cases h
  · exact .inl rfl
  · exact .inl rfl
  · exact .inr nofun

/-- The row of any state, whatever the state register holds. -/
theorem exec_stateInstr_staysOrEnables {st : SeqState} (h : exec st.instr s = .next t) :
    StaysOrEnables s t := by
  cases st with
  | disabled => cases h; exact .inl rfl
  | idle =>
    obtain rfl | ⟨-, -, rfl⟩ | rfl := execIdle_cases h
    · exact .inr nofun
    · exact .inr nofun
    · exact .inl rfl
  | checkRead =>
    obtain rfl | rfl := execCheckRead_cases h
    · exact .inr nofun
    · exact .inl rfl
  | read => obtain rfl | ⟨f, -, ⟨-, -, rfl | rfl⟩ | rfl⟩ := execRead_cases h <;> exact .inr nofun
  | parseWhich => exact (execParseWhich_cases h).staysOrEnables
  | checkSend =>
    obtain rfl | ⟨-, -, rfl⟩ | ⟨-, rfl⟩ | ⟨-, -, -, rfl⟩ | rfl := execCheckSend_cases h <;>
      exact .inr nofun
  | sendSingle => obtain rfl | ⟨-, -, p, -, rfl | rfl⟩ := execSendSingle_cases h <;> exact .inr nofun
  | sendFirst => obtain rfl | ⟨-, p, -, rfl | rfl⟩ := execSendFirst_cases h <;> exact .inr nofun
  | sendConsecutive =>
    obtain rfl | ⟨-, -, -, k, c, -, -, ⟨-, rfl⟩ | ⟨-, rfl⟩ | rfl⟩ := execSendConsecutive_cases h <;>
      exact .inr nofun
  | checkCollision =>
    obtain ⟨-, rfl | rfl⟩ | ⟨-, rfl | ⟨f, -, rfl | rfl | rfl | rfl⟩⟩ := execCheckCollision_cases h
    · exact .inr nofun
    · exact .inl rfl
    · exact .inr nofun
    · exact .inr nofun
    · exact .inr nofun
    · exact .inr nofun
    · exact .inl rfl

theorem execTick_staysOrEnables {now : Nat} (h : execTick now s = .next t) : StaysOrEnables s t := by
  obtain ⟨-, rfl⟩ | ⟨-, -, -, -, rfl⟩ | ⟨-, -, hrow⟩ := execTick_cases h
  · exact .inl rfl
  · exact .inr nofun
  · have hstate : (s.fresh.sampleClock now).wrapHandler.state = s.state := State.wrapHandler_state _
    exact (exec_stateInstr_staysOrEnables hrow).imp_left (·.trans hstate)

/-- No instruction enters `Disabled` (44_state_machine.md R191). -/
theorem exec_staysOrEnables {i : Instr} (h : exec i s = .next t) : StaysOrEnables s t := by
  cases i with
  | sf => exact (execSf_parsed h).staysOrEnables
  | ff => exact (execFf_parsed h).staysOrEnables
  | cf => exact (execCf_parsed h).staysOrEnables
  | fc | unk47 | unk815 => cases h; exact .inr nofun
  | begin =>
    obtain ⟨-, rfl⟩ | ⟨-, rfl⟩ := execBegin_cases h
    · exact .inr nofun
    · exact .inl rfl
  | tick => exact execTick_staysOrEnables h
  | send => exact execSend_staysOrEnables h
  | disabled => exact exec_stateInstr_staysOrEnables (st := .disabled) h
  | idle => exact exec_stateInstr_staysOrEnables (st := .idle) h
  | checkRead => exact exec_stateInstr_staysOrEnables (st := .checkRead) h
  | read => exact exec_stateInstr_staysOrEnables (st := .read) h
  | parseWhich => exact exec_stateInstr_staysOrEnables (st := .parseWhich) h
  | checkSend => exact exec_stateInstr_staysOrEnables (st := .checkSend) h
  | sendSingle => exact exec_stateInstr_staysOrEnables (st := .sendSingle) h
  | sendFirst => exact exec_stateInstr_staysOrEnables (st := .sendFirst) h
  | sendConsecutive => exact exec_stateInstr_staysOrEnables (st := .sendConsecutive) h
  | checkCollision => exact exec_stateInstr_staysOrEnables (st := .checkCollision) h

theorem execTick_state_of_disabled {now : Nat} (hd : s.state = .disabled) (h : execTick now s = .next t) :
    t.state = .disabled := by
  rw [execTick_of_disabled now hd] at h
  cases h
  exact hd

/-- SEND is busy in `Disabled` at best (47_host_commands.md R244). -/
theorem execSend_state_of_disabled {now : Nat} {addr : Ident} {len : Nat} {bytes : Option (List Byte)}
    (hd : s.state = .disabled) (h : execSend now addr len bytes s = .next t) : t.state = .disabled := by
  obtain rfl | ⟨-, rfl⟩ | ⟨hidle, -⟩ := execSend_cases h
  · exact hd
  · exact hd
  · exact nomatch hd.symm.trans hidle

/-- Settles O41: every outcome stays or enters an enabled state, and TICK and SEND stay in `Disabled`. -/
theorem onlyBeginLeavesDisabled : Obligations.OnlyBeginLeavesDisabled := by
  unfold Obligations.OnlyBeginLeavesDisabled
  intro i s t h
  refine ⟨(exec_staysOrEnables h).ne_disabled, fun hhost hd hleft => ?_⟩
  obtain hbegin | ⟨now, rfl⟩ | ⟨now, addr, len, bytes, rfl⟩ := hhost
  · exact hbegin
  · exact absurd (execTick_state_of_disabled hd h) hleft
  · exact absurd (execSend_state_of_disabled hd h) hleft

/-! ## Errors -/

/-- The states from which a TICK can report an error of this kind (60_exceptions.md R261 to R266). -/
def ErrorKind.raisedIn : ErrorKind → SeqState → Bool
  | .busSendFail, st               => st.sends
  | .busReadFail, st               => decide (st = .checkCollision)
  | .timeout, st                   => decide (st ≠ .disabled)
  | .malformedFrame, st            => decide (st = .parseWhich)
  | .invalidArgument, _ | .busy, _ => false

/-- A row reports only the errors of its state. -/
theorem ErrorKind.raisedIn_of_mem_rowEvents {k : ErrorKind} {st : SeqState} (h : k.event ∈ st.rowEvents) :
    k.raisedIn st = true := by
  revert h
  cases st <;> cases k <;> decide

/-- The next state is the entry of error `k` from a state with the registers of `s` (60_exceptions.md R270). -/
def TakesError (k : ErrorKind) (s t : State) : Prop :=
  ∃ u : State, u.rx = s.rx ∧ u.tx = s.tx ∧ u.rxf = s.rxf ∧ u.hold = s.hold ∧ t = u.takeError k

/-! ### The rows that can report an error -/

theorem Parsed.takesError (h : Parsed s t) (he : t.out.event = .frameDropped) :
    TakesError .malformedFrame s t := by
  cases h with
  | dropped => exact ⟨s.fresh, rfl, rfl, rfl, rfl, rfl⟩
  | ignored | single | first | appended | completed => cases he

theorem execSendSingle_takesError (h : execSendSingle s = .next t) (he : t.out.event = .busSendFail) :
    TakesError .busSendFail s t := by
  obtain rfl | ⟨-, -, p, -, rfl | rfl⟩ := execSendSingle_cases h
  · cases he
  · cases he
  · exact ⟨s.fresh.busSend (encodeSingle s.tx.address s.tx.size.toNat p), rfl, rfl, rfl, rfl, rfl⟩

theorem execSendFirst_takesError (h : execSendFirst s = .next t) (he : t.out.event = .busSendFail) :
    TakesError .busSendFail s t := by
  obtain rfl | ⟨-, p, -, rfl | rfl⟩ := execSendFirst_cases h
  · cases he
  · cases he
  · exact ⟨s.fresh.busSend (encodeFirst s.tx.address s.tx.size p), rfl, rfl, rfl, rfl, rfl⟩

theorem execSendConsecutive_takesError (h : execSendConsecutive s = .next t)
    (he : t.out.event = .busSendFail) : TakesError .busSendFail s t := by
  obtain rfl | ⟨-, -, -, k, c, -, -, ⟨-, rfl⟩ | ⟨-, rfl⟩ | rfl⟩ := execSendConsecutive_cases h
  · cases he
  · cases he
  · cases he
  · exact ⟨s.fresh.busSend (encodeConsecutive s.tx.address s.tx.counter c k), rfl, rfl, rfl, rfl, rfl⟩

theorem execCheckCollision_takesError (h : execCheckCollision s = .next t)
    (he : t.out.event = .busReadFail) : TakesError .busReadFail s t := by
  obtain ⟨-, rfl | rfl⟩ | ⟨-, rfl | ⟨f, -, rfl | rfl | rfl | rfl⟩⟩ := execCheckCollision_cases h
  · cases he
  · cases he
  · exact ⟨s.fresh.askedAvailable.askedRead, rfl, rfl, rfl, rfl, rfl⟩
  all_goals cases he

/-- An error that a row reports is an error of its state, taken there. -/
theorem exec_stateInstr_takesError {k : ErrorKind} {st : SeqState} (h : exec st.instr s = .next t)
    (he : t.out.event = k.event) : k.raisedIn st = true ∧ TakesError k s t := by
  have hin : k.raisedIn st = true := ErrorKind.raisedIn_of_mem_rowEvents (he ▸ exec_stateInstr_event h)
  refine ⟨hin, ?_⟩
  cases k with
  | invalidArgument | busy => cases hin
  | busSendFail =>
    obtain rfl | rfl | rfl := of_decide_eq_true hin
    · exact execSendSingle_takesError h he
    · exact execSendFirst_takesError h he
    · exact execSendConsecutive_takesError h he
  | busReadFail =>
    obtain rfl := of_decide_eq_true hin
    exact execCheckCollision_takesError h he
  | timeout => exact absurd he (exec_stateInstr_event_ne_timeout h)
  | malformedFrame =>
    obtain rfl := of_decide_eq_true hin
    exact (execParseWhich_cases h).takesError he

/-! ### A TICK -/

theorem ErrorKind.event_ne_none (k : ErrorKind) : k.event ≠ .none := by
  cases k <;> decide

theorem ErrorKind.eq_timeout_of_event {k : ErrorKind} (h : Event.timeout = k.event) : k = .timeout := by
  cases k with
  | timeout => rfl
  | invalidArgument | busy | busSendFail | busReadFail | malformedFrame => cases h

/-- An error that a TICK reports is an error of the state it ran in, taken from that state's registers. -/
theorem execTick_takesError {k : ErrorKind} {now : Nat} (h : exec (.tick now) s = .next t)
    (he : t.out.event = k.event) : k.raisedIn s.state = true ∧ TakesError k s t := by
  obtain ⟨-, rfl⟩ | ⟨hd, -, -, -, rfl⟩ | ⟨-, -, hrow⟩ := execTick_cases h
  · exact absurd he.symm k.event_ne_none
  · obtain rfl := ErrorKind.eq_timeout_of_event he
    exact ⟨decide_eq_true hd, s.fresh.sampleClock now, rfl, rfl, rfl, rfl, rfl⟩
  · obtain ⟨hin, u, hrx, htx, hrxf, hhold, rfl⟩ := exec_stateInstr_takesError hrow he
    exact ⟨hin, u, by simpa using hrx, by simpa using htx, by simpa using hrxf, by simpa using hhold, rfl⟩

theorem execTick_event_ne_sendAccepted {now : Nat} (h : exec (.tick now) s = .next t) :
    t.out.event ≠ .sendAccepted := by
  obtain ⟨-, rfl⟩ | ⟨-, -, -, -, rfl⟩ | ⟨-, -, hrow⟩ := execTick_cases h
  · nofun
  · nofun
  · exact fun he => s.state.sendAccepted_notMem_rowEvents (he ▸ exec_stateInstr_event hrow)

/-- Settles O49: what an error does is written out by its entry, by kind. -/
theorem errorsEndExactlyTheirTransfers : Obligations.ErrorsEndExactlyTheirTransfers := by
  unfold Obligations.ErrorsEndExactlyTheirTransfers
  intro now s t h
  refine ⟨fun he => ?_, fun he => ?_, fun he => ?_, fun he => ?_, fun he => ?_, fun he => ?_,
    execTick_event_ne_sendAccepted h⟩
  · obtain ⟨hin, u, hrx, htx, hrxf, hhold, rfl⟩ := execTick_takesError (k := .busSendFail) h he
    exact ⟨of_decide_eq_true hin, hrx, congrArg Transfer.clear htx, rfl, rfl, hrxf, hhold⟩
  · obtain ⟨hin, u, hrx, htx, hrxf, hhold, rfl⟩ := execTick_takesError (k := .busReadFail) h he
    exact ⟨of_decide_eq_true hin, congrArg Transfer.clear hrx, congrArg Transfer.clear htx, rfl, rfl, hrxf,
      hhold⟩
  · obtain ⟨hin, u, hrx, htx, hrxf, hhold, rfl⟩ := execTick_takesError (k := .timeout) h he
    exact ⟨of_decide_eq_true hin, congrArg Transfer.clear hrx, congrArg Transfer.clear htx, rfl, rfl, hrxf,
      hhold⟩
  · obtain ⟨hin, u, hrx, htx, hrxf, hhold, rfl⟩ := execTick_takesError (k := .malformedFrame) h he
    exact ⟨of_decide_eq_true hin, hrx, htx, rfl, hrxf, hhold⟩
  · exact nomatch (execTick_takesError (k := .invalidArgument) h he).1
  · exact nomatch (execTick_takesError (k := .busy) h he).1

end Sys2Proof.Machine
end

section
/-! PROOF. The host procedures above the block (O59, O60). The idea: each turn of the blocking send is one SEND, and
the three equations of SEND choose among the four ways the turn can go; `publish` is the blocking send of the bytes
that the layout statement describes. -/

namespace Sys2Proof.Machine

/-- The deadline of the blocking send, on the clock values as the host reads them (47_host_commands.md R247). -/
theorem sendExpired_iff (p : Params) (t0 t : Nat) :
    sendExpired p t0 t = true ↔
      p.sendTimeout ≤ (t % 2 ^ p.clockWidth + 2 ^ p.clockWidth - t0 % 2 ^ p.clockWidth) % 2 ^ p.clockWidth := by
  rw [sendExpired, decide_eq_true_iff, Params.elapsed, Params.sample, Params.sample, Nat.mod_mod]

/-- Settles O59: SEND's outcome decides the turn, and outside `Idle` the deadline does. -/
theorem blockingSendReturnsAsItsSendDoes : Obligations.BlockingSendReturnsAsItsSendDoes := by
  unfold Obligations.BlockingSendReturnsAsItsSendDoes
  intro t0 addr turn turns s
  refine ⟨fun len bytes hbad => ?_, fun bs h0 h4 hm => ?_⟩
  · exact blockingSend_invalid (execSend_of_invalid _ addr (sendInvalid_iff.2 hbad)) rfl
  have hvalid := sendInvalid_eq_false (bytes := some bs) nofun h0 h4 hm
  refine ⟨fun hs => ?_, fun hs hlate => ?_, fun hs hearly t r ht hr => ?_⟩
  · have hsend := execSend_of_idle turn.sendClock addr hvalid hm hs
    exact ⟨_, hsend, blockingSend_accepted hsend rfl⟩
  · exact blockingSend_expired (execSend_of_busy _ addr hvalid hs) rfl ((sendExpired_iff _ _ _).2 hlate)
  · have hexpired : sendExpired s.cfg t0 turn.testClock = false :=
      Bool.eq_false_iff.2 fun hc => Nat.not_le.2 hearly ((sendExpired_iff _ _ _).1 hc)
    refine (blockingSend_spins (execSend_of_busy _ addr hvalid hs) rfl hexpired ht).trans ?_
    rw [hr]
    rfl

/-- On an idle machine `publish` returns after one SEND, which loads the message (47_host_commands.md R248). -/
theorem publish_of_idle {s : State} {topic payload m : List Byte}
    (hbytes : publishBytes s.cfg.maxBuffer topic payload = some m) (h0 : 0 < m.length) (h4 : m.length ≤ 4095)
    (hm : m.length ≤ s.cfg.maxBuffer) (hs : s.state = .idle) (t0 : Nat) (addr : Option Ident)
    (turn : SpinInputs) (turns : List SpinInputs) :
    publish t0 addr topic payload (turn :: turns) s = .next
      { status := .ok
        state := s.sendLoaded turn.sendClock (addr.getD s.cfg.ownAddress) m
        outputs := [Outputs.only .sendAccepted] } := by
  have hvalid := sendInvalid_eq_false (bytes := some m) nofun h0 h4 hm
  rw [publish_sends hbytes]
  exact blockingSend_accepted (execSend_of_idle turn.sendClock _ hvalid hm hs) rfl

/-- Settles O60: the layout of the message gives its bytes and its length, and an accepted SEND stores them. -/
theorem publishSendsTheEncodedMessage : Obligations.PublishSendsTheEncodedMessage := by
  unfold Obligations.PublishSendsTheEncodedMessage
  intro t0 addr topic payload s hmax
  obtain ⟨hover, hfits⟩ := publishMessageLayout s.cfg.maxBuffer topic payload hmax
  refine ⟨fun hn => publish_refused (hover hn) t0 addr, fun hn => ?_⟩
  obtain ⟨lo, hi, lo', hi', hbytes, hlohi, hlohi'⟩ := hfits hn
  have hlen : ([0x03, lo, hi] ++ topic ++ [lo', hi'] ++ payload).length
      = 5 + topic.length + payload.length := by
    simp only [List.length_append, List.length_cons, List.length_nil]
    omega
  refine ⟨lo, hi, lo', hi', hlohi, hlohi', fun turns => ?_, fun hs turn turns => ?_⟩
  · rw [publish_sends hbytes, hlen]
  · refine ⟨_, publish_of_idle hbytes (by omega) (by omega) (by omega) hs t0 addr turn turns, rfl, rfl, ?_, rfl,
      rfl, fun i hlt => s.sendLoaded_payload _ _ (hlt.trans_eq hlen.symm)⟩
    exact (size_toNat_of_le (by omega)).trans hlen

end Sys2Proof.Machine
end
